-- ==== Sys2Proof/Word.lean ====
section
/-! DEFINITION. The two word types of the CM256 core: the byte (a field element, a memory cell) and the
32-bit word (a register, a command). -/

namespace Sys2Proof

/-- A byte: a field element (R80) or a cell of memory (R40). -/
abbrev Byte := BitVec 8

/-- A 32-bit word: a register of the window (R15), a command (R60), an address or a length (R6). -/
abbrev Word := BitVec 32

end Sys2Proof
end

