-- ==== Sys2Proof/Config.lean ====
section
/-! DEFINITION. The parameters of R6 and the values the spec leaves open. The OPEN parameter REG_BASE is plain
data of a state (Machine/State.lean, log 7). -/

namespace Sys2Proof.Config

/-- `POLY` = x^8 + x^6 + x^3 + x^2 + 1, bit i the coefficient of x^i (R6, R80). -/
def poly : BitVec 9 := 0x14D#9

/-- `MAX_BLOCKS`: the most originals plus recovery blocks of one code (R6). -/
def maxBlocks : Nat := 256

/-- `DESC_ENTRIES`: the capacity of the descriptor table (R6, R26). -/
def descEntries : Nat := 256

/-- One past the highest byte address, 2^ADDR_W (R6, R40). -/
def addrSpace : Nat := 4294967296

/-- `INIT_SELFTEST_OK`, one free Boolean per INIT command that finds INIT_DONE = 0 (R6, R87). DESIGN CHOICE (log 3):
the draws are numbered; the n-th draw is this uninterpreted constant applied to n, so nothing constrains it. -/
opaque initSelftestOk : Nat → Bool

/-- `inv(0)` does not exist and no rule evaluates it (R84). DESIGN CHOICE (log 4): Lean's total function has
this uninterpreted constant there, so that no proof can lean on a value. -/
opaque inverseOfZero : Byte

end Sys2Proof.Config
end

