-- ==== Sys2Proof/Machine/Field.lean ====
section
/-! DEFINITION. GF(256) as the unit computes it (R80 to R86): addition is exclusive-or, the product is carry-less
multiplication reduced modulo POLY. -/

namespace Sys2Proof.Machine

/-- `clmul(a, b)` of R82: the carry-less product, 15 bits. -/
def clmul (a b : Byte) : BitVec 15 :=
  (List.range 8).foldl (fun p i => if b.getLsbD i then p ^^^ (a.setWidth 15 <<< i) else p) 0#15

/-- `reduce(p)` of R82: the remainder modulo POLY, bits 14 down to 8 cleared in turn. -/
def reduce (p : BitVec 15) : Byte :=
  ([14, 13, 12, 11, 10, 9, 8].foldl
    (fun q i => if q.getLsbD i then q ^^^ (Config.poly.setWidth 15 <<< (i - 8)) else q) p).setWidth 8

/-- The field product `a ⊗ b` (R82). -/
def gfMul (a b : Byte) : Byte := reduce (clmul a b)

/-- `xtime(v)` of R82: the product by x. -/
def xtime (v : Byte) : Byte := (v <<< 1) ^^^ (if v.getLsbD 7 then 0x4D#8 else 0x00#8)

/-- The second procedure of R82, one step per bit of `b` from the top. The model does not use it; a statement says that
it computes the same product. -/
def gfMulShiftXor (a b : Byte) : Byte :=
  [7, 6, 5, 4, 3, 2, 1, 0].foldl (fun acc i => xtime acc ^^^ (if b.getLsbD i then a else 0#8)) 0#8

/-- `acc ⊗ p ⊗ p^2 ⊗ p^4 ⊗ …`, `n` factors. -/
def gfPowChain : Nat → Byte → Byte → Byte
  | 0, _, acc => acc
  | n + 1, p, acc => gfPowChain n (gfMul p p) (gfMul acc p)

/-- `inv(a)` (R84): for a ≠ 0 the power a^254 = a^2 ⊗ a^4 ⊗ … ⊗ a^128, the byte whose product with `a` is 1. There is no
`inv(0)` and no rule evaluates it: there stands an uninterpreted constant (log 4). -/
def gfInv (a : Byte) : Byte :=
  if a = 0#8 then Config.inverseOfZero else gfPowChain 7 (gfMul a a) 1#8

/-- Division `a ⊘ b = a ⊗ inv(b)` for b ≠ 0 (R85). -/
def gfDiv (a b : Byte) : Byte := gfMul a (gfInv b)

/-- `⊕` over a list: 0 when it is empty (notation of `00_scope.md` 6.2). -/
def xorSum (bs : List Byte) : Byte := bs.foldr (· ^^^ ·) 0#8

end Sys2Proof.Machine
end

