-- ==== Sys2Proof/Machine/Elimination.lean ====
section
/-! DEFINITION. The Gaussian elimination engine: the inverse of a square matrix over GF(256) by the reference method of
R152. The inverse is unique, so the method is not observable (R147, R149; log 15). -/

namespace Sys2Proof.Machine

/-- A matrix of field elements, a list of rows. -/
abbrev GfMatrix := List (List Byte)

/-- The entry in row `r`, column `c`; 0 outside. -/
def entry (A : GfMatrix) (r c : Nat) : Byte := (A.getD r []).getD c 0#8

/-- Row `r` of the `t × t` identity. -/
def identityRow (t r : Nat) : List Byte := (List.range t).map fun c => if c = r then 1#8 else 0#8

/-- `[ M | I_t ]`. -/
def augment (M : GfMatrix) : GfMatrix := M.zipIdx.map fun (row, r) => row ++ identityRow M.length r

/-- The least `r ≥ c` with a nonzero entry in column `c`. -/
def findPivot (A : GfMatrix) (c : Nat) : Option Nat :=
  (List.range A.length).find? fun r => decide (c ≤ r) && decide (entry A r c ≠ 0#8)

/-- Rows `i` and `j` exchanged. -/
def swapRows (A : GfMatrix) (i j : Nat) : GfMatrix :=
  (List.range A.length).map fun r => A.getD (if r = i then j else if r = j then i else r) []

/-- The row divided by its entry in column `c`, so that this entry becomes 1. -/
def normalizeRow (row : List Byte) (c : Nat) : List Byte := row.map (gfMul (gfInv (row.getD c 0#8)))

/-- `row ⊕ f ⊗ pivot`, with `f` the entry of `row` in column `c`. -/
def clearEntry (row pivot : List Byte) (c : Nat) : List Byte :=
  if row.getD c 0#8 = 0#8 then row
  else List.zipWith (fun x p => x ^^^ gfMul (row.getD c 0#8) p) row pivot

/-- Column `c` cleared in every row but row `c`, which becomes `pivot`. -/
def clearColumn (A : GfMatrix) (pivot : List Byte) (c : Nat) : GfMatrix :=
  A.zipIdx.map fun (row, r) => if r = c then pivot else clearEntry row pivot c

/-- One round of R152 for column `c`; none when no pivot exists, that is, when the matrix is singular. -/
def eliminateColumn (A : GfMatrix) (c : Nat) : Option GfMatrix :=
  match findPivot A c with
  | none => none
  | some r => some (clearColumn (swapRows A r c) (normalizeRow ((swapRows A r c).getD c []) c) c)

/-- The rounds for the columns of a list, in order. -/
def eliminateColumns (A : GfMatrix) : List Nat → Option GfMatrix
  | [] => some A
  | c :: cs =>
    match eliminateColumn A c with
    | none => none
    | some B => eliminateColumns B cs

/-- `W = M^(−1)` (R147, R152), none when `M` is singular. -/
def invertMatrix (M : GfMatrix) : Option GfMatrix :=
  match eliminateColumns (augment M) (List.range M.length) with
  | none => none
  | some A => some (A.map (·.drop M.length))

end Sys2Proof.Machine
end

