-- ==== Sys2Proof/Machine/Cauchy.lean ====
section
/-! DEFINITION. The Cauchy generator matrix (R110 to R113). It is a function of the counts, so no entry is stored
(R27, log 14). -/

namespace Sys2Proof.Machine

/-- `colParam(c) = c + 1` (R110). -/
def colParam (c : Nat) : Byte := BitVec.ofNat 8 (c + 1)

/-- `rowParam(k, r) = (k + 1 + r) mod 256` (R110). -/
def rowParam (k r : Nat) : Byte := BitVec.ofNat 8 (k + 1 + r)

/-- `G(k, m, r, c) = inv(rowParam(k, r) ⊕ colParam(c))` (R112). The value does not depend on m except through the range
of r, so m is no argument. -/
def genEntry (k r c : Nat) : Byte := gfInv (rowParam k r ^^^ colParam c)

end Sys2Proof.Machine
end

