-- ==== Sys2Proof/Syntax.lean ====
section
/-! DEFINITION. The eleven commands of CM256-CMD version 1, one constructor per row of the opcode table (R65). -/

namespace Sys2Proof

/-- A command with the operands that travel in its word (R61 to R64). A field element, a coefficient and a tag are
bytes; a matrix row and column are numbers, 0 to 255 in a well-formed command. -/
inductive Instr where
  /-- INIT (R87). -/
  | init
  /-- GFMUL a, b (R88). -/
  | gfmul (a b : Byte)
  /-- GFDIV a, b (R89). -/
  | gfdiv (a b : Byte)
  /-- GFINV a (R90). -/
  | gfinv (a : Byte)
  /-- MULACC c (R91). -/
  | mulacc (c : Byte)
  /-- BUILDGEN (R115). -/
  | buildgen
  /-- GENRD r, c (R116). -/
  | genrd (row col : Nat)
  /-- DESCCLR (R126). -/
  | descclr
  /-- DESCPUSH t (R127). -/
  | descpush (tag : Byte)
  /-- ENCODE (R128). -/
  | encode
  /-- DECODE (R141). -/
  | decode
  deriving DecidableEq, Repr

end Sys2Proof
end

