-- ==== Sys2Proof/WellFormed.lean ====
section
/-! DEFINITION. Which terms of `Instr` are commands a word can carry. -/

namespace Sys2Proof

/-- Every operand fits its 8-bit field (R64: "the number 0 to 255"). Operands held as bytes fit by their type. -/
def Instr.wellFormed : Instr → Bool
  | .init => true
  | .gfmul _ _ => true
  | .gfdiv _ _ => true
  | .gfinv _ => true
  | .mulacc _ => true
  | .buildgen => true
  | .genrd row col => decide (row < 256) && decide (col < 256)
  | .descclr => true
  | .descpush _ => true
  | .encode => true
  | .decode => true

end Sys2Proof
end

