-- ==== Sys2Proof/Decode.lean ====
section
/-! DEFINITION. Command words to commands (total, R67) and back, from the formats of R60 and the opcode map of R65. -/

namespace Sys2Proof

/-- What the decoder reads from a word (R67): a command, or which of the two ways of being illegal (R66) applies. -/
inductive Decoded where
  /-- One of the eleven commands with its operands. -/
  | command (i : Instr)
  /-- `illegal(1)`: the opcode is not one of the eleven. -/
  | illegalOpcode
  /-- `illegal(2)`: the opcode is known and a reserved bit of its format is 1. -/
  | illegalReserved
  deriving DecidableEq, Repr

/-- Bits 31:24 (R60). -/
def opcodeOf (w : Word) : Byte := w.extractLsb' 24 8

/-- Bits 15:8: the first operand of format AB (R60, R63). -/
def fieldA (w : Word) : Byte := w.extractLsb' 8 8

/-- Bits 7:0: the operand of format A, the second operand of format AB (R60, R62, R63). -/
def fieldLow (w : Word) : Byte := w.extractLsb' 0 8

/-- Format Z: bits 23:0 reserved (R60). -/
def formatZ (w : Word) (i : Instr) : Decoded :=
  if w.extractLsb' 0 24 = 0#24 then .command i else .illegalReserved

/-- Format A: bits 23:8 reserved (R60). -/
def formatA (w : Word) (f : Byte → Instr) : Decoded :=
  if w.extractLsb' 8 16 = 0#16 then .command (f (fieldLow w)) else .illegalReserved

/-- Format AB: bits 23:16 reserved (R60). -/
def formatAB (w : Word) (f : Byte → Byte → Instr) : Decoded :=
  if w.extractLsb' 16 8 = 0#8 then .command (f (fieldA w) (fieldLow w)) else .illegalReserved

/-- The decoder (R65 to R68): total, the same in every state. -/
def decode (w : Word) : Decoded :=
  match (opcodeOf w).toNat with
  | 0x01 => formatZ w .init
  | 0x10 => formatAB w .gfmul
  | 0x11 => formatAB w .gfdiv
  | 0x12 => formatA w .gfinv
  | 0x18 => formatA w .mulacc
  | 0x20 => formatZ w .buildgen
  | 0x21 => formatAB w fun row col => .genrd row.toNat col.toNat
  | 0x30 => formatZ w .descclr
  | 0x31 => formatA w .descpush
  | 0x40 => formatZ w .encode
  | 0x41 => formatZ w .decode
  | _ => .illegalOpcode

/-- A word of format Z (R60). -/
def wordZ (op : Byte) : Word := op ++ 0#24

/-- A word of format A (R60). -/
def wordA (op a : Byte) : Word := op ++ 0#16 ++ a

/-- A word of format AB (R60). -/
def wordAB (op a b : Byte) : Word := op ++ 0#8 ++ a ++ b

/-- The word of a command (R65, R72). A row or column beyond its 8-bit field has no encoding: `encode` speaks for
well-formed commands only. -/
def encode : Instr → Word
  | .init => wordZ 0x01#8
  | .gfmul a b => wordAB 0x10#8 a b
  | .gfdiv a b => wordAB 0x11#8 a b
  | .gfinv a => wordA 0x12#8 a
  | .mulacc c => wordA 0x18#8 c
  | .buildgen => wordZ 0x20#8
  | .genrd row col => wordAB 0x21#8 (BitVec.ofNat 8 row) (BitVec.ofNat 8 col)
  | .descclr => wordZ 0x30#8
  | .descpush tag => wordA 0x31#8 tag
  | .encode => wordZ 0x40#8
  | .decode => wordZ 0x41#8

/-- A row of the opcode map: `w` selects the command when `w &&& mask = pattern` (R65). -/
structure OpcodeRow where
  mnemonic : String
  pattern : Word
  mask : Word
  deriving DecidableEq, Repr

/-- The row of each command (R65, `opcode_table.json`). -/
def rowOf : Instr → OpcodeRow
  | .init => ⟨"INIT", 0x01000000#32, 0xFFFFFFFF#32⟩
  | .gfmul _ _ => ⟨"GFMUL", 0x10000000#32, 0xFFFF0000#32⟩
  | .gfdiv _ _ => ⟨"GFDIV", 0x11000000#32, 0xFFFF0000#32⟩
  | .gfinv _ => ⟨"GFINV", 0x12000000#32, 0xFFFFFF00#32⟩
  | .mulacc _ => ⟨"MULACC", 0x18000000#32, 0xFFFFFF00#32⟩
  | .buildgen => ⟨"BUILDGEN", 0x20000000#32, 0xFFFFFFFF#32⟩
  | .genrd _ _ => ⟨"GENRD", 0x21000000#32, 0xFFFF0000#32⟩
  | .descclr => ⟨"DESCCLR", 0x30000000#32, 0xFFFFFFFF#32⟩
  | .descpush _ => ⟨"DESCPUSH", 0x31000000#32, 0xFFFFFF00#32⟩
  | .encode => ⟨"ENCODE", 0x40000000#32, 0xFFFFFFFF#32⟩
  | .decode => ⟨"DECODE", 0x41000000#32, 0xFFFFFFFF#32⟩

/-- The whole opcode map of R65, in the table's order. -/
def opcodeRows : List OpcodeRow :=
  [rowOf .init, rowOf (.gfmul 0 0), rowOf (.gfdiv 0 0), rowOf (.gfinv 0), rowOf (.mulacc 0), rowOf .buildgen,
   rowOf (.genrd 0 0), rowOf .descclr, rowOf (.descpush 0), rowOf .encode, rowOf .decode]

/-- The word whose low `nbits` bits are those of `w`, the rest 0. -/
def tableWord (nbits w : Nat) : Word := BitVec.ofNat 32 (w % 2 ^ nbits)

/-- The command the decoder reads from the bits `w` of an opcode-table row `nbits` wide. A command word is one 32-bit
register value, so bit numbers of the table and of the word agree (R60); nothing is longer than 32 bits. -/
def decodeTableWord (nbits w : Nat) : Option Instr :=
  if 2 ^ 32 ≤ w % 2 ^ nbits then none
  else match decode (tableWord nbits w) with
    | .command i => some i
    | .illegalOpcode => none
    | .illegalReserved => none

end Sys2Proof
end

