-- ==== Sys2Proof/Machine/State.lean ====
section
/-! DEFINITION. The state of the machine as plain data: the unit's registers and descriptor table (R10), the external
memory (R40), the host side (pending actions, values read) and the platform's parameters. -/

namespace Sys2Proof.Machine

/-- A block descriptor (R26). -/
structure Descriptor where
  /-- Byte address of the buffer. -/
  addr : Word
  /-- Length of the buffer in bytes. -/
  len : Word
  /-- Index tag. -/
  idx : Byte
  deriving DecidableEq, Repr

/-- The external byte memory (R40) as (address, byte) pairs in canonical form (`Memory.wf` in Ops.lean). -/
abbrev Memory := List Host.Cell

/-- The addresses `base, …, base + len − 1` (R48). -/
structure Range where
  base : Nat
  len : Nat
  deriving DecidableEq, Repr

/-- The registers of the window, numbers 0 to 15 in this order (R15). -/
inductive Reg where
  | cmd
  | status
  | res
  | errInfo
  | a0
  | a1
  | a2
  | blockBytes
  | origCount
  | recovCount
  | genDims
  | descCount
  | reserved12
  | reserved13
  | reserved14
  | reserved15
  deriving DecidableEq, Repr

/-- One action of the host (R16, R41, R72, R185). Whole-register accesses are `wr` and `rd`, the two actions of a host
script; `busWrite` and `busRead` name the same window by host address and access width; `store` and `load` are the
host's own byte accesses to the memory it owns; `reset` is the reset input, between commands. -/
inductive HostAction where
  | wr (reg : Reg) (v : Word)
  | rd (reg : Reg)
  | busWrite (addr bytes : Nat) (v : Word)
  | busRead (addr bytes : Nat)
  | store (addr : Word) (v : Byte)
  | load (addr : Word)
  | reset
  deriving DecidableEq, Repr

/-- What the platform around the unit fixes. No step changes it. -/
structure Platform where
  /-- `REG_BASE`, an OPEN parameter (R6, R15): the host address of the window. -/
  regBase : Nat
  /-- Address ranges of the unit's memory port that are not ordinary memory: device registers, holes, the unit's own
  window if the platform maps it there (R46, R47). -/
  notMemory : List Range
  deriving DecidableEq, Repr

/-- The machine has no fault outcome: a recoverable failure and a fatal error are recorded in STATUS and ERRINFO, so
both are next states (R160, R163, R164), and no memory access can fault (R40). -/
inductive Fault where
  deriving DecidableEq, Repr

/-- The actions to which the spec tells a model to give no meaning. -/
inductive Refusal where
  /-- Raised by `exec` for a command that has no meaning yet. Safe: nothing is claimed of it. -/
  | notModelled (mnemonic : String)
  /-- Raised by MULACC, ENCODE, DECODE when a buffer the command writes shares a byte with another buffer it names
  (R57, U3: "the model takes disjointness as a precondition … and refuses the command otherwise"). Safe. -/
  | overlappingBuffers
  /-- Raised by MULACC, ENCODE, DECODE when a buffer they name is not ordinary memory (R46: "a model gives such a
  command no meaning (it refuses it)"). Safe. -/
  | bufferNotOrdinaryMemory
  /-- Raised by a host access that is not an aligned 32-bit access of one register of the window (R16, U5). Safe. -/
  | partialRegisterAccess
  /-- Raised by the host's own load or store at an address the platform lists as not ordinary memory (R46). Safe. -/
  | hostAccessNotMemory
  deriving DecidableEq, Repr

/-- Everything the spec gives the machine, and the model's own fields `script`, `observed`, `initDraws`, `platform`.
The generator store and the field tables are functions of this state (R27, R28). -/
structure State where
  /-- STATUS.INIT_DONE (R18). -/
  initDone : Bool
  /-- STATUS.FATAL (R18). -/
  fatal : Bool
  /-- STATUS.GEN_VALID (R18). -/
  genValid : Bool
  /-- STATUS.ERR (R18). -/
  err : Byte
  /-- RES, bits 7:0 (R19). -/
  res : Byte
  /-- ERRINFO.SUB (R20). -/
  errSub : Byte
  /-- ERRINFO.POS (R20). -/
  errPos : Byte
  /-- A0 (R11). -/
  a0 : Word
  /-- A1 (R11). -/
  a1 : Word
  /-- A2 (R11). -/
  a2 : Word
  /-- BLOCK_BYTES (R21). -/
  blockBytes : Word
  /-- ORIG_COUNT (R22). -/
  origCount : Word
  /-- RECOV_COUNT (R23). -/
  recovCount : Word
  /-- GEN_DIMS.GEN_K (R24). -/
  genK : BitVec 9
  /-- GEN_DIMS.GEN_M (R24). -/
  genM : BitVec 9
  /-- The descriptor table (R26); DESC_COUNT is its length (R25). -/
  descs : List Descriptor
  /-- The external memory (R40). -/
  mem : Memory
  /-- Model's own: the host's pending actions, oldest first (log 1). -/
  script : List HostAction
  /-- Model's own: the values the host's reads returned, oldest first (log 1). -/
  observed : List Word
  /-- Model's own: how many INIT self-test draws were taken (log 3). -/
  initDraws : Nat
  /-- Model's own: the platform's parameters (logs 6, 7). -/
  platform : Platform
  deriving DecidableEq, Repr

/-- The machine right after reset (R32, R185): every register 0, the table empty, memory with nothing listed. The
model's own fields are empty or 0 (DESIGN CHOICE, logs 1, 3, 6, 7). -/
def State.reset : State where
  initDone := false
  fatal := false
  genValid := false
  err := 0#8
  res := 0#8
  errSub := 0#8
  errPos := 0#8
  a0 := 0#32
  a1 := 0#32
  a2 := 0#32
  blockBytes := 0#32
  origCount := 0#32
  recovCount := 0#32
  genK := 0#9
  genM := 0#9
  descs := []
  mem := []
  script := []
  observed := []
  initDraws := 0
  platform := { regBase := 0, notMemory := [] }

end Sys2Proof.Machine
end

