-- ==== Sys2Proof/Machine/Flags.lean ====
section
/-! DEFINITION. Result codes, sub-causes and the status registers as the host reads them (R18 to R25, R161, R162).
The unit has no arithmetic flags (R14). -/

namespace Sys2Proof.Machine

/-- The recoverable failures, one per row of R162 that is not fatal; a failure that names a descriptor carries its
position. -/
inductive Failure where
  | configBlockBytes
  | configOrigCount
  | configSum
  | shapeCount
  | shapeLength (p : Nat)
  | shapeTagRange (p : Nat)
  | shapeMisplaced (p : Nat)
  | shapeDuplicate (p : Nat)
  | shapeAddrRange
  | shapeFull
  | shapeGenRange
  | zero
  | notInit
  | illegalOpcode
  | illegalReserved
  deriving DecidableEq, Repr

/-- The two fatal errors (R161, R164). -/
inductive Fatality where
  | internal
  | initFail
  deriving DecidableEq, Repr

/-- The result code in STATUS.ERR (R161). -/
def Failure.code : Failure → Byte
  | .configBlockBytes => 0x01#8
  | .configOrigCount => 0x01#8
  | .configSum => 0x01#8
  | .shapeCount => 0x02#8
  | .shapeLength _ => 0x02#8
  | .shapeTagRange _ => 0x02#8
  | .shapeMisplaced _ => 0x02#8
  | .shapeDuplicate _ => 0x02#8
  | .shapeAddrRange => 0x02#8
  | .shapeFull => 0x02#8
  | .shapeGenRange => 0x02#8
  | .zero => 0x05#8
  | .notInit => 0x06#8
  | .illegalOpcode => 0x07#8
  | .illegalReserved => 0x07#8

/-- The sub-cause in ERRINFO.SUB (R162). -/
def Failure.sub : Failure → Byte
  | .configBlockBytes => 1#8
  | .configOrigCount => 2#8
  | .configSum => 3#8
  | .shapeCount => 1#8
  | .shapeLength _ => 2#8
  | .shapeTagRange _ => 3#8
  | .shapeMisplaced _ => 4#8
  | .shapeDuplicate _ => 5#8
  | .shapeAddrRange => 6#8
  | .shapeFull => 7#8
  | .shapeGenRange => 8#8
  | .zero => 0#8
  | .notInit => 0#8
  | .illegalOpcode => 1#8
  | .illegalReserved => 2#8

/-- The position in ERRINFO.POS: the descriptor the failure names, 0 when it names none (R20, R162). -/
def Failure.pos : Failure → Byte
  | .configBlockBytes => 0#8
  | .configOrigCount => 0#8
  | .configSum => 0#8
  | .shapeCount => 0#8
  | .shapeLength p => BitVec.ofNat 8 p
  | .shapeTagRange p => BitVec.ofNat 8 p
  | .shapeMisplaced p => BitVec.ofNat 8 p
  | .shapeDuplicate p => BitVec.ofNat 8 p
  | .shapeAddrRange => 0#8
  | .shapeFull => 0#8
  | .shapeGenRange => 0#8
  | .zero => 0#8
  | .notInit => 0#8
  | .illegalOpcode => 0#8
  | .illegalReserved => 0#8

/-- The result code of a fatal error (R161). -/
def Fatality.code : Fatality → Byte
  | .internal => 0x03#8
  | .initFail => 0x04#8

/-- STATUS as the host reads it (R18): bits 31:16 and 7:3 are 0. -/
def statusWord (s : State) : Word :=
  0#16 ++ s.err ++ 0#5 ++ BitVec.ofBool s.genValid ++ BitVec.ofBool s.fatal ++ BitVec.ofBool s.initDone

/-- RES as the host reads it (R19). -/
def resWord (s : State) : Word := 0#24 ++ s.res

/-- ERRINFO as the host reads it (R20). -/
def errInfoWord (s : State) : Word := 0#16 ++ s.errPos ++ s.errSub

/-- GEN_DIMS as the host reads it (R24): GEN_K in bits 8:0, GEN_M in bits 24:16. -/
def genDimsWord (s : State) : Word := 0#7 ++ s.genM ++ 0#7 ++ s.genK

/-- DESC_COUNT: the number of descriptors in the table (R25, R26; log 16). -/
def descCount (s : State) : Nat := s.descs.length

/-- DESC_COUNT as the host reads it (R25): bits 8:0. -/
def descCountWord (s : State) : Word := 0#23 ++ BitVec.ofNat 9 (descCount s)

end Sys2Proof.Machine
end

