-- ==== Sys2Proof/Machine/Ops.lean ====
section
/-! DEFINITION. The named operations over memory, registers and status: byte access and block stores, the register
window, recording a failure (this unit's exception entry, R169), the common steps of every command (R69), host reads and
reset. -/

namespace Sys2Proof.Machine

/-! ### Memory (R40 to R45) -/

/-- What an address that is not listed reads as. The spec gives memory no contents at power-on ("memory: not touched by
reset", R32). DESIGN CHOICE (log 2): 0x00, unsafe. -/
def Memory.unlisted : Byte := 0#8

/-- `MemRead(addr, 1)` (R42). -/
def Memory.read : Memory → Nat → Byte
  | [], _ => Memory.unlisted
  | (b, v) :: m, a => if a = b then v else Memory.read m a

/-- The cells without the one at `a`. -/
def Memory.erase (m : Memory) (a : Nat) : Memory := m.filter fun cell => decide (cell.1 ≠ a)

/-- The cell `(a, v)` put before the first cell of a higher address. -/
def Memory.insert : Memory → Nat → Byte → Memory
  | [], a, v => [(a, v)]
  | (b, w) :: m, a, v => if a < b then (a, v) :: (b, w) :: m else (b, w) :: Memory.insert m a v

/-- `MemWrite(addr, 1, v)` (R42), keeping the canonical form. -/
def Memory.write (m : Memory) (a : Nat) (v : Byte) : Memory :=
  if v = Memory.unlisted then Memory.erase m a else Memory.insert (Memory.erase m a) a v

/-- The canonical form: addresses strictly rising and below 2^32, no cell equal to what an unlisted address reads as. -/
def Memory.wf (m : Memory) : Bool :=
  decide (m.Pairwise fun x y => x.1 < y.1) &&
    m.all fun cell => decide (cell.2 ≠ Memory.unlisted) && decide (cell.1 < Config.addrSpace)

/-- The `n` bytes `f 0, …, f (n − 1)` stored at `base, …, base + n − 1` (R43). -/
def Memory.storeBlock (m : Memory) (base : Nat) (f : Nat → Byte) : Nat → Memory
  | 0 => m
  | n + 1 => Memory.write (Memory.storeBlock m base f n) (base + n) (f n)

/-- Several blocks of `n` bytes stored, one after another. The values are functions of the memory at the start of the
command (R51), so the order matters only where blocks overlap, and such a command is refused (R57). -/
def Memory.storeBlocks (m : Memory) (n : Nat) : List (Nat × (Nat → Byte)) → Memory
  | [] => m
  | (base, f) :: rest => Memory.storeBlocks (Memory.storeBlock m base f n) n rest

/-! ### Field updates -/

/-- RES written (R19). -/
def State.withRes (s : State) (v : Byte) : State := { s with res := v }

/-- The generator cache set to the pair `(k, m)` (R24, R115, R117). -/
def State.withGenerator (s : State) (k m : Word) : State :=
  { s with genK := k.setWidth 9, genM := m.setWidth 9, genValid := true }

/-- The descriptor table replaced (R26). -/
def State.withDescs (s : State) (ds : List Descriptor) : State := { s with descs := ds }

/-- Memory replaced. -/
def State.withMem (s : State) (m : Memory) : State := { s with mem := m }

/-- The host's pending actions replaced. -/
def State.withScript (s : State) (as : List HostAction) : State := { s with script := as }

/-- A value returned to the host by a read (R72). -/
def State.observe (s : State) (v : Word) : State := { s with observed := s.observed ++ [v] }

/-! ### Outcomes of a command (R160 to R166) -/

/-- `succeed`: ERR and ERRINFO become 0 (R160, `00_scope.md` 6.4). -/
def succeed (s : State) : State := { s with err := 0x00#8, errSub := 0#8, errPos := 0#8 }

/-- `raise Fail(code, sub, pos)`: nothing but ERR and ERRINFO changes (R163, R169). -/
def fail (f : Failure) (s : State) : State := { s with err := f.code, errSub := f.sub, errPos := f.pos }

/-- `raise Fatal(code)`: FATAL becomes 1, ERR the code, ERRINFO 0, nothing else (R164). -/
def raiseFatal (f : Fatality) (s : State) : State :=
  { s with fatal := true, err := f.code, errSub := 0#8, errPos := 0#8 }

/-- The common steps of every command but INIT (R69 steps 1 and 3): ignored while FATAL = 1 (R165), `Fail(NOTINIT)` while
INIT_DONE = 0 (R166), else the command's own rule. -/
def whenReady (s : State) (body : Host.Outcome State Fault Refusal) : Host.Outcome State Fault Refusal :=
  if s.fatal then .next s
  else if s.initDone then body
  else .next (fail .notInit s)

/-- A word that is no command (R66, R69 steps 1 and 2): ignored while FATAL = 1, else the failure recorded. -/
def rejectWord (f : Failure) (s : State) : State := if s.fatal then s else fail f s

/-! ### The register window (R15, R16) -/

/-- The number of a register (R15). -/
def Reg.number : Reg → Nat
  | .cmd => 0
  | .status => 1
  | .res => 2
  | .errInfo => 3
  | .a0 => 4
  | .a1 => 5
  | .a2 => 6
  | .blockBytes => 7
  | .origCount => 8
  | .recovCount => 9
  | .genDims => 10
  | .descCount => 11
  | .reserved12 => 12
  | .reserved13 => 13
  | .reserved14 => 14
  | .reserved15 => 15

/-- The registers in the order of their numbers (R15). -/
def allRegs : List Reg :=
  [.cmd, .status, .res, .errInfo, .a0, .a1, .a2, .blockBytes, .origCount, .recovCount, .genDims, .descCount,
   .reserved12, .reserved13, .reserved14, .reserved15]

/-- The register a host access of `bytes` bytes at host address `addr` names: register n at REG_BASE + 4·n, aligned
32-bit accesses only (R15, R16; log 9). -/
def windowReg (regBase addr bytes : Nat) : Option Reg :=
  if bytes = 4 then allRegs.find? fun r => decide (addr = regBase + 4 * r.number) else none

/-- What a host read of a register returns (R16 to R29): CMD and the reserved registers read 0. -/
def readReg (r : Reg) (s : State) : Word :=
  match r with
  | .cmd => 0#32
  | .status => statusWord s
  | .res => resWord s
  | .errInfo => errInfoWord s
  | .a0 => s.a0
  | .a1 => s.a1
  | .a2 => s.a2
  | .blockBytes => s.blockBytes
  | .origCount => s.origCount
  | .recovCount => s.recovCount
  | .genDims => genDimsWord s
  | .descCount => descCountWord s
  | .reserved12 => 0#32
  | .reserved13 => 0#32
  | .reserved14 => 0#32
  | .reserved15 => 0#32

/-- A host write of `v` to a register that is not CMD (R16): the six read-write registers store all 32 bits, every other
register ignores the write. CMD stores nothing (R17); its command is issued by `Machine/Step.lean`. -/
def writeReg (r : Reg) (v : Word) (s : State) : State :=
  match r with
  | .cmd => s
  | .status => s
  | .res => s
  | .errInfo => s
  | .a0 => { s with a0 := v }
  | .a1 => { s with a1 := v }
  | .a2 => { s with a2 := v }
  | .blockBytes => { s with blockBytes := v }
  | .origCount => { s with origCount := v }
  | .recovCount => { s with recovCount := v }
  | .genDims => s
  | .descCount => s
  | .reserved12 => s
  | .reserved13 => s
  | .reserved14 => s
  | .reserved15 => s

/-- Reset between commands (R185): the unit's state as in R32, memory untouched; the host side, the draws already taken
and the platform are not the unit's (log 12). -/
def resetUnit (s : State) : State :=
  { State.reset with
    mem := s.mem, script := s.script, observed := s.observed, initDraws := s.initDraws, platform := s.platform }

end Sys2Proof.Machine
end

