-- ==== Sys2Proof/Machine/Operands.lean ====
section
/-! DEFINITION. What a command takes from registers and the descriptor table: the counts and their checks (R118, R119),
buffers and the host duties on them (R46, R48, R57). Operands in the command word are fields of `Instr` (R64). -/

namespace Sys2Proof.Machine

/-- The byte at offset `i` of a descriptor's buffer (R43). -/
def bufferByte (m : Memory) (d : Descriptor) (i : Nat) : Byte := Memory.read m (d.addr.toNat + i)

/-- `addr + len > 2^32` on mathematical integers (R48, R93). -/
def passesTop (addr len : Word) : Bool := decide (addr.toNat + len.toNat > Config.addrSpace)

/-- `CountsValid` (R118): the failure of the first test that fails, none when the counts are legal. -/
def countsFailure (k m : Nat) : Option Failure :=
  if k < 1 ∨ k > Config.maxBlocks then some .configOrigCount
  else if m > Config.maxBlocks - k then some .configSum
  else none

/-- `ParamsValid` (R119). -/
def paramsFailure (blockBytes k m : Nat) : Option Failure :=
  if blockBytes = 0 then some .configBlockBytes else countsFailure k m

/-- Two ranges without a common byte; an empty range has none (R48, R57). -/
def Range.disjoint (x y : Range) : Bool :=
  decide (x.len = 0) || decide (y.len = 0) || decide (x.base + x.len ≤ y.base) || decide (y.base + y.len ≤ x.base)

/-- A buffer a command accesses, and whether the command writes it. -/
structure Buffer where
  range : Range
  written : Bool
  deriving DecidableEq, Repr

/-- Two buffers a command may name together: disjoint when either is written (R57). -/
def Buffer.compatible (x y : Buffer) : Bool := (!x.written && !y.written) || x.range.disjoint y.range

/-- No written buffer shares a byte with another buffer of the command (R57). -/
def noOverlap : List Buffer → Bool
  | [] => true
  | b :: bs => bs.all (Buffer.compatible b) && noOverlap bs

/-- Every byte of the range is ordinary memory (R46). -/
def Platform.ordinary (p : Platform) (r : Range) : Bool := p.notMemory.all (Range.disjoint r)

/-- The broken host duty, if any, of a command that names these buffers: the model gives such a command no meaning (R46,
R57; logs 5, 6, 8). R46 is looked at before R57 (DESIGN CHOICE, log 6). -/
def dutyBroken (p : Platform) (bufs : List Buffer) : Option Refusal :=
  if bufs.all (fun b => p.ordinary b.range) then
    if noOverlap bufs then none else some .overlappingBuffers
  else some .bufferNotOrdinaryMemory

/-- The last stage of a command that names buffers: refused when a host duty is broken, else the next state. -/
def accessing (s : State) (bufs : List Buffer) (t : State) : Host.Outcome State Fault Refusal :=
  match dutyBroken s.platform bufs with
  | some r => .refused r
  | none => .next t

/-- The failures of a command in the order they are checked: `checks` first, then what follows (R168). -/
def afterChecks (s : State) (checks : Option Failure) (body : Host.Outcome State Fault Refusal) :
    Host.Outcome State Fault Refusal :=
  match checks with
  | some f => .next (fail f s)
  | none => body

/-- The buffer of a descriptor in a command over blocks of `n` bytes. -/
def Descriptor.buffer (d : Descriptor) (n : Nat) (written : Bool) : Buffer := ⟨⟨d.addr.toNat, n⟩, written⟩

/-- `Fail(SHAPE, LENGTH, p)` at the lowest position whose length differs from BLOCK_BYTES (R128). -/
def lengthFailure (blockBytes : Nat) (ds : List Descriptor) : Option Failure :=
  ds.zipIdx.findSome? fun (d, p) => if d.len.toNat ≠ blockBytes then some (.shapeLength p) else none

/-- The checks of ENCODE in order (R128, R168). -/
def encodeFailure (blockBytes k m : Nat) (ds : List Descriptor) : Option Failure :=
  match paramsFailure blockBytes k m with
  | some f => some f
  | none => if ds.length ≠ k + m then some .shapeCount else lengthFailure blockBytes ds

/-- The first failing test of DECODE at position `p`: LENGTH, TAGRANGE, MISPLACED, DUPLICATE (R141). -/
def slotFailure (blockBytes k m : Nat) (ds : List Descriptor) (d : Descriptor) (p : Nat) : Option Failure :=
  if d.len.toNat ≠ blockBytes then some (.shapeLength p)
  else if d.idx.toNat ≥ k + m then some (.shapeTagRange p)
  else if d.idx.toNat < k ∧ d.idx.toNat ≠ p then some (.shapeMisplaced p)
  else if (ds.take p).any (fun e => decide (e.idx = d.idx)) then some (.shapeDuplicate p)
  else none

/-- The checks of DECODE in order: the lowest failing position with its first failing test (R141, R168). -/
def decodeFailure (blockBytes k m : Nat) (ds : List Descriptor) : Option Failure :=
  match paramsFailure blockBytes k m with
  | some f => some f
  | none =>
    if ds.length ≠ k then some .shapeCount
    else ds.zipIdx.findSome? fun (d, p) => slotFailure blockBytes k m ds d p

end Sys2Proof.Machine
end

