-- ==== Sys2Proof/Machine/DecoderCommands.lean ====
section
/-! DEFINITION. The decoder family: DECODE (R140 to R155). -/

namespace Sys2Proof.Machine

/-- The erased positions with their descriptors, ascending: `E` of R145 (tag at least k). -/
def erasedSlots (k : Nat) (ds : List Descriptor) : List (Descriptor × Nat) :=
  ds.zipIdx.filter fun (d, _) => decide (k ≤ d.idx.toNat)

/-- The already-correct positions with their descriptors (R142). -/
def correctSlots (k : Nat) (ds : List Descriptor) : List (Descriptor × Nat) :=
  ds.zipIdx.filter fun (d, _) => decide (d.idx.toNat < k)

/-- `ρ_j`: the generator row of the recovery block in an erased slot (R145). -/
def supplyRow (k : Nat) (d : Descriptor) : Nat := d.idx.toNat - k

/-- The submatrix `M[j][i] = G(k, m, ρ_j, e_i)` (R146). -/
def submatrix (k : Nat) (ds : List Descriptor) : GfMatrix :=
  (erasedSlots k ds).map fun (d, _) => (erasedSlots k ds).map fun (_, e) => genEntry k (supplyRow k d) e

/-- `RHS_j[b]` for the erased slot of descriptor `d` (R148). -/
def rightHandSide (m : Memory) (k : Nat) (ds : List Descriptor) (d : Descriptor) (b : Nat) : Byte :=
  bufferByte m d b ^^^
    xorSum ((correctSlots k ds).map fun (e, c) => gfMul (genEntry k (supplyRow k d) c) (bufferByte m e b))

/-- `X_n[b] = ⊕_j W[n][j] ⊗ RHS_j[b]` for the row `w` of W (R149). -/
def solvedByte (m : Memory) (k : Nat) (ds : List Descriptor) (w : List Byte) (b : Nat) : Byte :=
  xorSum (List.zipWith gfMul w ((erasedSlots k ds).map fun (d, _) => rightHandSide m k ds d b))

/-- The blocks DECODE stores: `X_n` into the buffer of erased slot `e_n` (R149, R151). -/
def decodeStores (m : Memory) (k : Nat) (ds : List Descriptor) (W : GfMatrix) : List (Nat × (Nat → Byte)) :=
  List.zipWith (fun (d, _) w => (d.addr.toNat, solvedByte m k ds w)) (erasedSlots k ds) W

/-- The table after DECODE: every erased slot tagged with its position (R151). -/
def retagged (k : Nat) (ds : List Descriptor) : List Descriptor :=
  ds.zipIdx.map fun (d, p) => if k ≤ d.idx.toNat then { d with idx := BitVec.ofNat 8 p } else d

/-- The buffers DECODE names: erased slots written, the others read. All of them stand under R46, also when nothing is
erased (R153; log 8). -/
def decodeBuffers (blockBytes k : Nat) (ds : List Descriptor) : List Buffer :=
  ds.map fun d => d.buffer blockBytes (decide (k ≤ d.idx.toNat))

/-- Memory after DECODE, from the memory at its start and the inverse `W` (R149, R51). -/
def decodeMemory (s : State) (W : GfMatrix) : Memory :=
  Memory.storeBlocks s.mem s.blockBytes.toNat (decodeStores s.mem s.origCount.toNat s.descs W)

/-- DECODE (R141). The inverse comes before any memory access; a singular submatrix is fatal (R147). -/
def execDecode (s : State) : Host.Outcome State Fault Refusal :=
  whenReady s
    (afterChecks s (decodeFailure s.blockBytes.toNat s.origCount.toNat s.recovCount.toNat s.descs)
      (match invertMatrix (submatrix s.origCount.toNat s.descs) with
       | none => .next (raiseFatal .internal s)
       | some W =>
         accessing s (decodeBuffers s.blockBytes.toNat s.origCount.toNat s.descs)
           (succeed (((s.withGenerator s.origCount s.recovCount).withMem (decodeMemory s W)).withDescs
             (retagged s.origCount.toNat s.descs)))))

end Sys2Proof.Machine
end

