-- ==== Sys2Proof/Machine/EncoderCommands.lean ====
section
/-! DEFINITION. The descriptor and encoder family: DESCCLR, DESCPUSH, ENCODE (R126 to R132). -/

namespace Sys2Proof.Machine

/-- DESCCLR (R126). -/
def execDescclr (s : State) : Host.Outcome State Fault Refusal :=
  whenReady s (.next (succeed (s.withDescs [])))

/-- DESCPUSH (R127). -/
def execDescpush (tag : Byte) (s : State) : Host.Outcome State Fault Refusal :=
  whenReady s
    (afterChecks s
      (if descCount s = Config.descEntries then some .shapeFull
       else if passesTop s.a0 s.a1 then some .shapeAddrRange
       else none)
      (.next (succeed (s.withDescs (s.descs ++ [⟨s.a0, s.a1, tag⟩])))))

/-- Byte `i` of recovery block `r`: `⊕_{c < k} G(k, m, r, c) ⊗ Mem0[D[c].addr + i]` (R128). -/
def recoveryByte (m : Memory) (k : Nat) (originals : List Descriptor) (r i : Nat) : Byte :=
  xorSum (originals.zipIdx.map fun (d, c) => gfMul (genEntry k r c) (bufferByte m d i))

/-- The blocks ENCODE stores: recovery block `r` into the buffer of `D[k + r]` (R128). -/
def encodeStores (m : Memory) (k : Nat) (ds : List Descriptor) : List (Nat × (Nat → Byte)) :=
  (ds.drop k).zipIdx.map fun (d, r) => (d.addr.toNat, recoveryByte m k (ds.take k) r)

/-- The buffers ENCODE names: the originals read, the recovery buffers written. All of them stand under R46, also when
there is no recovery block (R132; log 8). -/
def encodeBuffers (blockBytes k : Nat) (ds : List Descriptor) : List Buffer :=
  (ds.take k).map (Descriptor.buffer · blockBytes false) ++ (ds.drop k).map (Descriptor.buffer · blockBytes true)

/-- Memory after ENCODE, from the memory at its start (R128, R51). -/
def encodeMemory (s : State) : Memory :=
  Memory.storeBlocks s.mem s.blockBytes.toNat (encodeStores s.mem s.origCount.toNat s.descs)

/-- ENCODE (R128). -/
def execEncode (s : State) : Host.Outcome State Fault Refusal :=
  whenReady s
    (afterChecks s (encodeFailure s.blockBytes.toNat s.origCount.toNat s.recovCount.toNat s.descs)
      (accessing s (encodeBuffers s.blockBytes.toNat s.origCount.toNat s.descs)
        (succeed ((s.withGenerator s.origCount s.recovCount).withMem (encodeMemory s)))))

end Sys2Proof.Machine
end

