-- ==== Sys2Proof/Machine/FieldCommands.lean ====
section
/-! DEFINITION. The field arithmetic family: INIT, GFMUL, GFDIV, GFINV, MULACC (R87 to R91). -/

namespace Sys2Proof.Machine

/-- The end of an INIT that found INIT_DONE = 0, its draw being `ok` (R87). -/
def initOutcome (ok : Bool) (s : State) : State :=
  if ok then succeed { s with initDone := true } else raiseFatal .initFail s

/-- INIT (R87). Ignored while FATAL = 1; a no-op that succeeds when the tables are built; else the self-test draw, one
free Boolean (log 3). -/
def execInit (s : State) : Host.Outcome State Fault Refusal :=
  if s.fatal then .next s
  else if s.initDone then .next (succeed s)
  else .next (initOutcome (Config.initSelftestOk s.initDraws) { s with initDraws := s.initDraws + 1 })

/-- GFMUL (R88). -/
def execGfmul (a b : Byte) (s : State) : Host.Outcome State Fault Refusal :=
  whenReady s (.next (succeed (s.withRes (gfMul a b))))

/-- GFDIV (R89). -/
def execGfdiv (a b : Byte) (s : State) : Host.Outcome State Fault Refusal :=
  whenReady s (if b = 0#8 then .next (fail .zero s) else .next (succeed (s.withRes (gfDiv a b))))

/-- GFINV (R90). -/
def execGfinv (a : Byte) (s : State) : Host.Outcome State Fault Refusal :=
  whenReady s (if a = 0#8 then .next (fail .zero s) else .next (succeed (s.withRes (gfInv a))))

/-- The two buffers of MULACC: destination A0 (written) and source A1, both of A2 bytes (R91). -/
def mulaccBuffers (s : State) : List Buffer :=
  [⟨⟨s.a0.toNat, s.a2.toNat⟩, true⟩, ⟨⟨s.a1.toNat, s.a2.toNat⟩, false⟩]

/-- The byte MULACC writes at offset `i` of the destination, from the memory at the start of the command (R91). -/
def mulaccByte (c : Byte) (s : State) (i : Nat) : Byte :=
  Memory.read s.mem (s.a0.toNat + i) ^^^ gfMul (Memory.read s.mem (s.a1.toNat + i)) c

/-- MULACC (R91). -/
def execMulacc (c : Byte) (s : State) : Host.Outcome State Fault Refusal :=
  whenReady s
    (afterChecks s (if passesTop s.a0 s.a2 || passesTop s.a1 s.a2 then some .shapeAddrRange else none)
      (accessing s (mulaccBuffers s)
        (succeed (s.withMem (Memory.storeBlock s.mem s.a0.toNat (mulaccByte c s) s.a2.toNat)))))

end Sys2Proof.Machine
end

