-- ==== Sys2Proof/Machine/MatrixCommands.lean ====
section
/-! DEFINITION. The matrix constructor family: BUILDGEN and GENRD (R115, R116). -/

namespace Sys2Proof.Machine

/-- BUILDGEN (R115). -/
def execBuildgen (s : State) : Host.Outcome State Fault Refusal :=
  whenReady s
    (afterChecks s (countsFailure s.origCount.toNat s.recovCount.toNat)
      (.next (succeed (s.withGenerator s.origCount s.recovCount))))

/-- GENRD (R116): the entry of the cached matrix, from the cache dimensions. -/
def execGenrd (row col : Nat) (s : State) : Host.Outcome State Fault Refusal :=
  whenReady s
    (if s.genValid = false ∨ row ≥ s.genM.toNat ∨ col ≥ s.genK.toNat then .next (fail .shapeGenRange s)
     else .next (succeed (s.withRes (genEntry s.genK.toNat row col))))

end Sys2Proof.Machine
end

