-- ==== Sys2Proof/Machine/Dispatch.lean ====
section
/-! DEFINITION. The meaning of each command, one arm per constructor. Each meaning includes the common steps of R69 that
follow decoding (FATAL, NOTINIT). -/

namespace Sys2Proof.Machine

def exec (i : Instr) (s : State) : Host.Outcome State Fault Refusal :=
  match i with
  -- Field arithmetic (41_field_arithmetic.md)
  | .init => Sys2Proof.Machine.execInit s
  | .gfmul a b => Sys2Proof.Machine.execGfmul a b s
  | .gfdiv a b => Sys2Proof.Machine.execGfdiv a b s
  | .gfinv a => Sys2Proof.Machine.execGfinv a s
  | .mulacc c => Sys2Proof.Machine.execMulacc c s
  -- Matrix constructor (42_matrix_constructor.md)
  | .buildgen => Sys2Proof.Machine.execBuildgen s
  | .genrd row col => Sys2Proof.Machine.execGenrd row col s
  -- Descriptors and encoder (43_encoder.md)
  | .descclr => Sys2Proof.Machine.execDescclr s
  | .descpush tag => Sys2Proof.Machine.execDescpush tag s
  | .encode => Sys2Proof.Machine.execEncode s
  -- Decoder (44_decoder.md)
  | .decode => Sys2Proof.Machine.execDecode s

end Sys2Proof.Machine
end

