-- ==== Sys2Proof/Machine/HostOps.lean ====
section
/-! DEFINITION. What the host does by itself: register reads and byte accesses to the memory it owns (R16, R41, R50). -/

namespace Sys2Proof.Machine

/-- A host read of a register returns its value and has no side effect on any register (R16). -/
def hostRead (r : Reg) (s : State) : State := s.observe (readReg r s)

/-- The host stores a byte of memory between commands (R41, R50; log 11). -/
def hostStore (addr : Word) (v : Byte) (s : State) : Host.Outcome State Fault Refusal :=
  if s.platform.ordinary ⟨addr.toNat, 1⟩ then .next (s.withMem (Memory.write s.mem addr.toNat v))
  else .refused .hostAccessNotMemory

/-- The host loads a byte of memory between commands and sees every write of the commands before it (R50; log 11). -/
def hostLoad (addr : Word) (s : State) : Host.Outcome State Fault Refusal :=
  if s.platform.ordinary ⟨addr.toNat, 1⟩ then .next (s.observe ((Memory.read s.mem addr.toNat).setWidth 32))
  else .refused .hostAccessNotMemory

end Sys2Proof.Machine
end

