-- ==== Sys2Proof/Machine/Step.lean ====
section
/-! DEFINITION. One step of the machine: the host's next action. The unit has no program counter and fetches nothing
(R13, R55): a command arrives as the value of a host write to CMD, and with no action pending the unit is idle (R183,
R186). -/

namespace Sys2Proof.Machine

/-- A write of `w` to CMD (R17, R69): decode, then the command's meaning, or the record of an illegal word. -/
def issue (w : Word) (s : State) : Host.Outcome State Fault Refusal :=
  match decode w with
  | .command i => exec i s
  | .illegalOpcode => .next (rejectWord .illegalOpcode s)
  | .illegalReserved => .next (rejectWord .illegalReserved s)

/-- A host write of a whole register (R16, R17). -/
def hostWrite (r : Reg) (v : Word) (s : State) : Host.Outcome State Fault Refusal :=
  if r = .cmd then issue v s else .next (writeReg r v s)

/-- One host action, in a state whose script no longer holds it. -/
def hostAct (a : HostAction) (s : State) : Host.Outcome State Fault Refusal :=
  match a with
  | .wr r v => hostWrite r v s
  | .rd r => .next (hostRead r s)
  | .busWrite addr bytes v =>
    match windowReg s.platform.regBase addr bytes with
    | some r => hostWrite r v s
    | none => .refused .partialRegisterAccess
  | .busRead addr bytes =>
    match windowReg s.platform.regBase addr bytes with
    | some r => .next (hostRead r s)
    | none => .refused .partialRegisterAccess
  | .store addr v => hostStore addr v s
  | .load addr => hostLoad addr s
  | .reset => .next (resetUnit s)

/-- One step: the oldest pending host action is taken and done; with none pending nothing changes. -/
def step (s : State) : Host.Outcome State Fault Refusal :=
  match s.script with
  | [] => .next s
  | a :: rest => hostAct a (s.withScript rest)

/-- `s` with the host about to write the command word `w` to CMD: the step's next "fetch" (log 10). -/
def State.withFetchWord (s : State) (nbits w : Nat) : State :=
  s.withScript (.wr .cmd (tableWord nbits w) :: s.script)

end Sys2Proof.Machine
end

