-- ==== Sys2Proof/Machine/Script.lean ====
section
/-! DEFINITION. Host scripts: the actions, pseudo-instructions and entry-point scripts of R72 to R74, as lists of host
actions. -/

namespace Sys2Proof.Machine

/-- A command line of a script: `wr CMD, <command word>` (R72). -/
def issueAction (i : Instr) : HostAction := .wr .cmd (encode i)

/-- The encoding of a script's write: the register number and the value (R72). -/
def writePair (a : HostAction) : Option (Nat × Word) :=
  match a with
  | .wr r v => some (r.number, v)
  | .rd _ => none
  | .busWrite _ _ _ => none
  | .busRead _ _ => none
  | .store _ _ => none
  | .load _ => none
  | .reset => none

/-- `params B, k, m` (R73). -/
def scriptParams (blockBytes k m : Word) : List HostAction :=
  [.wr .blockBytes blockBytes, .wr .origCount k, .wr .recovCount m]

/-- `desc addr, len, t` (R73). -/
def scriptDesc (d : Descriptor) : List HostAction :=
  [.wr .a0 d.addr, .wr .a1 d.len, issueAction (.descpush d.idx)]

/-- `mac dst, src, len, c` (R73). -/
def scriptMac (dst src len : Word) (c : Byte) : List HostAction :=
  [.wr .a0 dst, .wr .a1 src, .wr .a2 len, issueAction (.mulacc c)]

/-- `check` (R73). -/
def scriptCheck : List HostAction := [.rd .status, .rd .errInfo]

/-- `Initialize()` (R74). -/
def scriptInitialize : List HostAction := [issueAction .init, .rd .status]

/-- `Multiply(a, b)` (R74). -/
def scriptMultiply (a b : Byte) : List HostAction := [issueAction (.gfmul a b), .rd .res]

/-- `Invert(a)` (R74). -/
def scriptInvert (a : Byte) : List HostAction := [issueAction (.gfinv a), .rd .status, .rd .res]

/-- `MultiplyAccumulate(dst, src, coefficient, length)` (R74). -/
def scriptMultiplyAccumulate (dst src : Word) (c : Byte) (len : Word) : List HostAction := scriptMac dst src len c

/-- `BuildGenerator(k, m)` and the reading of its entries (R74). R74 gives `genrd r, c ; rd RES` "per entry" and no order
of the entries: they are read row by row, columns ascending (DESIGN CHOICE, log 21). -/
def scriptBuildGenerator (k m : Word) : List HostAction :=
  [.wr .origCount k, .wr .recovCount m, issueAction .buildgen] ++
    (List.range m.toNat).flatMap fun r =>
      (List.range k.toNat).flatMap fun c => [issueAction (.genrd r c), .rd .res]

/-- `Encode(params, original[0..k), recovery[0..m))` (R74). -/
def scriptEncode (blockBytes k m : Word) (originals recovery : List Descriptor) : List HostAction :=
  scriptParams blockBytes k m ++ [issueAction .descclr] ++ originals.flatMap scriptDesc ++
    recovery.flatMap scriptDesc ++ [issueAction .encode, .rd .status]

/-- `Decode(params, blocks[0..k))` (R74): a slot is an address and a tag, and its length is BLOCK_BYTES. -/
def scriptDecode (blockBytes k m : Word) (slots : List (Word × Byte)) : List HostAction :=
  scriptParams blockBytes k m ++ [issueAction .descclr] ++
    (slots.flatMap fun (addr, tag) => scriptDesc ⟨addr, blockBytes, tag⟩) ++
    [issueAction .decode, .rd .status]

end Sys2Proof.Machine
end

