-- ==== Sys2Proof/Safety.lean ====
section
/-! DEFINITION. The terms statements use: the invariants of R33, a good final state (R197), when a command runs its own
rule (R69), and the conditions and host duties of the memory commands, written from the rules and not from the model's own
checks. -/

namespace Sys2Proof.Machine

/-- The unit runs a command's own rule: not stopped by a fatal error, tables built (R69). -/
def State.ready (s : State) : Prop := s.fatal = false ∧ s.initDone = true

/-- The invariants of R33, but for its last clause, which is about steps. -/
structure State.Inv (s : State) : Prop where
  descCount_le : s.descs.length ≤ 256
  desc_range : ∀ d ∈ s.descs, d.addr.toNat + d.len.toNat ≤ 2 ^ 32
  err_le : s.err.toNat ≤ 7
  fatal_err : s.fatal = true → s.err = 0x03#8 ∨ s.err = 0x04#8
  err_initFail : s.err = 0x04#8 → s.fatal = true ∧ s.initDone = false
  err_internal : s.err = 0x03#8 → s.fatal = true ∧ s.initDone = true
  genValid_dims : s.genValid = true →
    s.initDone = true ∧ 1 ≤ s.genK.toNat ∧ s.genK.toNat ≤ 256 ∧ s.genM.toNat ≤ 256 - s.genK.toNat
  descs_init : s.descs ≠ [] → s.initDone = true
  res_init : s.res ≠ 0#8 → s.initDone = true

/-- A final state that is good: the script has ended and FATAL = 0 (R197). -/
def State.goodFinal (s : State) : Prop := s.script = [] ∧ s.fatal = false

/-- The address `x` lies in the range (R48). -/
def Range.has (r : Range) (x : Nat) : Prop := r.base ≤ x ∧ x < r.base + r.len

/-- Two ranges share no byte (R57). -/
def Range.apart (x y : Range) : Prop := ∀ a, ¬ (x.has a ∧ y.has a)

/-- Every byte of the range is ordinary memory (R46). -/
def Platform.allows (p : Platform) (r : Range) : Prop := ∀ q ∈ p.notMemory, r.apart q

/-- The addresses of a descriptor's buffer (R48, R125). -/
def Descriptor.range (d : Descriptor) : Range := ⟨d.addr.toNat, d.len.toNat⟩

/-- MULACC's destination and source ranges (R91). -/
def State.mulaccDst (s : State) : Range := ⟨s.a0.toNat, s.a2.toNat⟩
def State.mulaccSrc (s : State) : Range := ⟨s.a1.toNat, s.a2.toNat⟩

/-- The counts are legal (R118). -/
structure State.CountsLegal (s : State) : Prop where
  orig_min : 1 ≤ s.origCount.toNat
  orig_max : s.origCount.toNat ≤ 256
  sum : s.recovCount.toNat ≤ 256 - s.origCount.toNat

/-- ENCODE passes its checks (R119, R128). -/
structure State.EncodeLegal (s : State) : Prop where
  block : s.blockBytes ≠ 0#32
  counts : s.CountsLegal
  count : s.descs.length = s.origCount.toNat + s.recovCount.toNat
  lengths : ∀ d ∈ s.descs, d.len = s.blockBytes

/-- The host keeps its duties for an ENCODE: every buffer is ordinary memory, every recovery buffer apart from the others
(R132). -/
structure State.EncodeDuties (s : State) : Prop where
  ordinary : ∀ d ∈ s.descs, s.platform.allows d.range
  disjoint : ∀ (p q : Nat) (d e : Descriptor), s.descs[p]? = some d → s.descs[q]? = some e → s.origCount.toNat ≤ p → p ≠ q →
    d.range.apart e.range

/-- A slot that DECODE accepts at position `p` (R141, R142), apart from DUPLICATE. -/
structure State.SlotLegal (s : State) (p : Nat) (d : Descriptor) : Prop where
  length : d.len = s.blockBytes
  tagRange : d.idx.toNat < s.origCount.toNat + s.recovCount.toNat
  placed : d.idx.toNat < s.origCount.toNat → d.idx.toNat = p

/-- DECODE passes its checks (R119, R141). -/
structure State.DecodeLegal (s : State) : Prop where
  block : s.blockBytes ≠ 0#32
  counts : s.CountsLegal
  count : s.descs.length = s.origCount.toNat
  slots : ∀ (p : Nat) (d : Descriptor), s.descs[p]? = some d → s.SlotLegal p d
  distinct : ∀ (p q : Nat) (d e : Descriptor), s.descs[p]? = some d → s.descs[q]? = some e → d.idx = e.idx → p = q

/-- The slot is erased: its tag is a recovery tag (R140). -/
def State.erased (s : State) (d : Descriptor) : Prop := s.origCount.toNat ≤ d.idx.toNat

/-- The host keeps its duties for a DECODE: every buffer is ordinary memory, the buffer of every erased slot apart from the
others (R153). -/
structure State.DecodeDuties (s : State) : Prop where
  ordinary : ∀ d ∈ s.descs, s.platform.allows d.range
  disjoint : ∀ (p q : Nat) (d e : Descriptor), s.descs[p]? = some d → s.descs[q]? = some e → s.erased d → p ≠ q →
    d.range.apart e.range

/-- The address of descriptor `p` of the table; 0 where there is none. -/
def State.slotAddr (s : State) (p : Nat) : Nat :=
  match s.descs[p]? with
  | some d => d.addr.toNat
  | none => 0

/-- The tag of descriptor `p` of the table; 0 where there is none. -/
def State.slotTag (s : State) (p : Nat) : Nat :=
  match s.descs[p]? with
  | some d => d.idx.toNat
  | none => 0

/-- The byte at offset `i` of the buffer of descriptor `p` (R43). -/
def State.slotByte (s : State) (p i : Nat) : Byte := Memory.read s.mem (s.slotAddr p + i)

/-- The ranges a command writes when it succeeds (R58). -/
def writtenRanges (i : Instr) (s : State) : List Range :=
  match i with
  | .init => []
  | .gfmul _ _ => []
  | .gfdiv _ _ => []
  | .gfinv _ => []
  | .mulacc _ => [s.mulaccDst]
  | .buildgen => []
  | .genrd _ _ => []
  | .descclr => []
  | .descpush _ => []
  | .encode => (s.descs.drop s.origCount.toNat).map Descriptor.range
  | .decode => (s.descs.filter fun d => decide (s.origCount.toNat ≤ d.idx.toNat)).map Descriptor.range

end Sys2Proof.Machine
end

