-- ==== Sys2Proof/Certificates/Slice0/Obligations.lean ====
section
/-! DEFINITION. The statements for the provers. Each docstring names the rules it formalises; where a clause rests on a choice
of the model it names the log entry. -/

open Sys2Proof Sys2Proof.Machine

/-! ### Encoding and dispatch -/

/-- R60 to R65, all commands: the decoder reads back exactly the command the encoder wrote, with every operand at every value
its field admits. -/
def Obligations.DecodeOfEncodeIsIdentity : Prop :=
  ∀ i : Instr, i.wellFormed = true → decode (encode i) = .command i

/-- R65, R67, the other direction: a word that decodes to a command is that command's one encoding, and the command is
well-formed. -/
def Obligations.EncodeOfDecodeIsIdentity : Prop :=
  ∀ (w : Word) (i : Instr), decode w = .command i → encode i = w ∧ i.wellFormed = true

/-- R66: the words that match no row of R65 are illegal, in two ways told apart by the opcode; such a word is reported before
the INIT_DONE check and changes nothing but ERR and ERRINFO; it is not fatal. -/
def Obligations.IllegalWordsAreReported : Prop :=
  (∀ w, (∃ i, decode w = .command i) ↔ ∃ row ∈ opcodeRows, w &&& row.mask = row.pattern) ∧
  (∀ w, decode w = .illegalOpcode ↔
    (w.toNat / 2 ^ 24) ∉ [0x01, 0x10, 0x11, 0x12, 0x18, 0x20, 0x21, 0x30, 0x31, 0x40, 0x41]) ∧
  (∀ w, decode w = .illegalReserved ↔
    (w.toNat / 2 ^ 24) ∈ [0x01, 0x10, 0x11, 0x12, 0x18, 0x20, 0x21, 0x30, 0x31, 0x40, 0x41] ∧
      ∀ row ∈ opcodeRows, w &&& row.mask ≠ row.pattern) ∧
  decode 0x00000000#32 = .illegalOpcode ∧ decode 0xFFFFFFFF#32 = .illegalOpcode ∧
  (∀ w s, s.fatal = false → decode w = .illegalOpcode →
    issue w s = .next { s with err := 0x07#8, errSub := 1#8, errPos := 0#8 }) ∧
  (∀ w s, s.fatal = false → decode w = .illegalReserved →
    issue w s = .next { s with err := 0x07#8, errSub := 2#8, errPos := 0#8 })

/-- R65, sanity: words written out from the spec's encodings decode to the commands they stand for. -/
def Obligations.SampleWordsDecode : Prop :=
  decode 0x01000000#32 = .command .init ∧ decode 0x100053CA#32 = .command (.gfmul 0x53#8 0xCA#8) ∧
  decode 0x11009453#32 = .command (.gfdiv 0x94#8 0x53#8) ∧ decode 0x12000053#32 = .command (.gfinv 0x53#8) ∧
  decode 0x180000A6#32 = .command (.mulacc 0xA6#8) ∧ decode 0x21000103#32 = .command (.genrd 1 3) ∧
  decode 0x31000007#32 = .command (.descpush 0x07#8) ∧ decode 0x41000000#32 = .command .decode

/-- R69: the order of the steps on a write of `w` to CMD. -/
def Obligations.CommandWriteFollowsDispatchOrder : Prop :=
  ∀ (s : State) (w : Word) (rest : List HostAction), s.script = .wr .cmd w :: rest →
    (s.fatal = true → step s = .next { s with script := rest }) ∧
    (s.fatal = false → decode w = .illegalOpcode →
      step s = .next { s with script := rest, err := 0x07#8, errSub := 1#8, errPos := 0#8 }) ∧
    (s.fatal = false → decode w = .illegalReserved →
      step s = .next { s with script := rest, err := 0x07#8, errSub := 2#8, errPos := 0#8 }) ∧
    (∀ i, s.fatal = false → decode w = .command i → i ≠ .init → s.initDone = false →
      step s = .next { s with script := rest, err := 0x06#8, errSub := 0#8, errPos := 0#8 }) ∧
    (∀ i, s.fatal = false → decode w = .command i → i = .init ∨ s.initDone = true →
      step s = exec i { s with script := rest })

/-- R17, R71 and the host interface (log 1): when the host's next action writes to CMD a word that decodes to a command, the
step is that command's meaning in the state without the action; the same through a bus write to REG_BASE. -/
def Obligations.StepRunsDecodedCommand : Prop :=
  ∀ (s : State) (w : Word) (i : Instr) (rest : List HostAction), decode w = .command i →
    (s.script = .wr .cmd w :: rest → step s = exec i { s with script := rest }) ∧
    (s.script = .busWrite s.platform.regBase 4 w :: rest → step s = exec i { s with script := rest })

/-- R183, R186: with no host action pending the unit holds its state. -/
def Obligations.IdleUnitHoldsState : Prop := ∀ s : State, s.script = [] → step s = .next s

/-! ### Registers and the host's own accesses -/

/-- R29: registers 12 to 15 read as 0 and ignore writes. -/
def Obligations.ReservedRegistersReadZeroAndIgnoreWrites : Prop :=
  ∀ r ∈ [Reg.reserved12, Reg.reserved13, Reg.reserved14, Reg.reserved15],
    ∀ (s : State) (v : Word) (rest : List HostAction),
      (s.script = .rd r :: rest → step s = .next { s with script := rest, observed := s.observed ++ [0#32] }) ∧
      (s.script = .wr r v :: rest → step s = .next { s with script := rest })

/-- R16 to R25: every bit of every read-only register as the host reads it; undefined bits read 0; CMD reads 0. -/
def Obligations.ReadOnlyRegistersShowTheirFields : Prop :=
  ∀ s : State,
    readReg .cmd s = 0#32 ∧
    ((readReg .status s).getLsbD 0 = s.initDone ∧ (readReg .status s).getLsbD 1 = s.fatal ∧
      (readReg .status s).getLsbD 2 = s.genValid ∧ (readReg .status s).extractLsb' 3 5 = 0#5 ∧
      (readReg .status s).extractLsb' 8 8 = s.err ∧ (readReg .status s).extractLsb' 16 16 = 0#16) ∧
    ((readReg .res s).extractLsb' 0 8 = s.res ∧ (readReg .res s).extractLsb' 8 24 = 0#24) ∧
    ((readReg .errInfo s).extractLsb' 0 8 = s.errSub ∧ (readReg .errInfo s).extractLsb' 8 8 = s.errPos ∧
      (readReg .errInfo s).extractLsb' 16 16 = 0#16) ∧
    ((readReg .genDims s).extractLsb' 0 9 = s.genK ∧ (readReg .genDims s).extractLsb' 9 7 = 0#7 ∧
      (readReg .genDims s).extractLsb' 16 9 = s.genM ∧ (readReg .genDims s).extractLsb' 25 7 = 0#7) ∧
    (s.descs.length ≤ 256 → (readReg .descCount s).toNat = s.descs.length)

/-- R11, R16, R21 to R23: a host write to a register other than CMD is accepted in every state of the unit; a read-write
register then reads back all 32 bits; a read-only one is unchanged; nothing else changes. -/
def Obligations.HostWritesStoreOrAreIgnored : Prop :=
  ∀ (s : State) (r : Reg) (v : Word) (rest : List HostAction), s.script = .wr r v :: rest → r ≠ .cmd →
    ∃ t, step s = .next t ∧
      (r ∈ [Reg.a0, Reg.a1, Reg.a2, Reg.blockBytes, Reg.origCount, Reg.recovCount] → readReg r t = v) ∧
      (r ∉ [Reg.a0, Reg.a1, Reg.a2, Reg.blockBytes, Reg.origCount, Reg.recovCount] → t = { s with script := rest }) ∧
      (∀ q, q ≠ r → readReg q t = readReg q s) ∧
      t = { s with
        script := rest, a0 := t.a0, a1 := t.a1, a2 := t.a2, blockBytes := t.blockBytes, origCount := t.origCount,
        recovCount := t.recovCount }

/-- R16: a host read returns the register's value and has no side effect (the value read goes to the host side, log 1). -/
def Obligations.HostReadsHaveNoSideEffect : Prop :=
  ∀ (s : State) (r : Reg) (rest : List HostAction), s.script = .rd r :: rest →
    step s = .next { s with script := rest, observed := s.observed ++ [readReg r s] }

/-- R15, R16: an aligned 32-bit access at REG_BASE + 4·n is an access of register n; every other access is refused:
inside the window by U5; outside it, and in what counts as aligned, by the model's choice (log 9). -/
def Obligations.BusAccessesNameARegisterOrAreRefused : Prop :=
  ∀ (s : State) (addr bytes : Nat) (v : Word) (rest : List HostAction),
    (∀ r : Reg, addr = s.platform.regBase + 4 * r.number →
      (s.script = .busWrite addr 4 v :: rest → step s = step { s with script := .wr r v :: rest }) ∧
      (s.script = .busRead addr 4 :: rest → step s = step { s with script := .rd r :: rest })) ∧
    ((∀ r : Reg, ¬ (bytes = 4 ∧ addr = s.platform.regBase + 4 * r.number)) →
      (s.script = .busWrite addr bytes v :: rest → step s = .refused .partialRegisterAccess) ∧
      (s.script = .busRead addr bytes :: rest → step s = .refused .partialRegisterAccess))

/-- R32, R185: after reset, whatever the state before, every register reads 0, the descriptor table is empty and memory is
untouched; the state `State.reset` is such a state (the host side and the platform are the model's own, log 12). -/
def Obligations.ResetClearsEverythingButMemory : Prop :=
  (∀ r, readReg r State.reset = 0#32) ∧ State.reset.descs = [] ∧
  ∀ (s : State) (rest : List HostAction), s.script = .reset :: rest →
    ∃ t, step s = .next t ∧ (∀ r, readReg r t = 0#32) ∧ t.initDone = false ∧ t.fatal = false ∧ t.genValid = false ∧
      t.err = 0#8 ∧ t.res = 0#8 ∧ t.errSub = 0#8 ∧ t.errPos = 0#8 ∧ t.genK = 0#9 ∧ t.genM = 0#9 ∧ t.descs = [] ∧
      t.mem = s.mem

/-- R41, R42, R46: the host's store of one byte to ordinary memory changes that byte and no other, and the load that follows
returns it. That a host store is seen at once by the next host load is the model's choice (log 11); which addresses are
ordinary memory is its field of log 6. -/
def Obligations.HostStoreThenLoadReturnsByte : Prop :=
  ∀ (s : State) (a : Word) (v : Byte) (rest : List HostAction), s.script = .store a v :: .load a :: rest →
    s.platform.allows ⟨a.toNat, 1⟩ →
    ∃ t, step s = .next t ∧ t = { s with script := .load a :: rest, mem := t.mem } ∧
      (∀ x, Memory.read t.mem x = if x = a.toNat then v else Memory.read s.mem x) ∧
      step t = .next { t with script := rest, observed := s.observed ++ [v.setWidth 32] }

/-! ### Outcomes of a command write -/

/-- R160, R163, R164: a write to CMD that is answered by a next state was ignored, succeeded, failed recoverably with nothing
changed but ERR and ERRINFO, or was fatal with nothing changed but FATAL, ERR and ERRINFO (and the model's own count of
draws, log 3). -/
def Obligations.CommandWritesHaveFourOutcomes : Prop :=
  ∀ (w : Word) (s t : State), issue w s = .next t →
    (s.fatal = true ∧ t = s) ∨
    (s.fatal = false ∧ t.fatal = false ∧ t.err = 0x00#8 ∧ t.errSub = 0#8 ∧ t.errPos = 0#8) ∨
    (s.fatal = false ∧ t.err ∈ [0x01#8, 0x02#8, 0x05#8, 0x06#8, 0x07#8] ∧
      t = { s with err := t.err, errSub := t.errSub, errPos := t.errPos }) ∨
    (s.fatal = false ∧ t.err ∈ [0x03#8, 0x04#8] ∧
      t = { s with fatal := true, err := t.err, errSub := 0#8, errPos := 0#8, initDraws := t.initDraws })

/-- R165: while FATAL = 1 every CMD write is ignored and STATUS keeps showing the code; register reads and writes to A0 to A2
and the parameter registers still work; only reset, in this model a host action (log 12), clears FATAL; the state is not a
good final one. -/
def Obligations.FatalStopIgnoresCommandsUntilReset : Prop :=
  ∀ s : State, s.fatal = true →
    (∀ w, issue w s = .next s) ∧ (∀ i, exec i s = .next s) ∧
    (∀ r rest, s.script = .rd r :: rest →
      step s = .next { s with script := rest, observed := s.observed ++ [readReg r s] }) ∧
    (∀ r v rest, r ∈ [Reg.a0, Reg.a1, Reg.a2, Reg.blockBytes, Reg.origCount, Reg.recovCount] →
      s.script = .wr r v :: rest → ∃ t, step s = .next t ∧ readReg r t = v) ∧
    (∀ t, step s = .next t → (∀ rest, s.script ≠ .reset :: rest) →
      t.fatal = true ∧ readReg .status t = readReg .status s) ∧
    (∀ t rest, step s = .next t → s.script = .reset :: rest → t.fatal = false) ∧
    ¬ s.goodFinal

/-- R166: every command but INIT fails with NOTINIT while INIT_DONE = 0 and has no effect. -/
def Obligations.CommandsBeforeInitFail : Prop :=
  ∀ (i : Instr) (s : State), i ≠ .init → s.fatal = false → s.initDone = false →
    exec i s = .next { s with err := 0x06#8, errSub := 0#8, errPos := 0#8 }

/-- R46, R57 (U3, U4): the only commands the model refuses are MULACC, ENCODE and DECODE whose host duties are broken; every
other command write is answered by a next state. That the failures a command lists, and DECODE's fatal error, come before a
refusal (logs 5, 20), and which buffers the duties bind when nothing is written (log 8), is the model's choice. -/
def Obligations.OnlyBrokenDutiesAreRefused : Prop :=
  ∀ (w : Word) (s : State), (∃ t, issue w s = .next t) ∨
    (s.ready ∧ (issue w s = .refused .overlappingBuffers ∨ issue w s = .refused .bufferNotOrdinaryMemory) ∧
      ((∃ c, decode w = .command (.mulacc c) ∧
          ¬ (s.mulaccDst.apart s.mulaccSrc ∧ s.platform.allows s.mulaccDst ∧ s.platform.allows s.mulaccSrc)) ∨
        (decode w = .command .encode ∧ s.EncodeLegal ∧ ¬ s.EncodeDuties) ∨
        (decode w = .command .decode ∧ s.DecodeLegal ∧ ¬ s.DecodeDuties)))

/-! ### Invariants and frames of the whole machine -/

/-- R32, R33: the invariants hold after reset, and reset memory is in canonical form (log 2). -/
def Obligations.InvariantsHoldAfterReset : Prop := State.reset.Inv ∧ State.reset.mem.wf = true

/-- R33: the invariants hold after reset, whatever memory holds and whatever the host is about to do, and every step keeps
them, from every state that has them; INIT_DONE, FATAL and GEN_VALID never go from 1 to 0 except by reset. -/
def Obligations.EveryStepKeepsInvariants : Prop :=
  (∀ (m : Memory) (as : List HostAction) (p : Platform),
    State.Inv { State.reset with mem := m, script := as, platform := p }) ∧
  ∀ s t : State, s.Inv → step s = .next t →
    t.Inv ∧
      ((∀ rest, s.script ≠ .reset :: rest) →
        (s.initDone = true → t.initDone = true) ∧ (s.fatal = true → t.fatal = true) ∧
          (s.genValid = true → t.genValid = true))

/-- R40, R48 and the model's form of memory (log 2): every step keeps memory in canonical form, all addresses below 2^32. -/
def Obligations.EveryStepKeepsMemoryCanonical : Prop :=
  ∀ s t : State, s.Inv → s.mem.wf = true → step s = .next t → t.mem.wf = true

/-- R10, R11: no command writes an argument or parameter register, the host side or the platform. -/
def Obligations.CommandsKeepHostWrittenRegisters : Prop :=
  ∀ (i : Instr) (s t : State), exec i s = .next t →
    t.a0 = s.a0 ∧ t.a1 = s.a1 ∧ t.a2 = s.a2 ∧ t.blockBytes = s.blockBytes ∧ t.origCount = s.origCount ∧
      t.recovCount = s.recovCount ∧ t.script = s.script ∧ t.observed = s.observed ∧ t.platform = s.platform

/-- R19: RES is changed by no command but a successful GFMUL, GFDIV, GFINV or GENRD. -/
def Obligations.ResultRegisterWritersAreFour : Prop :=
  ∀ (i : Instr) (s t : State), exec i s = .next t → t.res ≠ s.res →
    t.err = 0x00#8 ∧
      ((∃ a b, i = .gfmul a b) ∨ (∃ a b, i = .gfdiv a b) ∨ (∃ a, i = .gfinv a) ∨ ∃ r c, i = .genrd r c)

/-- R24, R117: GEN_DIMS and GEN_VALID are written only by a successful BUILDGEN, ENCODE or DECODE, and then hold the pair that
command validated; each of the three, when it succeeds, writes them. -/
def Obligations.GeneratorCacheWritersAreThree : Prop :=
  ∀ (i : Instr) (s t : State), s.ready → exec i s = .next t →
    ((t.err = 0x00#8 ∧ (i = .buildgen ∨ i = .encode ∨ i = .decode)) →
      t.genValid = true ∧ t.genK.toNat = s.origCount.toNat ∧ t.genM.toNat = s.recovCount.toNat) ∧
    (¬ (t.err = 0x00#8 ∧ (i = .buildgen ∨ i = .encode ∨ i = .decode)) →
      t.genValid = s.genValid ∧ t.genK = s.genK ∧ t.genM = s.genM)

/-- R26: the descriptor table is written only by DESCCLR, by a successful DESCPUSH and by a successful DECODE, which changes
tags only. -/
def Obligations.DescriptorTableWritersAreThree : Prop :=
  ∀ (i : Instr) (s t : State), exec i s = .next t → t.descs ≠ s.descs →
    t.err = 0x00#8 ∧
      ((i = .descclr ∧ t.descs = []) ∨
        (∃ tag, i = .descpush tag ∧ t.descs = s.descs ++ [⟨s.a0, s.a1, tag⟩]) ∨
        (i = .decode ∧ t.descs.map (fun d => (d.addr, d.len)) = s.descs.map fun d => (d.addr, d.len)))

/-- R45, R58: a command changes no byte of memory outside the ranges it writes; a command that is not MULACC, ENCODE or DECODE
and a command that fails leave memory as it was. -/
def Obligations.CommandsWriteOnlyTheirBuffers : Prop :=
  ∀ (i : Instr) (s t : State), exec i s = .next t →
    ((∃ c, i = .mulacc c) ∨ i = .encode ∨ i = .decode ∨ t.mem = s.mem) ∧
    (t.err ≠ 0x00#8 → t.mem = s.mem) ∧
    ∀ x, (∀ r ∈ writtenRanges i s, ¬ r.has x) → Memory.read t.mem x = Memory.read s.mem x

/-! ### The field -/

/-- R82: the carry-less multiply and reduce procedure and the shift and exclusive-or procedure compute the same product. -/
def Obligations.BothProductProceduresAgree : Prop := ∀ a b : Byte, gfMul a b = gfMulShiftXor a b

/-- R83: the laws of the product. -/
def Obligations.FieldProductLaws : Prop :=
  (∀ a b : Byte, gfMul a b = gfMul b a) ∧ (∀ a : Byte, gfMul a 0#8 = 0#8) ∧ (∀ a : Byte, gfMul a 1#8 = a) ∧
  (∀ a : Byte, a ≠ 0#8 → gfMul a (gfInv a) = 1#8) ∧
  (∀ a b c : Byte, gfMul (gfMul a b) c = gfMul a (gfMul b c)) ∧
  (∀ a b c : Byte, gfMul a (b ^^^ c) = gfMul a b ^^^ gfMul a c) ∧
  (∀ a b : Byte, gfMul a b = 0#8 → a = 0#8 ∨ b = 0#8)

/-- R84: the inverse of a nonzero byte is the unique byte whose product with it is 1. -/
def Obligations.InverseIsTheUniqueOne : Prop :=
  ∀ a : Byte, a ≠ 0#8 → gfMul a (gfInv a) = 1#8 ∧ ∀ b : Byte, gfMul a b = 1#8 → b = gfInv a

/-- R87, the self-test draw in the model's form (log 3): INIT builds the tables, or is a no-op when they are built, or is
fatal when the draw fails. -/
def Obligations.InitBuildsTablesOrIsFatal : Prop :=
  decode 0x01000000#32 = .command .init ∧
  ∀ s : State, s.fatal = false →
    (s.initDone = true → exec .init s = .next { s with err := 0x00#8, errSub := 0#8, errPos := 0#8 }) ∧
    (s.initDone = false →
      exec .init s = .next
        (if Config.initSelftestOk s.initDraws then
          { s with initDone := true, err := 0x00#8, errSub := 0#8, errPos := 0#8, initDraws := s.initDraws + 1 }
        else { s with fatal := true, err := 0x04#8, errSub := 0#8, errPos := 0#8, initDraws := s.initDraws + 1 }))

/-- R88: GFMUL writes the field product to RES and succeeds; its corner cases and example. -/
def Obligations.GfmulReturnsFieldProduct : Prop :=
  (∀ a b : Byte, decode (BitVec.ofNat 32 (0x10000000 + 256 * a.toNat + b.toNat)) = .command (.gfmul a b)) ∧
  (∀ (a b : Byte) (s : State), s.ready →
    exec (.gfmul a b) s = .next { s with res := gfMul a b, err := 0x00#8, errSub := 0#8, errPos := 0#8 }) ∧
  (∀ a : Byte, gfMul a 0#8 = 0#8 ∧ gfMul 0#8 a = 0#8 ∧ gfMul a 1#8 = a ∧ gfMul 1#8 a = a) ∧
  gfMul 0x53#8 0xCA#8 = 0x94#8

/-- R89: GFDIV writes `a ⊗ inv(b)`, or fails with ZERO for b = 0, whatever a is; its corner cases and example. -/
def Obligations.GfdivReturnsQuotientOrFails : Prop :=
  (∀ a b : Byte, decode (BitVec.ofNat 32 (0x11000000 + 256 * a.toNat + b.toNat)) = .command (.gfdiv a b)) ∧
  (∀ (a b : Byte) (s : State), s.ready → b ≠ 0#8 →
    exec (.gfdiv a b) s = .next { s with res := gfMul a (gfInv b), err := 0x00#8, errSub := 0#8, errPos := 0#8 }) ∧
  (∀ (a : Byte) (s : State), s.ready →
    exec (.gfdiv a 0#8) s = .next { s with err := 0x05#8, errSub := 0#8, errPos := 0#8 }) ∧
  (∀ a : Byte, a ≠ 0#8 → gfMul 0#8 (gfInv a) = 0#8 ∧ gfMul a (gfInv a) = 1#8 ∧ gfMul 1#8 (gfInv a) = gfInv a) ∧
  (∀ a : Byte, gfMul a (gfInv 1#8) = a) ∧ gfMul 0x94#8 (gfInv 0x53#8) = 0xCA#8

/-- R90: GFINV writes the inverse, or fails with ZERO for 0; its corner cases and example. -/
def Obligations.GfinvReturnsInverseOrFails : Prop :=
  (∀ a : Byte, decode (BitVec.ofNat 32 (0x12000000 + a.toNat)) = .command (.gfinv a)) ∧
  (∀ (a : Byte) (s : State), s.ready → a ≠ 0#8 →
    exec (.gfinv a) s = .next { s with res := gfInv a, err := 0x00#8, errSub := 0#8, errPos := 0#8 }) ∧
  (∀ s : State, s.ready → exec (.gfinv 0#8) s = .next { s with err := 0x05#8, errSub := 0#8, errPos := 0#8 }) ∧
  (∀ a : Byte, a ≠ 0#8 → gfInv (gfInv a) = a) ∧ gfInv 1#8 = 1#8 ∧ gfInv 0x02#8 = 0xA6#8 ∧ gfInv 0xFF#8 = 0x44#8 ∧
  gfInv 0x53#8 = 0x04#8 ∧ gfMul 0x53#8 0x04#8 = 0x01#8

/-! ### MULACC -/

/-- R91, R58: a MULACC in range whose host duties are kept completes; every destination byte becomes its old value exclusive-or
the source byte times the coefficient, both from the memory at the start; nothing else changes. -/
def Obligations.MulaccAccumulatesScaledSource : Prop :=
  ∀ (c : Byte) (s : State), s.ready → s.a0.toNat + s.a2.toNat ≤ 2 ^ 32 → s.a1.toNat + s.a2.toNat ≤ 2 ^ 32 →
    s.mulaccDst.apart s.mulaccSrc → s.platform.allows s.mulaccDst → s.platform.allows s.mulaccSrc →
    ∃ t, exec (.mulacc c) s = .next t ∧ t = { s with mem := t.mem, err := 0x00#8, errSub := 0#8, errPos := 0#8 } ∧
      ∀ x, Memory.read t.mem x =
        if s.a0.toNat ≤ x ∧ x < s.a0.toNat + s.a2.toNat then
          Memory.read s.mem x ^^^ gfMul (Memory.read s.mem (s.a1.toNat + (x - s.a0.toNat))) c
        else Memory.read s.mem x

/-- R91: MULACC fails with SHAPE/ADDRRANGE when either range would pass the top of memory, and changes nothing else. -/
def Obligations.MulaccRejectsRangesPastTheTop : Prop :=
  ∀ (c : Byte) (s : State), s.ready → s.a0.toNat + s.a2.toNat > 2 ^ 32 ∨ s.a1.toNat + s.a2.toNat > 2 ^ 32 →
    exec (.mulacc c) s = .next { s with err := 0x02#8, errSub := 6#8, errPos := 0#8 }

/-- R91, corner cases: a coefficient 0 and a length 0 leave every byte as it was; the same MULACC twice restores memory. -/
def Obligations.MulaccTwiceRestoresMemory : Prop :=
  ∀ (c : Byte) (s t : State), s.ready → exec (.mulacc c) s = .next t → t.err = 0x00#8 →
    (c = 0#8 ∨ s.a2 = 0#32 → ∀ x, Memory.read t.mem x = Memory.read s.mem x) ∧
    ∃ u, exec (.mulacc c) t = .next u ∧ u.err = 0x00#8 ∧ ∀ x, Memory.read u.mem x = Memory.read s.mem x

/-- R46, R57 (U3, U4): MULACC and ENCODE are refused when a buffer they name is not ordinary memory, and when a buffer they
write shares a byte with another buffer they name. That the first is reported before the second, from a field of the
platform (log 6), and that both come after the command's listed failures (logs 5, 20), is the model's choice; that an ENCODE
without a recovery block stands under R46 too is log 8. -/
def Obligations.MulaccAndEncodeRefuseBrokenDuties : Prop :=
  (∀ (c : Byte) (s : State), s.ready → s.a0.toNat + s.a2.toNat ≤ 2 ^ 32 → s.a1.toNat + s.a2.toNat ≤ 2 ^ 32 →
    (¬ (s.platform.allows s.mulaccDst ∧ s.platform.allows s.mulaccSrc) →
      exec (.mulacc c) s = .refused .bufferNotOrdinaryMemory) ∧
    (s.platform.allows s.mulaccDst → s.platform.allows s.mulaccSrc → ¬ s.mulaccDst.apart s.mulaccSrc →
      exec (.mulacc c) s = .refused .overlappingBuffers)) ∧
  (∀ s : State, s.ready → s.EncodeLegal →
    ((∃ d ∈ s.descs, ¬ s.platform.allows d.range) → exec .encode s = .refused .bufferNotOrdinaryMemory) ∧
    ((∀ d ∈ s.descs, s.platform.allows d.range) → ¬ s.EncodeDuties →
      exec .encode s = .refused .overlappingBuffers))

/-! ### The matrix constructor -/

/-- R111: for every legal pair of counts the column parameters are distinct, and nonzero whenever any is used; the row
parameters are distinct; no row parameter equals a column parameter, so their exclusive-or is never 0. -/
def Obligations.CauchyParametersMeetConstraints : Prop :=
  ∀ k m : Nat, 1 ≤ k → k ≤ 256 → m ≤ 256 - k →
    (1 ≤ m → ∀ c, c < k → colParam c ≠ 0#8) ∧ (∀ c d, c < k → d < k → colParam c = colParam d → c = d) ∧
    (∀ r q, r < m → q < m → rowParam k r = rowParam k q → r = q) ∧
    (∀ r c, r < m → c < k → rowParam k r ≠ colParam c ∧ rowParam k r ^^^ colParam c ≠ 0#8)

/-- R112: an entry is the inverse of row parameter exclusive-or column parameter, times which it is 1, and is never zero. -/
def Obligations.GeneratorEntriesAreNonzeroInverses : Prop :=
  ∀ k m r c : Nat, 1 ≤ k → k ≤ 256 → m ≤ 256 - k → r < m → c < k →
    genEntry k r c ≠ 0#8 ∧
      gfMul (BitVec.ofNat 8 (k + 1 + r) ^^^ BitVec.ofNat 8 (c + 1)) (genEntry k r c) = 1#8

/-- R118, R119: the configuration checks in their order, as BUILDGEN (the counts), ENCODE and DECODE (all three) report them;
none of them fails when the values are legal. -/
def Obligations.ConfigurationIsCheckedInOrder : Prop :=
  ∀ s : State, s.ready →
    (∀ i, i = .encode ∨ i = .decode → s.blockBytes = 0#32 →
      exec i s = .next { s with err := 0x01#8, errSub := 1#8, errPos := 0#8 }) ∧
    (∀ i, i = .buildgen ∨ ((i = .encode ∨ i = .decode) ∧ s.blockBytes ≠ 0#32) →
      (s.origCount.toNat < 1 ∨ s.origCount.toNat > 256 →
        exec i s = .next { s with err := 0x01#8, errSub := 2#8, errPos := 0#8 }) ∧
      (1 ≤ s.origCount.toNat → s.origCount.toNat ≤ 256 → s.recovCount.toNat > 256 - s.origCount.toNat →
        exec i s = .next { s with err := 0x01#8, errSub := 3#8, errPos := 0#8 }) ∧
      (s.CountsLegal → ∀ t, exec i s = .next t → t.err ≠ 0x01#8))

/-- R115: with legal counts BUILDGEN caches the pair and succeeds; GEN_DIMS then shows it; nothing else changes. -/
def Obligations.BuildgenCachesThePair : Prop :=
  ∀ s : State, s.ready → s.CountsLegal →
    ∃ t, exec .buildgen s = .next t ∧ t.genK.toNat = s.origCount.toNat ∧ t.genM.toNat = s.recovCount.toNat ∧
      t = { s with genK := t.genK, genM := t.genM, genValid := true, err := 0x00#8, errSub := 0#8, errPos := 0#8 }

/-- R116: GENRD returns the entry of the cached matrix, never zero in a state that has the invariants, or fails with
SHAPE/GENRANGE. -/
def Obligations.GenrdReturnsCachedEntryOrFails : Prop :=
  (∀ r c : Byte, decode (BitVec.ofNat 32 (0x21000000 + 256 * r.toNat + c.toNat)) = .command (.genrd r.toNat c.toNat)) ∧
  ∀ (r c : Nat) (s : State), s.ready →
    (s.genValid = false ∨ r ≥ s.genM.toNat ∨ c ≥ s.genK.toNat →
      exec (.genrd r c) s = .next { s with err := 0x02#8, errSub := 8#8, errPos := 0#8 }) ∧
    (s.genValid = true → r < s.genM.toNat → c < s.genK.toNat →
      exec (.genrd r c) s = .next
        { s with
          res := gfInv (BitVec.ofNat 8 (s.genK.toNat + 1 + r) ^^^ BitVec.ofNat 8 (c + 1)), err := 0x00#8, errSub := 0#8,
          errPos := 0#8 } ∧
      (s.Inv → gfInv (BitVec.ofNat 8 (s.genK.toNat + 1 + r) ^^^ BitVec.ofNat 8 (c + 1)) ≠ 0#8))

/-! ### Descriptors and the encoder -/

/-- R126: DESCCLR empties the table and changes nothing else but ERR and ERRINFO. -/
def Obligations.DescclrEmptiesTheTable : Prop :=
  decode 0x30000000#32 = .command .descclr ∧
  ∀ s : State, s.ready →
    exec .descclr s = .next { s with descs := [], err := 0x00#8, errSub := 0#8, errPos := 0#8 }

/-- R127: DESCPUSH appends one descriptor, or fails with FULL (checked first) or ADDRRANGE. -/
def Obligations.DescpushAppendsOrFails : Prop :=
  (∀ t : Byte, decode (BitVec.ofNat 32 (0x31000000 + t.toNat)) = .command (.descpush t)) ∧
  ∀ (tag : Byte) (s : State), s.ready →
    (s.descs.length = 256 → exec (.descpush tag) s = .next { s with err := 0x02#8, errSub := 7#8, errPos := 0#8 }) ∧
    (s.descs.length ≠ 256 → s.a0.toNat + s.a1.toNat > 2 ^ 32 →
      exec (.descpush tag) s = .next { s with err := 0x02#8, errSub := 6#8, errPos := 0#8 }) ∧
    (s.descs.length ≠ 256 → s.a0.toNat + s.a1.toNat ≤ 2 ^ 32 →
      exec (.descpush tag) s = .next
        { s with descs := s.descs ++ [⟨s.a0, s.a1, tag⟩], err := 0x00#8, errSub := 0#8, errPos := 0#8 })

/-- R73, R127: the pseudo-instruction `desc` run by three steps appends the descriptor it names. -/
def Obligations.DescPseudoInstructionAppends : Prop :=
  ∀ (d : Descriptor) (s : State) (rest : List HostAction), s.ready → s.script = scriptDesc d ++ rest →
    s.descs.length < 256 → d.addr.toNat + d.len.toNat ≤ 2 ^ 32 →
    Sys2Proof.core.run 3 s = .next
      { s with
        script := rest, a0 := d.addr, a1 := d.len, descs := s.descs ++ [d], err := 0x00#8, errSub := 0#8, errPos := 0#8 }

/-- R128: the shape checks of ENCODE after the configuration checks: the number of descriptors, then the lowest position whose
length differs. -/
def Obligations.EncodeReportsShapeFailures : Prop :=
  ∀ s : State, s.ready → s.blockBytes ≠ 0#32 → s.CountsLegal →
    (s.descs.length ≠ s.origCount.toNat + s.recovCount.toNat →
      exec .encode s = .next { s with err := 0x02#8, errSub := 1#8, errPos := 0#8 }) ∧
    (s.descs.length = s.origCount.toNat + s.recovCount.toNat →
      ∀ (p : Nat) (d : Descriptor), s.descs[p]? = some d → d.len ≠ s.blockBytes →
        (∀ (q : Nat) (e : Descriptor), q < p → s.descs[q]? = some e → e.len = s.blockBytes) →
        exec .encode s = .next { s with err := 0x02#8, errSub := 2#8, errPos := BitVec.ofNat 8 p })

/-- R128, R130, R131: an ENCODE that passes its checks and whose host duties are kept completes; byte i of recovery buffer r is
the sum over the originals of G(k, m, r, c) times byte i of original c, from the memory at the start; no byte outside the
recovery buffers changes; the cache becomes (k, m); nothing else changes. -/
def Obligations.EncodeWritesRecoveryBlocks : Prop :=
  ∀ s : State, s.ready → s.EncodeLegal → s.EncodeDuties →
    ∃ t, exec .encode s = .next t ∧
      t = { s with
        mem := t.mem, genK := t.genK, genM := t.genM, genValid := true, err := 0x00#8, errSub := 0#8, errPos := 0#8 } ∧
      t.genK.toNat = s.origCount.toNat ∧ t.genM.toNat = s.recovCount.toNat ∧
      (∀ r i, r < s.recovCount.toNat → i < s.blockBytes.toNat →
        t.slotByte (s.origCount.toNat + r) i =
          xorSum ((List.range s.origCount.toNat).map fun c =>
            gfMul (genEntry s.origCount.toNat r c) (s.slotByte c i))) ∧
      ∀ x, (∀ r ∈ writtenRanges .encode s, ¬ r.has x) → Memory.read t.mem x = Memory.read s.mem x

/-! ### The decoder -/

/-- R141, R142: the shape checks of DECODE after the configuration checks: the number of descriptors, then, at the lowest
position that fails, the first failing test of LENGTH, TAGRANGE, MISPLACED, DUPLICATE. -/
def Obligations.DecodeReportsShapeFailures : Prop :=
  ∀ s : State, s.ready → s.blockBytes ≠ 0#32 → s.CountsLegal →
    (s.descs.length ≠ s.origCount.toNat →
      exec .decode s = .next { s with err := 0x02#8, errSub := 1#8, errPos := 0#8 }) ∧
    (s.descs.length = s.origCount.toNat →
      ∀ (p : Nat) (d : Descriptor), s.descs[p]? = some d →
        (∀ (q : Nat) (e : Descriptor), q < p → s.descs[q]? = some e →
          s.SlotLegal q e ∧
            ∀ (q' : Nat) (e' : Descriptor), q' < q → s.descs[q']? = some e' → e'.idx ≠ e.idx) →
        (d.len ≠ s.blockBytes →
          exec .decode s = .next { s with err := 0x02#8, errSub := 2#8, errPos := BitVec.ofNat 8 p }) ∧
        (d.len = s.blockBytes → d.idx.toNat ≥ s.origCount.toNat + s.recovCount.toNat →
          exec .decode s = .next { s with err := 0x02#8, errSub := 3#8, errPos := BitVec.ofNat 8 p }) ∧
        (d.len = s.blockBytes → d.idx.toNat < s.origCount.toNat → d.idx.toNat ≠ p →
          exec .decode s = .next { s with err := 0x02#8, errSub := 4#8, errPos := BitVec.ofNat 8 p }) ∧
        (s.SlotLegal p d → (∃ (q : Nat) (e : Descriptor), q < p ∧ s.descs[q]? = some e ∧ e.idx = d.idx) →
          exec .decode s = .next { s with err := 0x02#8, errSub := 5#8, errPos := BitVec.ofNat 8 p }))

/-- R143: a DECODE that succeeds had at most RecoveryCount erased positions. -/
def Obligations.DecodeNeverExceedsTheBudget : Prop :=
  ∀ s t : State, s.ready → exec .decode s = .next t → t.err = 0x00#8 →
    (s.descs.filter fun d => decide (s.origCount.toNat ≤ d.idx.toNat)).length ≤ s.recovCount.toNat

/-- R144, R46: a DECODE without an erasure whose buffers are ordinary memory succeeds, reads and writes no memory, changes no
tag, and makes the cache (k, m); its buffers may overlap. That R46 binds the buffers of such a DECODE, which it does not
access, is the model's choice (log 8); DecodeRefusesBrokenDuties says what happens where it is broken. -/
def Obligations.DecodeWithoutErasureIsNoOp : Prop :=
  ∀ s : State, s.ready → s.DecodeLegal → (∀ d ∈ s.descs, ¬ s.erased d) → (∀ d ∈ s.descs, s.platform.allows d.range) →
    ∃ t, exec .decode s = .next t ∧ t.genK.toNat = s.origCount.toNat ∧ t.genM.toNat = s.recovCount.toNat ∧
      t = { s with genK := t.genK, genM := t.genM, genValid := true, err := 0x00#8, errSub := 0#8, errPos := 0#8 }

/-- R147, R152: what the elimination returns for a square matrix is its left inverse. -/
def Obligations.EliminationReturnsTheInverse : Prop :=
  ∀ M W : GfMatrix, (∀ row ∈ M, row.length = M.length) → invertMatrix M = some W →
    W.length = M.length ∧ (∀ row ∈ W, row.length = M.length) ∧
      ∀ n j, n < M.length → j < M.length →
        xorSum ((List.range M.length).map fun i => gfMul (entry W n i) (entry M i j)) = if n = j then 1#8 else 0#8

/-- R147, R152: the elimination finds a square matrix singular only when it has no left inverse. -/
def Obligations.EliminationFailsOnlyOnSingular : Prop :=
  ∀ M : GfMatrix, (∀ row ∈ M, row.length = M.length) → invertMatrix M = none →
    ¬ ∃ W : GfMatrix, ∀ n j, n < M.length → j < M.length →
      xorSum ((List.range M.length).map fun i => gfMul (entry W n i) (entry M i j)) = if n = j then 1#8 else 0#8

/-- R114, the MDS property: every square submatrix of the generator matrix, any distinct rows and as many distinct columns, is
inverted by the elimination. -/
def Obligations.SquareSubmatricesAreInvertible : Prop :=
  ∀ (k m : Nat) (rows cols : List Nat), 1 ≤ k → k ≤ 256 → m ≤ 256 - k → rows.length = cols.length → rows.Nodup →
    cols.Nodup → (∀ r ∈ rows, r < m) → (∀ c ∈ cols, c < k) →
    ∃ W, invertMatrix (rows.map fun r => cols.map fun c => genEntry k r c) = some W

/-- R147 with R114: DECODE never raises the fatal error INTERNAL. -/
def Obligations.DecodeIsNeverFatal : Prop :=
  ∀ s t : State, s.fatal = false → exec .decode s = .next t → t.fatal = false ∧ t.err ≠ 0x03#8

/-- R148, R149, R151: a DECODE that passes its checks and whose host duties are kept completes; the new contents of the slots
solve the system: row ρ of the generator over all slots gives back the recovery byte each erased slot held; correct slots and
all bytes outside the erased buffers are untouched; every tag is then its position; the cache becomes (k, m); nothing else
changes. With no erased slot the duty that remains is R46, which log 8 reads as binding there too. -/
def Obligations.DecodeSolvesForErasedBlocks : Prop :=
  ∀ s : State, s.ready → s.DecodeLegal → s.DecodeDuties →
    ∃ t, exec .decode s = .next t ∧
      t = { s with
        mem := t.mem, descs := t.descs, genK := t.genK, genM := t.genM, genValid := true, err := 0x00#8, errSub := 0#8,
        errPos := 0#8 } ∧
      t.genK.toNat = s.origCount.toNat ∧ t.genM.toNat = s.recovCount.toNat ∧ t.descs.length = s.descs.length ∧
      (∀ (p : Nat) (d : Descriptor), s.descs[p]? = some d →
        t.descs[p]? = some { d with idx := BitVec.ofNat 8 p }) ∧
      (∀ p b, p < s.origCount.toNat → b < s.blockBytes.toNat → s.origCount.toNat ≤ s.slotTag p →
        s.slotByte p b =
          xorSum ((List.range s.origCount.toNat).map fun c =>
            gfMul (genEntry s.origCount.toNat (s.slotTag p - s.origCount.toNat) c) (t.slotByte c b))) ∧
      (∀ p b, p < s.origCount.toNat → b < s.blockBytes.toNat → s.slotTag p < s.origCount.toNat →
        t.slotByte p b = s.slotByte p b) ∧
      ∀ x, (∀ r ∈ writtenRanges .decode s, ¬ r.has x) → Memory.read t.mem x = Memory.read s.mem x

/-- R151, R155: the same table decoded a second time changes nothing at all. -/
def Obligations.SecondDecodeChangesNothing : Prop :=
  ∀ s t : State, s.ready → exec .decode s = .next t → t.err = 0x00#8 → exec .decode t = .next t

/-- R154, the round trip: let `t` be what ENCODE leaves of `s`. A DECODE with the same parameters, in any state `u` whose
correct slots hold the originals of their positions and whose erased slots hold the recovery blocks their tags name, completes
and leaves original p in slot p for every p, and every byte outside the erased buffers as it was. -/
def Obligations.DecodeOfEncodeRestoresOriginals : Prop :=
  ∀ s t u : State, s.ready → exec .encode s = .next t → t.err = 0x00#8 →
    u.ready → u.DecodeLegal → u.DecodeDuties → u.blockBytes = s.blockBytes → u.origCount = s.origCount →
    u.recovCount = s.recovCount →
    (∀ p b, p < s.origCount.toNat → b < s.blockBytes.toNat →
      u.slotByte p b = if u.slotTag p < s.origCount.toNat then s.slotByte p b else t.slotByte (u.slotTag p) b) →
    ∃ v, exec .decode u = .next v ∧ v.err = 0x00#8 ∧
      (∀ p b, p < s.origCount.toNat → b < s.blockBytes.toNat → v.slotByte p b = s.slotByte p b) ∧
      ∀ x, (∀ r ∈ writtenRanges .decode u, ¬ r.has x) → Memory.read v.mem x = Memory.read u.mem x

/-- R46, R57 (U3, U4): DECODE is refused when a buffer it names is not ordinary memory, and when an erased slot's buffer
shares a byte with another slot's. That the first is reported before the second (log 6), that both come after the listed
failures and the fatal error (log 20), and that a DECODE without an erasure stands under R46 too (log 8), is the model's
choice. -/
def Obligations.DecodeRefusesBrokenDuties : Prop :=
  ∀ s : State, s.ready → s.DecodeLegal →
    ((∃ d ∈ s.descs, ¬ s.platform.allows d.range) → exec .decode s = .refused .bufferNotOrdinaryMemory) ∧
    ((∀ d ∈ s.descs, s.platform.allows d.range) → ¬ s.DecodeDuties → exec .decode s = .refused .overlappingBuffers)

/-- R147 with R114 as an invariant of the whole machine: after reset, whatever memory holds and whatever the host is about to
do, ERR is not INTERNAL (0x03), and from every state in which it is not, no step, whatever the host's action, makes it so. -/
def Obligations.EveryStepKeepsErrFromInternal : Prop :=
  (∀ (m : Memory) (as : List HostAction) (p : Platform),
    ({ State.reset with mem := m, script := as, platform := p } : State).err ≠ 0x03#8) ∧
  ∀ s t : State, s.err ≠ 0x03#8 → step s = .next t → t.err ≠ 0x03#8
end

