-- ==== Sys2Proof/Laws/State.lean ====
section
/-! SUPPORT. One lemma per field per update of State, true by rfl, so that no proof unfolds a record update; and what a
host register write leaves. -/

namespace Sys2Proof.Machine

/-! ### State.withRes -/

@[simp] theorem State.withRes_initDone (s : State) (v : Byte) : (s.withRes v).initDone = s.initDone := rfl
@[simp] theorem State.withRes_fatal (s : State) (v : Byte) : (s.withRes v).fatal = s.fatal := rfl
@[simp] theorem State.withRes_genValid (s : State) (v : Byte) : (s.withRes v).genValid = s.genValid := rfl
@[simp] theorem State.withRes_err (s : State) (v : Byte) : (s.withRes v).err = s.err := rfl
@[simp] theorem State.withRes_res (s : State) (v : Byte) : (s.withRes v).res = v := rfl
@[simp] theorem State.withRes_errSub (s : State) (v : Byte) : (s.withRes v).errSub = s.errSub := rfl
@[simp] theorem State.withRes_errPos (s : State) (v : Byte) : (s.withRes v).errPos = s.errPos := rfl
@[simp] theorem State.withRes_a0 (s : State) (v : Byte) : (s.withRes v).a0 = s.a0 := rfl
@[simp] theorem State.withRes_a1 (s : State) (v : Byte) : (s.withRes v).a1 = s.a1 := rfl
@[simp] theorem State.withRes_a2 (s : State) (v : Byte) : (s.withRes v).a2 = s.a2 := rfl
@[simp] theorem State.withRes_blockBytes (s : State) (v : Byte) : (s.withRes v).blockBytes = s.blockBytes := rfl
@[simp] theorem State.withRes_origCount (s : State) (v : Byte) : (s.withRes v).origCount = s.origCount := rfl
@[simp] theorem State.withRes_recovCount (s : State) (v : Byte) : (s.withRes v).recovCount = s.recovCount := rfl
@[simp] theorem State.withRes_genK (s : State) (v : Byte) : (s.withRes v).genK = s.genK := rfl
@[simp] theorem State.withRes_genM (s : State) (v : Byte) : (s.withRes v).genM = s.genM := rfl
@[simp] theorem State.withRes_descs (s : State) (v : Byte) : (s.withRes v).descs = s.descs := rfl
@[simp] theorem State.withRes_mem (s : State) (v : Byte) : (s.withRes v).mem = s.mem := rfl
@[simp] theorem State.withRes_script (s : State) (v : Byte) : (s.withRes v).script = s.script := rfl
@[simp] theorem State.withRes_observed (s : State) (v : Byte) : (s.withRes v).observed = s.observed := rfl
@[simp] theorem State.withRes_initDraws (s : State) (v : Byte) : (s.withRes v).initDraws = s.initDraws := rfl
@[simp] theorem State.withRes_platform (s : State) (v : Byte) : (s.withRes v).platform = s.platform := rfl

/-! ### State.withGenerator -/

@[simp] theorem State.withGenerator_initDone (s : State) (k m : Word) : (s.withGenerator k m).initDone = s.initDone := rfl
@[simp] theorem State.withGenerator_fatal (s : State) (k m : Word) : (s.withGenerator k m).fatal = s.fatal := rfl
@[simp] theorem State.withGenerator_genValid (s : State) (k m : Word) : (s.withGenerator k m).genValid = true := rfl
@[simp] theorem State.withGenerator_err (s : State) (k m : Word) : (s.withGenerator k m).err = s.err := rfl
@[simp] theorem State.withGenerator_res (s : State) (k m : Word) : (s.withGenerator k m).res = s.res := rfl
@[simp] theorem State.withGenerator_errSub (s : State) (k m : Word) : (s.withGenerator k m).errSub = s.errSub := rfl
@[simp] theorem State.withGenerator_errPos (s : State) (k m : Word) : (s.withGenerator k m).errPos = s.errPos := rfl
@[simp] theorem State.withGenerator_a0 (s : State) (k m : Word) : (s.withGenerator k m).a0 = s.a0 := rfl
@[simp] theorem State.withGenerator_a1 (s : State) (k m : Word) : (s.withGenerator k m).a1 = s.a1 := rfl
@[simp] theorem State.withGenerator_a2 (s : State) (k m : Word) : (s.withGenerator k m).a2 = s.a2 := rfl
@[simp] theorem State.withGenerator_blockBytes (s : State) (k m : Word) : (s.withGenerator k m).blockBytes = s.blockBytes := rfl
@[simp] theorem State.withGenerator_origCount (s : State) (k m : Word) : (s.withGenerator k m).origCount = s.origCount := rfl
@[simp] theorem State.withGenerator_recovCount (s : State) (k m : Word) : (s.withGenerator k m).recovCount = s.recovCount := rfl
@[simp] theorem State.withGenerator_genK (s : State) (k m : Word) : (s.withGenerator k m).genK = k.setWidth 9 := rfl
@[simp] theorem State.withGenerator_genM (s : State) (k m : Word) : (s.withGenerator k m).genM = m.setWidth 9 := rfl
@[simp] theorem State.withGenerator_descs (s : State) (k m : Word) : (s.withGenerator k m).descs = s.descs := rfl
@[simp] theorem State.withGenerator_mem (s : State) (k m : Word) : (s.withGenerator k m).mem = s.mem := rfl
@[simp] theorem State.withGenerator_script (s : State) (k m : Word) : (s.withGenerator k m).script = s.script := rfl
@[simp] theorem State.withGenerator_observed (s : State) (k m : Word) : (s.withGenerator k m).observed = s.observed := rfl
@[simp] theorem State.withGenerator_initDraws (s : State) (k m : Word) : (s.withGenerator k m).initDraws = s.initDraws := rfl
@[simp] theorem State.withGenerator_platform (s : State) (k m : Word) : (s.withGenerator k m).platform = s.platform := rfl

/-! ### State.withDescs -/

@[simp] theorem State.withDescs_initDone (s : State) (ds : List Descriptor) : (s.withDescs ds).initDone = s.initDone := rfl
@[simp] theorem State.withDescs_fatal (s : State) (ds : List Descriptor) : (s.withDescs ds).fatal = s.fatal := rfl
@[simp] theorem State.withDescs_genValid (s : State) (ds : List Descriptor) : (s.withDescs ds).genValid = s.genValid := rfl
@[simp] theorem State.withDescs_err (s : State) (ds : List Descriptor) : (s.withDescs ds).err = s.err := rfl
@[simp] theorem State.withDescs_res (s : State) (ds : List Descriptor) : (s.withDescs ds).res = s.res := rfl
@[simp] theorem State.withDescs_errSub (s : State) (ds : List Descriptor) : (s.withDescs ds).errSub = s.errSub := rfl
@[simp] theorem State.withDescs_errPos (s : State) (ds : List Descriptor) : (s.withDescs ds).errPos = s.errPos := rfl
@[simp] theorem State.withDescs_a0 (s : State) (ds : List Descriptor) : (s.withDescs ds).a0 = s.a0 := rfl
@[simp] theorem State.withDescs_a1 (s : State) (ds : List Descriptor) : (s.withDescs ds).a1 = s.a1 := rfl
@[simp] theorem State.withDescs_a2 (s : State) (ds : List Descriptor) : (s.withDescs ds).a2 = s.a2 := rfl
@[simp] theorem State.withDescs_blockBytes (s : State) (ds : List Descriptor) : (s.withDescs ds).blockBytes = s.blockBytes := rfl
@[simp] theorem State.withDescs_origCount (s : State) (ds : List Descriptor) : (s.withDescs ds).origCount = s.origCount := rfl
@[simp] theorem State.withDescs_recovCount (s : State) (ds : List Descriptor) : (s.withDescs ds).recovCount = s.recovCount := rfl
@[simp] theorem State.withDescs_genK (s : State) (ds : List Descriptor) : (s.withDescs ds).genK = s.genK := rfl
@[simp] theorem State.withDescs_genM (s : State) (ds : List Descriptor) : (s.withDescs ds).genM = s.genM := rfl
@[simp] theorem State.withDescs_descs (s : State) (ds : List Descriptor) : (s.withDescs ds).descs = ds := rfl
@[simp] theorem State.withDescs_mem (s : State) (ds : List Descriptor) : (s.withDescs ds).mem = s.mem := rfl
@[simp] theorem State.withDescs_script (s : State) (ds : List Descriptor) : (s.withDescs ds).script = s.script := rfl
@[simp] theorem State.withDescs_observed (s : State) (ds : List Descriptor) : (s.withDescs ds).observed = s.observed := rfl
@[simp] theorem State.withDescs_initDraws (s : State) (ds : List Descriptor) : (s.withDescs ds).initDraws = s.initDraws := rfl
@[simp] theorem State.withDescs_platform (s : State) (ds : List Descriptor) : (s.withDescs ds).platform = s.platform := rfl

/-! ### State.withMem -/

@[simp] theorem State.withMem_initDone (s : State) (m : Memory) : (s.withMem m).initDone = s.initDone := rfl
@[simp] theorem State.withMem_fatal (s : State) (m : Memory) : (s.withMem m).fatal = s.fatal := rfl
@[simp] theorem State.withMem_genValid (s : State) (m : Memory) : (s.withMem m).genValid = s.genValid := rfl
@[simp] theorem State.withMem_err (s : State) (m : Memory) : (s.withMem m).err = s.err := rfl
@[simp] theorem State.withMem_res (s : State) (m : Memory) : (s.withMem m).res = s.res := rfl
@[simp] theorem State.withMem_errSub (s : State) (m : Memory) : (s.withMem m).errSub = s.errSub := rfl
@[simp] theorem State.withMem_errPos (s : State) (m : Memory) : (s.withMem m).errPos = s.errPos := rfl
@[simp] theorem State.withMem_a0 (s : State) (m : Memory) : (s.withMem m).a0 = s.a0 := rfl
@[simp] theorem State.withMem_a1 (s : State) (m : Memory) : (s.withMem m).a1 = s.a1 := rfl
@[simp] theorem State.withMem_a2 (s : State) (m : Memory) : (s.withMem m).a2 = s.a2 := rfl
@[simp] theorem State.withMem_blockBytes (s : State) (m : Memory) : (s.withMem m).blockBytes = s.blockBytes := rfl
@[simp] theorem State.withMem_origCount (s : State) (m : Memory) : (s.withMem m).origCount = s.origCount := rfl
@[simp] theorem State.withMem_recovCount (s : State) (m : Memory) : (s.withMem m).recovCount = s.recovCount := rfl
@[simp] theorem State.withMem_genK (s : State) (m : Memory) : (s.withMem m).genK = s.genK := rfl
@[simp] theorem State.withMem_genM (s : State) (m : Memory) : (s.withMem m).genM = s.genM := rfl
@[simp] theorem State.withMem_descs (s : State) (m : Memory) : (s.withMem m).descs = s.descs := rfl
@[simp] theorem State.withMem_mem (s : State) (m : Memory) : (s.withMem m).mem = m := rfl
@[simp] theorem State.withMem_script (s : State) (m : Memory) : (s.withMem m).script = s.script := rfl
@[simp] theorem State.withMem_observed (s : State) (m : Memory) : (s.withMem m).observed = s.observed := rfl
@[simp] theorem State.withMem_initDraws (s : State) (m : Memory) : (s.withMem m).initDraws = s.initDraws := rfl
@[simp] theorem State.withMem_platform (s : State) (m : Memory) : (s.withMem m).platform = s.platform := rfl

/-! ### State.withScript -/

@[simp] theorem State.withScript_initDone (s : State) (as : List HostAction) : (s.withScript as).initDone = s.initDone := rfl
@[simp] theorem State.withScript_fatal (s : State) (as : List HostAction) : (s.withScript as).fatal = s.fatal := rfl
@[simp] theorem State.withScript_genValid (s : State) (as : List HostAction) : (s.withScript as).genValid = s.genValid := rfl
@[simp] theorem State.withScript_err (s : State) (as : List HostAction) : (s.withScript as).err = s.err := rfl
@[simp] theorem State.withScript_res (s : State) (as : List HostAction) : (s.withScript as).res = s.res := rfl
@[simp] theorem State.withScript_errSub (s : State) (as : List HostAction) : (s.withScript as).errSub = s.errSub := rfl
@[simp] theorem State.withScript_errPos (s : State) (as : List HostAction) : (s.withScript as).errPos = s.errPos := rfl
@[simp] theorem State.withScript_a0 (s : State) (as : List HostAction) : (s.withScript as).a0 = s.a0 := rfl
@[simp] theorem State.withScript_a1 (s : State) (as : List HostAction) : (s.withScript as).a1 = s.a1 := rfl
@[simp] theorem State.withScript_a2 (s : State) (as : List HostAction) : (s.withScript as).a2 = s.a2 := rfl
@[simp] theorem State.withScript_blockBytes (s : State) (as : List HostAction) : (s.withScript as).blockBytes = s.blockBytes := rfl
@[simp] theorem State.withScript_origCount (s : State) (as : List HostAction) : (s.withScript as).origCount = s.origCount := rfl
@[simp] theorem State.withScript_recovCount (s : State) (as : List HostAction) : (s.withScript as).recovCount = s.recovCount := rfl
@[simp] theorem State.withScript_genK (s : State) (as : List HostAction) : (s.withScript as).genK = s.genK := rfl
@[simp] theorem State.withScript_genM (s : State) (as : List HostAction) : (s.withScript as).genM = s.genM := rfl
@[simp] theorem State.withScript_descs (s : State) (as : List HostAction) : (s.withScript as).descs = s.descs := rfl
@[simp] theorem State.withScript_mem (s : State) (as : List HostAction) : (s.withScript as).mem = s.mem := rfl
@[simp] theorem State.withScript_script (s : State) (as : List HostAction) : (s.withScript as).script = as := rfl
@[simp] theorem State.withScript_observed (s : State) (as : List HostAction) : (s.withScript as).observed = s.observed := rfl
@[simp] theorem State.withScript_initDraws (s : State) (as : List HostAction) : (s.withScript as).initDraws = s.initDraws := rfl
@[simp] theorem State.withScript_platform (s : State) (as : List HostAction) : (s.withScript as).platform = s.platform := rfl

/-! ### State.observe -/

@[simp] theorem State.observe_initDone (s : State) (v : Word) : (s.observe v).initDone = s.initDone := rfl
@[simp] theorem State.observe_fatal (s : State) (v : Word) : (s.observe v).fatal = s.fatal := rfl
@[simp] theorem State.observe_genValid (s : State) (v : Word) : (s.observe v).genValid = s.genValid := rfl
@[simp] theorem State.observe_err (s : State) (v : Word) : (s.observe v).err = s.err := rfl
@[simp] theorem State.observe_res (s : State) (v : Word) : (s.observe v).res = s.res := rfl
@[simp] theorem State.observe_errSub (s : State) (v : Word) : (s.observe v).errSub = s.errSub := rfl
@[simp] theorem State.observe_errPos (s : State) (v : Word) : (s.observe v).errPos = s.errPos := rfl
@[simp] theorem State.observe_a0 (s : State) (v : Word) : (s.observe v).a0 = s.a0 := rfl
@[simp] theorem State.observe_a1 (s : State) (v : Word) : (s.observe v).a1 = s.a1 := rfl
@[simp] theorem State.observe_a2 (s : State) (v : Word) : (s.observe v).a2 = s.a2 := rfl
@[simp] theorem State.observe_blockBytes (s : State) (v : Word) : (s.observe v).blockBytes = s.blockBytes := rfl
@[simp] theorem State.observe_origCount (s : State) (v : Word) : (s.observe v).origCount = s.origCount := rfl
@[simp] theorem State.observe_recovCount (s : State) (v : Word) : (s.observe v).recovCount = s.recovCount := rfl
@[simp] theorem State.observe_genK (s : State) (v : Word) : (s.observe v).genK = s.genK := rfl
@[simp] theorem State.observe_genM (s : State) (v : Word) : (s.observe v).genM = s.genM := rfl
@[simp] theorem State.observe_descs (s : State) (v : Word) : (s.observe v).descs = s.descs := rfl
@[simp] theorem State.observe_mem (s : State) (v : Word) : (s.observe v).mem = s.mem := rfl
@[simp] theorem State.observe_script (s : State) (v : Word) : (s.observe v).script = s.script := rfl
@[simp] theorem State.observe_observed (s : State) (v : Word) : (s.observe v).observed = s.observed ++ [v] := rfl
@[simp] theorem State.observe_initDraws (s : State) (v : Word) : (s.observe v).initDraws = s.initDraws := rfl
@[simp] theorem State.observe_platform (s : State) (v : Word) : (s.observe v).platform = s.platform := rfl

/-! ### succeed -/

@[simp] theorem succeed_initDone (s : State) : (succeed s).initDone = s.initDone := rfl
@[simp] theorem succeed_fatal (s : State) : (succeed s).fatal = s.fatal := rfl
@[simp] theorem succeed_genValid (s : State) : (succeed s).genValid = s.genValid := rfl
@[simp] theorem succeed_err (s : State) : (succeed s).err = 0x00#8 := rfl
@[simp] theorem succeed_res (s : State) : (succeed s).res = s.res := rfl
@[simp] theorem succeed_errSub (s : State) : (succeed s).errSub = 0#8 := rfl
@[simp] theorem succeed_errPos (s : State) : (succeed s).errPos = 0#8 := rfl
@[simp] theorem succeed_a0 (s : State) : (succeed s).a0 = s.a0 := rfl
@[simp] theorem succeed_a1 (s : State) : (succeed s).a1 = s.a1 := rfl
@[simp] theorem succeed_a2 (s : State) : (succeed s).a2 = s.a2 := rfl
@[simp] theorem succeed_blockBytes (s : State) : (succeed s).blockBytes = s.blockBytes := rfl
@[simp] theorem succeed_origCount (s : State) : (succeed s).origCount = s.origCount := rfl
@[simp] theorem succeed_recovCount (s : State) : (succeed s).recovCount = s.recovCount := rfl
@[simp] theorem succeed_genK (s : State) : (succeed s).genK = s.genK := rfl
@[simp] theorem succeed_genM (s : State) : (succeed s).genM = s.genM := rfl
@[simp] theorem succeed_descs (s : State) : (succeed s).descs = s.descs := rfl
@[simp] theorem succeed_mem (s : State) : (succeed s).mem = s.mem := rfl
@[simp] theorem succeed_script (s : State) : (succeed s).script = s.script := rfl
@[simp] theorem succeed_observed (s : State) : (succeed s).observed = s.observed := rfl
@[simp] theorem succeed_initDraws (s : State) : (succeed s).initDraws = s.initDraws := rfl
@[simp] theorem succeed_platform (s : State) : (succeed s).platform = s.platform := rfl

/-! ### fail -/

@[simp] theorem fail_initDone (f : Failure) (s : State) : (fail f s).initDone = s.initDone := rfl
@[simp] theorem fail_fatal (f : Failure) (s : State) : (fail f s).fatal = s.fatal := rfl
@[simp] theorem fail_genValid (f : Failure) (s : State) : (fail f s).genValid = s.genValid := rfl
@[simp] theorem fail_err (f : Failure) (s : State) : (fail f s).err = f.code := rfl
@[simp] theorem fail_res (f : Failure) (s : State) : (fail f s).res = s.res := rfl
@[simp] theorem fail_errSub (f : Failure) (s : State) : (fail f s).errSub = f.sub := rfl
@[simp] theorem fail_errPos (f : Failure) (s : State) : (fail f s).errPos = f.pos := rfl
@[simp] theorem fail_a0 (f : Failure) (s : State) : (fail f s).a0 = s.a0 := rfl
@[simp] theorem fail_a1 (f : Failure) (s : State) : (fail f s).a1 = s.a1 := rfl
@[simp] theorem fail_a2 (f : Failure) (s : State) : (fail f s).a2 = s.a2 := rfl
@[simp] theorem fail_blockBytes (f : Failure) (s : State) : (fail f s).blockBytes = s.blockBytes := rfl
@[simp] theorem fail_origCount (f : Failure) (s : State) : (fail f s).origCount = s.origCount := rfl
@[simp] theorem fail_recovCount (f : Failure) (s : State) : (fail f s).recovCount = s.recovCount := rfl
@[simp] theorem fail_genK (f : Failure) (s : State) : (fail f s).genK = s.genK := rfl
@[simp] theorem fail_genM (f : Failure) (s : State) : (fail f s).genM = s.genM := rfl
@[simp] theorem fail_descs (f : Failure) (s : State) : (fail f s).descs = s.descs := rfl
@[simp] theorem fail_mem (f : Failure) (s : State) : (fail f s).mem = s.mem := rfl
@[simp] theorem fail_script (f : Failure) (s : State) : (fail f s).script = s.script := rfl
@[simp] theorem fail_observed (f : Failure) (s : State) : (fail f s).observed = s.observed := rfl
@[simp] theorem fail_initDraws (f : Failure) (s : State) : (fail f s).initDraws = s.initDraws := rfl
@[simp] theorem fail_platform (f : Failure) (s : State) : (fail f s).platform = s.platform := rfl

/-! ### raiseFatal -/

@[simp] theorem raiseFatal_initDone (f : Fatality) (s : State) : (raiseFatal f s).initDone = s.initDone := rfl
@[simp] theorem raiseFatal_fatal (f : Fatality) (s : State) : (raiseFatal f s).fatal = true := rfl
@[simp] theorem raiseFatal_genValid (f : Fatality) (s : State) : (raiseFatal f s).genValid = s.genValid := rfl
@[simp] theorem raiseFatal_err (f : Fatality) (s : State) : (raiseFatal f s).err = f.code := rfl
@[simp] theorem raiseFatal_res (f : Fatality) (s : State) : (raiseFatal f s).res = s.res := rfl
@[simp] theorem raiseFatal_errSub (f : Fatality) (s : State) : (raiseFatal f s).errSub = 0#8 := rfl
@[simp] theorem raiseFatal_errPos (f : Fatality) (s : State) : (raiseFatal f s).errPos = 0#8 := rfl
@[simp] theorem raiseFatal_a0 (f : Fatality) (s : State) : (raiseFatal f s).a0 = s.a0 := rfl
@[simp] theorem raiseFatal_a1 (f : Fatality) (s : State) : (raiseFatal f s).a1 = s.a1 := rfl
@[simp] theorem raiseFatal_a2 (f : Fatality) (s : State) : (raiseFatal f s).a2 = s.a2 := rfl
@[simp] theorem raiseFatal_blockBytes (f : Fatality) (s : State) : (raiseFatal f s).blockBytes = s.blockBytes := rfl
@[simp] theorem raiseFatal_origCount (f : Fatality) (s : State) : (raiseFatal f s).origCount = s.origCount := rfl
@[simp] theorem raiseFatal_recovCount (f : Fatality) (s : State) : (raiseFatal f s).recovCount = s.recovCount := rfl
@[simp] theorem raiseFatal_genK (f : Fatality) (s : State) : (raiseFatal f s).genK = s.genK := rfl
@[simp] theorem raiseFatal_genM (f : Fatality) (s : State) : (raiseFatal f s).genM = s.genM := rfl
@[simp] theorem raiseFatal_descs (f : Fatality) (s : State) : (raiseFatal f s).descs = s.descs := rfl
@[simp] theorem raiseFatal_mem (f : Fatality) (s : State) : (raiseFatal f s).mem = s.mem := rfl
@[simp] theorem raiseFatal_script (f : Fatality) (s : State) : (raiseFatal f s).script = s.script := rfl
@[simp] theorem raiseFatal_observed (f : Fatality) (s : State) : (raiseFatal f s).observed = s.observed := rfl
@[simp] theorem raiseFatal_initDraws (f : Fatality) (s : State) : (raiseFatal f s).initDraws = s.initDraws := rfl
@[simp] theorem raiseFatal_platform (f : Fatality) (s : State) : (raiseFatal f s).platform = s.platform := rfl

/-! ### resetUnit -/

@[simp] theorem resetUnit_initDone (s : State) : (resetUnit s).initDone = State.reset.initDone := rfl
@[simp] theorem resetUnit_fatal (s : State) : (resetUnit s).fatal = State.reset.fatal := rfl
@[simp] theorem resetUnit_genValid (s : State) : (resetUnit s).genValid = State.reset.genValid := rfl
@[simp] theorem resetUnit_err (s : State) : (resetUnit s).err = State.reset.err := rfl
@[simp] theorem resetUnit_res (s : State) : (resetUnit s).res = State.reset.res := rfl
@[simp] theorem resetUnit_errSub (s : State) : (resetUnit s).errSub = State.reset.errSub := rfl
@[simp] theorem resetUnit_errPos (s : State) : (resetUnit s).errPos = State.reset.errPos := rfl
@[simp] theorem resetUnit_a0 (s : State) : (resetUnit s).a0 = State.reset.a0 := rfl
@[simp] theorem resetUnit_a1 (s : State) : (resetUnit s).a1 = State.reset.a1 := rfl
@[simp] theorem resetUnit_a2 (s : State) : (resetUnit s).a2 = State.reset.a2 := rfl
@[simp] theorem resetUnit_blockBytes (s : State) : (resetUnit s).blockBytes = State.reset.blockBytes := rfl
@[simp] theorem resetUnit_origCount (s : State) : (resetUnit s).origCount = State.reset.origCount := rfl
@[simp] theorem resetUnit_recovCount (s : State) : (resetUnit s).recovCount = State.reset.recovCount := rfl
@[simp] theorem resetUnit_genK (s : State) : (resetUnit s).genK = State.reset.genK := rfl
@[simp] theorem resetUnit_genM (s : State) : (resetUnit s).genM = State.reset.genM := rfl
@[simp] theorem resetUnit_descs (s : State) : (resetUnit s).descs = State.reset.descs := rfl
@[simp] theorem resetUnit_mem (s : State) : (resetUnit s).mem = s.mem := rfl
@[simp] theorem resetUnit_script (s : State) : (resetUnit s).script = s.script := rfl
@[simp] theorem resetUnit_observed (s : State) : (resetUnit s).observed = s.observed := rfl
@[simp] theorem resetUnit_initDraws (s : State) : (resetUnit s).initDraws = s.initDraws := rfl
@[simp] theorem resetUnit_platform (s : State) : (resetUnit s).platform = s.platform := rfl

/-! ### writeReg -/

@[simp] theorem writeReg_initDone (r : Reg) (v : Word) (s : State) : (writeReg r v s).initDone = s.initDone := by
  cases r <;> rfl
@[simp] theorem writeReg_fatal (r : Reg) (v : Word) (s : State) : (writeReg r v s).fatal = s.fatal := by
  cases r <;> rfl
@[simp] theorem writeReg_genValid (r : Reg) (v : Word) (s : State) : (writeReg r v s).genValid = s.genValid := by
  cases r <;> rfl
@[simp] theorem writeReg_err (r : Reg) (v : Word) (s : State) : (writeReg r v s).err = s.err := by
  cases r <;> rfl
@[simp] theorem writeReg_res (r : Reg) (v : Word) (s : State) : (writeReg r v s).res = s.res := by
  cases r <;> rfl
@[simp] theorem writeReg_errSub (r : Reg) (v : Word) (s : State) : (writeReg r v s).errSub = s.errSub := by
  cases r <;> rfl
@[simp] theorem writeReg_errPos (r : Reg) (v : Word) (s : State) : (writeReg r v s).errPos = s.errPos := by
  cases r <;> rfl
@[simp] theorem writeReg_a0 (r : Reg) (v : Word) (s : State) :
    (writeReg r v s).a0 = if r = .a0 then v else s.a0 := by cases r <;> rfl
@[simp] theorem writeReg_a1 (r : Reg) (v : Word) (s : State) :
    (writeReg r v s).a1 = if r = .a1 then v else s.a1 := by cases r <;> rfl
@[simp] theorem writeReg_a2 (r : Reg) (v : Word) (s : State) :
    (writeReg r v s).a2 = if r = .a2 then v else s.a2 := by cases r <;> rfl
@[simp] theorem writeReg_blockBytes (r : Reg) (v : Word) (s : State) :
    (writeReg r v s).blockBytes = if r = .blockBytes then v else s.blockBytes := by cases r <;> rfl
@[simp] theorem writeReg_origCount (r : Reg) (v : Word) (s : State) :
    (writeReg r v s).origCount = if r = .origCount then v else s.origCount := by cases r <;> rfl
@[simp] theorem writeReg_recovCount (r : Reg) (v : Word) (s : State) :
    (writeReg r v s).recovCount = if r = .recovCount then v else s.recovCount := by cases r <;> rfl
@[simp] theorem writeReg_genK (r : Reg) (v : Word) (s : State) : (writeReg r v s).genK = s.genK := by
  cases r <;> rfl
@[simp] theorem writeReg_genM (r : Reg) (v : Word) (s : State) : (writeReg r v s).genM = s.genM := by
  cases r <;> rfl
@[simp] theorem writeReg_descs (r : Reg) (v : Word) (s : State) : (writeReg r v s).descs = s.descs := by
  cases r <;> rfl
@[simp] theorem writeReg_mem (r : Reg) (v : Word) (s : State) : (writeReg r v s).mem = s.mem := by
  cases r <;> rfl
@[simp] theorem writeReg_script (r : Reg) (v : Word) (s : State) : (writeReg r v s).script = s.script := by
  cases r <;> rfl
@[simp] theorem writeReg_observed (r : Reg) (v : Word) (s : State) : (writeReg r v s).observed = s.observed := by
  cases r <;> rfl
@[simp] theorem writeReg_initDraws (r : Reg) (v : Word) (s : State) : (writeReg r v s).initDraws = s.initDraws := by
  cases r <;> rfl
@[simp] theorem writeReg_platform (r : Reg) (v : Word) (s : State) : (writeReg r v s).platform = s.platform := by
  cases r <;> rfl

end Sys2Proof.Machine
end

