-- ==== Sys2Proof/Laws/Ops.lean ====
section
/-! SUPPORT. What each shared operation can answer, said once: the common steps of a command, the checks before its effect,
the host duties, the register window. -/

namespace Sys2Proof.Machine

/-! ### The common steps (R69) -/

theorem whenReady_of_fatal {s : State} (h : s.fatal = true) (b : Host.Outcome State Fault Refusal) :
    whenReady s b = .next s := by simp [whenReady, h]

theorem whenReady_of_not_init {s : State} (hf : s.fatal = false) (hi : s.initDone = false)
    (b : Host.Outcome State Fault Refusal) : whenReady s b = .next (fail .notInit s) := by
  simp [whenReady, hf, hi]

theorem whenReady_of_ready {s : State} (h : s.ready) (b : Host.Outcome State Fault Refusal) : whenReady s b = b := by
  simp [whenReady, h.1, h.2]

/-- A command that answers a next state was ignored, failed with NOTINIT, or ran its own rule. -/
theorem whenReady_next {s t : State} {b : Host.Outcome State Fault Refusal} (h : whenReady s b = .next t) :
    (s.fatal = true ∧ t = s) ∨ (s.fatal = false ∧ s.initDone = false ∧ t = fail .notInit s) ∨
      (s.ready ∧ b = .next t) := by
  unfold whenReady at h
  split at h
  · next hf => exact .inl ⟨hf, (Host.Outcome.next.inj h).symm⟩
  · next hf =>
    have hf : s.fatal = false := by simpa using hf
    split at h
    · next hi => exact .inr (.inr ⟨⟨hf, hi⟩, h⟩)
    · next hi => exact .inr (.inl ⟨hf, by simpa using hi, (Host.Outcome.next.inj h).symm⟩)

theorem whenReady_refused {s : State} {r : Refusal} {b : Host.Outcome State Fault Refusal}
    (h : whenReady s b = .refused r) : s.ready ∧ b = .refused r := by
  unfold whenReady at h
  split at h
  · simp at h
  · next hf =>
    split at h
    · next hi => exact ⟨⟨by simpa using hf, hi⟩, h⟩
    · simp at h

/-! ### Checks before the effect (R163, R168) -/

@[simp] theorem afterChecks_some (s : State) (f : Failure) (b : Host.Outcome State Fault Refusal) :
    afterChecks s (some f) b = .next (fail f s) := rfl

@[simp] theorem afterChecks_none (s : State) (b : Host.Outcome State Fault Refusal) : afterChecks s none b = b := rfl

theorem afterChecks_next {s t : State} {c : Option Failure} {b : Host.Outcome State Fault Refusal}
    (h : afterChecks s c b = .next t) : (∃ f, c = some f ∧ t = fail f s) ∨ (c = none ∧ b = .next t) := by
  cases c with
  | none => exact .inr ⟨rfl, h⟩
  | some f => exact .inl ⟨f, rfl, (Host.Outcome.next.inj h).symm⟩

theorem afterChecks_refused {s : State} {r : Refusal} {c : Option Failure} {b : Host.Outcome State Fault Refusal}
    (h : afterChecks s c b = .refused r) : c = none ∧ b = .refused r := by
  cases c with
  | none => exact ⟨rfl, h⟩
  | some f => simp at h

/-! ### Host duties (R46, R57) -/

theorem accessing_next {s t u : State} {bufs : List Buffer} (h : accessing s bufs t = .next u) :
    dutyBroken s.platform bufs = none ∧ u = t := by
  unfold accessing at h
  split at h
  · simp at h
  · next hd => exact ⟨hd, (Host.Outcome.next.inj h).symm⟩

theorem accessing_of_duties {s : State} {bufs : List Buffer} (h : dutyBroken s.platform bufs = none) (t : State) :
    accessing s bufs t = .next t := by simp [accessing, h]

theorem accessing_refused {s t : State} {bufs : List Buffer} {r : Refusal} (h : accessing s bufs t = .refused r) :
    dutyBroken s.platform bufs = some r := by
  unfold accessing at h
  split at h
  · next hd => rw [hd, Host.Outcome.refused.inj h]
  · simp at h

theorem dutyBroken_eq_none_iff (p : Platform) (bufs : List Buffer) :
    dutyBroken p bufs = none ↔ (∀ b ∈ bufs, p.ordinary b.range = true) ∧ noOverlap bufs = true := by
  unfold dutyBroken
  split
  · next h => rw [List.all_eq_true] at h; split <;> simp_all
  · next h => rw [List.all_eq_true] at h; simp [h]

/-- The only refusals a command that accesses memory can give. -/
theorem dutyBroken_cases {p : Platform} {bufs : List Buffer} {r : Refusal} (h : dutyBroken p bufs = some r) :
    r = .overlappingBuffers ∨ r = .bufferNotOrdinaryMemory := by
  unfold dutyBroken at h
  split at h
  · split at h
    · simp at h
    · exact .inl (Option.some.inj h).symm
  · exact .inr (Option.some.inj h).symm

@[simp] theorem dutyBroken_nil (p : Platform) : dutyBroken p [] = none := rfl

/-- The Boolean test is the spec's "share no byte". -/
theorem Range.disjoint_iff (x y : Range) : x.disjoint y = true ↔ x.apart y := by
  simp only [Range.disjoint, Range.apart, Range.has, Bool.or_eq_true, decide_eq_true_eq, not_and]
  constructor
  · intro h a ha
    omega
  · intro h
    have h1 := h x.base
    have h2 := h y.base
    omega

theorem Range.disjoint_comm (x y : Range) : x.disjoint y = y.disjoint x := by
  rw [Bool.eq_iff_iff, Range.disjoint_iff, Range.disjoint_iff]
  exact ⟨fun h a ha => h a ha.symm, fun h a ha => h a ha.symm⟩

theorem Platform.ordinary_iff (p : Platform) (r : Range) : p.ordinary r = true ↔ p.allows r := by
  simp [Platform.ordinary, Platform.allows, List.all_eq_true, Range.disjoint_iff]

theorem noOverlap_iff (bufs : List Buffer) :
    noOverlap bufs = true ↔ bufs.Pairwise fun x y => x.compatible y = true := by
  induction bufs with
  | nil => simp [noOverlap]
  | cons b bs ih => simp [noOverlap, ih, List.pairwise_cons, List.all_eq_true]

theorem Buffer.compatible_iff (x y : Buffer) :
    x.compatible y = true ↔ (x.written = true ∨ y.written = true → x.range.apart y.range) := by
  unfold Buffer.compatible
  rw [Bool.or_eq_true, Range.disjoint_iff]
  cases x.written <;> cases y.written <;> simp

/-! ### The register window (R15, R16) -/

theorem Reg.number_lt (r : Reg) : r.number < 16 := by cases r <;> decide

theorem mem_allRegs (r : Reg) : r ∈ allRegs := by cases r <;> decide

theorem Reg.number_injective (r q : Reg) (h : r.number = q.number) : r = q := by
  revert h; cases r <;> cases q <;> decide

/-- An aligned 32-bit access at REG_BASE + 4·n names register n, and nothing else names one. -/
theorem windowReg_eq_some_iff (base addr bytes : Nat) (r : Reg) :
    windowReg base addr bytes = some r ↔ bytes = 4 ∧ addr = base + 4 * r.number := by
  unfold windowReg
  split
  · next hb =>
    constructor
    · intro h
      exact ⟨hb, by simpa using List.find?_some h⟩
    · rintro ⟨-, h⟩
      cases hq : allRegs.find? fun q => decide (addr = base + 4 * q.number) with
      | none => exact absurd h (by simpa using List.find?_eq_none.1 hq r (mem_allRegs r))
      | some q =>
        have : addr = base + 4 * q.number := by simpa using List.find?_some hq
        rw [Reg.number_injective q r (by omega)]
  · next hb => simp [hb]

@[simp] theorem readReg_observe (r : Reg) (s : State) (v : Word) : readReg r (s.observe v) = readReg r s := by
  cases r <;> rfl

@[simp] theorem readReg_withScript (r : Reg) (s : State) (as : List HostAction) :
    readReg r (s.withScript as) = readReg r s := by cases r <;> rfl

end Sys2Proof.Machine
end

