-- ==== Sys2Proof/Laws/Operands.lean ====
section
/-! SUPPORT. The checks of the commands in the words of their rules: when each finds no failure. -/

namespace Sys2Proof.Machine

theorem passesTop_eq_false_iff (a n : Word) : passesTop a n = false ↔ a.toNat + n.toNat ≤ 2 ^ 32 := by
  simp [passesTop, Config.addrSpace]

theorem countsFailure_eq_none_iff (k m : Nat) : countsFailure k m = none ↔ 1 ≤ k ∧ k ≤ 256 ∧ m ≤ 256 - k := by
  have h256 : Config.maxBlocks = 256 := rfl
  unfold countsFailure
  by_cases h : k < 1 ∨ k > Config.maxBlocks
  · rw [if_pos h, h256] at *
    simp only [reduceCtorEq, false_iff]
    omega
  · rw [if_neg h]
    by_cases hm : m > Config.maxBlocks - k
    · rw [if_pos hm, h256] at *
      simp only [reduceCtorEq, false_iff]
      omega
    · rw [if_neg hm]
      rw [h256] at h hm
      simp only [true_iff]
      omega

theorem State.countsLegal_iff (s : State) :
    s.CountsLegal ↔ countsFailure s.origCount.toNat s.recovCount.toNat = none := by
  rw [countsFailure_eq_none_iff]
  exact ⟨fun h => ⟨h.1, h.2, h.3⟩, fun h => ⟨h.1, h.2.1, h.2.2⟩⟩

theorem paramsFailure_eq_none_iff (b k m : Nat) :
    paramsFailure b k m = none ↔ b ≠ 0 ∧ countsFailure k m = none := by
  unfold paramsFailure
  split <;> simp_all

/-- Every failure of the counts is a configuration failure. -/
theorem countsFailure_code {k m : Nat} {f : Failure} (h : countsFailure k m = some f) : f.code = 0x01#8 := by
  unfold countsFailure at h
  split at h
  · rw [← Option.some.inj h]; rfl
  · split at h
    · rw [← Option.some.inj h]; rfl
    · simp at h

theorem lengthFailure_eq_none_iff (b : Nat) (ds : List Descriptor) :
    lengthFailure b ds = none ↔ ∀ d ∈ ds, d.len.toNat = b := by
  simp only [lengthFailure, List.findSome?_eq_none_iff, ite_eq_right_iff, reduceCtorEq, imp_false, Decidable.not_not]
  constructor
  · intro h d hd
    obtain ⟨p, hp⟩ := List.mem_iff_getElem?.1 hd
    exact h (d, p) (by simpa [List.mem_zipIdx_iff_getElem?] using hp)
  · rintro h ⟨d, p⟩ hd
    exact h d (List.mem_of_getElem? (List.mem_zipIdx_iff_getElem?.1 hd))

theorem encodeFailure_eq_none_iff (b k m : Nat) (ds : List Descriptor) :
    encodeFailure b k m ds = none ↔
      b ≠ 0 ∧ countsFailure k m = none ∧ ds.length = k + m ∧ ∀ d ∈ ds, d.len.toNat = b := by
  unfold encodeFailure
  split
  · next f h =>
    have : paramsFailure b k m ≠ none := by simp [h]
    rw [Ne, paramsFailure_eq_none_iff] at this
    simp; tauto
  · next h =>
    rw [paramsFailure_eq_none_iff] at h
    split <;> simp_all [lengthFailure_eq_none_iff]

theorem slotFailure_eq_none_iff (b k m : Nat) (ds : List Descriptor) (d : Descriptor) (p : Nat) :
    slotFailure b k m ds d p = none ↔
      d.len.toNat = b ∧ d.idx.toNat < k + m ∧ (d.idx.toNat < k → d.idx.toNat = p) ∧
        ∀ e ∈ ds.take p, e.idx ≠ d.idx := by
  unfold slotFailure
  split
  · simp_all
  · split
    · simp; omega
    · split
      · simp; omega
      · split
        · next h => simp only [List.any_eq_true, decide_eq_true_eq] at h; simp; intros; exact h
        · next h1 h2 h3 h4 =>
          simp only [List.any_eq_true, decide_eq_true_eq, not_exists, not_and] at h4
          simp only [true_iff]
          exact ⟨by omega, by omega, by omega, fun e he => h4 e he⟩

theorem decodeFailure_eq_none_iff (b k m : Nat) (ds : List Descriptor) :
    decodeFailure b k m ds = none ↔
      b ≠ 0 ∧ countsFailure k m = none ∧ ds.length = k ∧
        ∀ p d, ds[p]? = some d → slotFailure b k m ds d p = none := by
  unfold decodeFailure
  split
  · next f h =>
    have : paramsFailure b k m ≠ none := by simp [h]
    rw [Ne, paramsFailure_eq_none_iff] at this
    simp; tauto
  · next h =>
    rw [paramsFailure_eq_none_iff] at h
    split
    · simp_all
    · next hl =>
      simp only [Decidable.not_not] at hl
      rw [List.findSome?_eq_none_iff]
      refine ⟨fun hs => ⟨h.1, h.2, hl, fun p d hd => hs (d, p) (List.mem_zipIdx_iff_getElem?.2 hd)⟩, fun hs => ?_⟩
      rintro ⟨d, p⟩ hd
      exact hs.2.2.2 p d (List.mem_zipIdx_iff_getElem?.1 hd)

theorem State.encodeLegal_iff (s : State) :
    s.EncodeLegal ↔
      encodeFailure s.blockBytes.toNat s.origCount.toNat s.recovCount.toNat s.descs = none := by
  rw [encodeFailure_eq_none_iff, ← State.countsLegal_iff]
  constructor
  · intro h
    exact ⟨fun e => h.1 (BitVec.eq_of_toNat_eq (by simpa using e)), h.2, h.3, fun d hd => by rw [h.4 d hd]⟩
  · intro h
    exact ⟨fun e => h.1 (by simp [e]), h.2.1, h.2.2.1, fun d hd => BitVec.eq_of_toNat_eq (h.2.2.2 d hd)⟩

theorem State.decodeLegal_iff (s : State) :
    s.DecodeLegal ↔
      decodeFailure s.blockBytes.toNat s.origCount.toNat s.recovCount.toNat s.descs = none := by
  rw [decodeFailure_eq_none_iff, ← State.countsLegal_iff]
  simp only [slotFailure_eq_none_iff]
  constructor
  · intro h
    refine ⟨fun e => h.1 (BitVec.eq_of_toNat_eq (by simpa using e)), h.2, h.3, fun p d hd => ?_⟩
    have hs := h.4 p d hd
    refine ⟨by rw [hs.1], hs.2, hs.3, fun e he heq => ?_⟩
    obtain ⟨q, hq⟩ := List.mem_iff_getElem?.1 he
    rw [List.getElem?_take] at hq
    split at hq
    · next hlt => have := h.5 q p e d hq hd heq; omega
    · simp at hq
  · intro h
    refine ⟨fun e => h.1 (by simp [e]), h.2.1, h.2.2.1, fun p d hd => ?_, fun p q d e hp hq heq => ?_⟩
    · have hs := h.2.2.2 p d hd
      exact ⟨BitVec.eq_of_toNat_eq hs.1, hs.2.1, hs.2.2.1⟩
    · have before : ∀ (p q : Nat) (d e : Descriptor), s.descs[p]? = some d → s.descs[q]? = some e → d.idx = e.idx →
          ¬ p < q := by
        intro p q d e hp hq heq hlt
        exact (h.2.2.2 q e hq).2.2.2 d (List.mem_iff_getElem?.2 ⟨p, by rw [List.getElem?_take, if_pos hlt, hp]⟩) heq
      have := before p q d e hp hq heq
      have := before q p e d hq hp heq.symm
      omega

end Sys2Proof.Machine
end

