-- ==== Sys2Proof/Laws/Codec.lean ====
section
/-! SUPPORT. The parts of ENCODE and DECODE: sums, erased and correct slots, the tags after DECODE, the blocks stored, and the
host duties in the words of R57. -/

namespace Sys2Proof.Machine

/-! ### Sums (`00_scope.md` 6.2) -/

@[simp] theorem xorSum_nil : xorSum [] = 0#8 := rfl

@[simp] theorem xorSum_cons (b : Byte) (bs : List Byte) : xorSum (b :: bs) = b ^^^ xorSum bs := rfl

@[simp] theorem xorSum_append (bs cs : List Byte) : xorSum (bs ++ cs) = xorSum bs ^^^ xorSum cs := by
  induction bs with
  | nil => simp
  | cons b bs ih => rw [List.cons_append, xorSum_cons, xorSum_cons, ih, BitVec.xor_assoc]

theorem xorSum_perm {bs cs : List Byte} (h : bs.Perm cs) : xorSum bs = xorSum cs := by
  induction h with
  | nil => rfl
  | cons b _ ih => rw [xorSum_cons, xorSum_cons, ih]
  | swap b c bs =>
    rw [xorSum_cons, xorSum_cons, xorSum_cons, xorSum_cons, ← BitVec.xor_assoc, ← BitVec.xor_assoc, BitVec.xor_comm c b]
  | trans _ _ ih₁ ih₂ => rw [ih₁, ih₂]

/-! ### Slots (R142, R145) -/

theorem mem_erasedSlots (k : Nat) (ds : List Descriptor) (d : Descriptor) (p : Nat) :
    (d, p) ∈ erasedSlots k ds ↔ ds[p]? = some d ∧ k ≤ d.idx.toNat := by
  simp [erasedSlots, List.mem_zipIdx_iff_getElem?]

theorem mem_correctSlots (k : Nat) (ds : List Descriptor) (d : Descriptor) (p : Nat) :
    (d, p) ∈ correctSlots k ds ↔ ds[p]? = some d ∧ d.idx.toNat < k := by
  simp [correctSlots, List.mem_zipIdx_iff_getElem?]

theorem erasedSlots_eq_nil_iff (k : Nat) (ds : List Descriptor) :
    erasedSlots k ds = [] ↔ ∀ d ∈ ds, d.idx.toNat < k := by
  rw [List.eq_nil_iff_forall_not_mem]
  constructor
  · intro h d hd
    obtain ⟨p, hp⟩ := List.mem_iff_getElem?.1 hd
    by_contra hk
    exact h (d, p) ((mem_erasedSlots k ds d p).2 ⟨hp, by omega⟩)
  · rintro h ⟨d, p⟩ hm
    obtain ⟨hp, hk⟩ := (mem_erasedSlots k ds d p).1 hm
    have := h d (List.mem_of_getElem? hp)
    omega

/-- Erased positions are distinct. -/
theorem erasedSlots_positions_nodup (k : Nat) (ds : List Descriptor) : ((erasedSlots k ds).map (·.2)).Nodup := by
  have hz : (ds.zipIdx.map (·.2)).Nodup := by
    rw [show (fun x : Descriptor × Nat => x.2) = Prod.snd from rfl, List.zipIdx_map_snd]
    exact List.nodup_range'
  exact hz.sublist ((List.filter_sublist).map _)

@[simp] theorem length_submatrix (k : Nat) (ds : List Descriptor) :
    (submatrix k ds).length = (erasedSlots k ds).length := by simp [submatrix]

theorem length_of_mem_submatrix (k : Nat) (ds : List Descriptor) (row : List Byte) (h : row ∈ submatrix k ds) :
    row.length = (submatrix k ds).length := by
  simp only [submatrix, List.mem_map] at h
  obtain ⟨_, -, rfl⟩ := h
  simp

/-! ### The tags after DECODE (R151) -/

@[simp] theorem length_retagged (k : Nat) (ds : List Descriptor) : (retagged k ds).length = ds.length := by
  simp [retagged]

theorem getElem?_retagged (k : Nat) (ds : List Descriptor) (p : Nat) :
    (retagged k ds)[p]? =
      ds[p]?.map fun (d : Descriptor) => if k ≤ d.idx.toNat then { d with idx := BitVec.ofNat 8 p } else d := by
  simp only [retagged, List.getElem?_map, List.getElem?_zipIdx, Option.map_map, Nat.zero_add]
  rfl

/-- A table without an erased slot is left as it is. -/
theorem retagged_of_no_erasure {k : Nat} {ds : List Descriptor} (h : ∀ d ∈ ds, d.idx.toNat < k) :
    retagged k ds = ds := by
  apply List.ext_getElem?
  intro p
  rw [getElem?_retagged]
  cases hd : ds[p]? with
  | none => rfl
  | some d =>
    have := h d (List.mem_of_getElem? hd)
    simp only [Option.map_some, Option.some.injEq, ite_eq_right_iff]
    omega

/-- DECODE changes tags only. -/
theorem retagged_map_addr_len (k : Nat) (ds : List Descriptor) :
    (retagged k ds).map (fun d => (d.addr, d.len)) = ds.map fun d => (d.addr, d.len) := by
  apply List.ext_getElem?
  intro p
  rw [List.getElem?_map, getElem?_retagged, List.getElem?_map, Option.map_map]
  congr 1
  funext d
  dsimp only [Function.comp_apply]
  split <;> rfl

/-! ### The blocks stored (R128, R149) -/

theorem mem_encodeStores {m : Memory} {k : Nat} {ds : List Descriptor} {b : Nat × (Nat → Byte)} :
    b ∈ encodeStores m k ds ↔
      ∃ (r : Nat) (d : Descriptor), ds[k + r]? = some d ∧ b = (d.addr.toNat, recoveryByte m k (ds.take k) r) := by
  simp only [encodeStores, List.mem_map, Prod.exists, List.mem_zipIdx_iff_getElem?, List.getElem?_drop]
  constructor
  · rintro ⟨d, r, h, rfl⟩; exact ⟨r, d, h, rfl⟩
  · rintro ⟨r, d, h, rfl⟩; exact ⟨d, r, h, rfl⟩

theorem exists_erased_of_mem_decodeStores {m : Memory} {k : Nat} {ds : List Descriptor} {W : GfMatrix}
    {b : Nat × (Nat → Byte)} (h : b ∈ decodeStores m k ds W) :
    ∃ (p : Nat) (d : Descriptor) (w : List Byte), ds[p]? = some d ∧ k ≤ d.idx.toNat ∧ w ∈ W ∧ b = (d.addr.toNat, solvedByte m k ds w) := by
  obtain ⟨i, hi⟩ := List.mem_iff_getElem?.1 h
  rw [decodeStores, List.getElem?_zipWith] at hi
  cases he : (erasedSlots k ds)[i]? with
  | none => simp [he] at hi
  | some dp =>
    cases hw : W[i]? with
    | none => simp [he, hw] at hi
    | some w =>
      obtain ⟨d, p⟩ := dp
      obtain ⟨hp, hk⟩ := (mem_erasedSlots k ds d p).1 (List.mem_of_getElem? he)
      simp only [he, hw, Option.some.injEq] at hi
      exact ⟨p, d, w, hp, hk, List.mem_of_getElem? hw, hi.symm⟩

/-! ### Host duties (R57, R132, R153) -/

theorem pairwise_compatible_iff (bufs : List Buffer) :
    (bufs.Pairwise fun x y => x.compatible y = true) ↔
      ∀ (p q : Nat) (x y : Buffer), bufs[p]? = some x → bufs[q]? = some y → p ≠ q → x.written = true →
        x.range.apart y.range := by
  rw [List.pairwise_iff_getElem]
  constructor
  · intro h p q x y hx hy hpq hw
    obtain ⟨hp, rfl⟩ := List.getElem?_eq_some_iff.1 hx
    obtain ⟨hq, rfl⟩ := List.getElem?_eq_some_iff.1 hy
    rcases Nat.lt_or_gt_of_ne hpq with hlt | hgt
    · exact (Buffer.compatible_iff _ _).1 (h p q hp hq hlt) (.inl hw)
    · exact fun a ha => (Buffer.compatible_iff _ _).1 (h q p hq hp hgt) (.inr hw) a ha.symm
  · intro h p q hp hq hlt
    rw [Buffer.compatible_iff]
    rintro (hw | hw)
    · exact h p q _ _ (List.getElem?_eq_getElem hp) (List.getElem?_eq_getElem hq) (by omega) hw
    · exact fun a ha =>
        h q p _ _ (List.getElem?_eq_getElem hq) (List.getElem?_eq_getElem hp) (by omega) hw a ha.symm

/-- A list of buffers made from descriptors by position keeps the duties when every buffer is ordinary memory and every
written one is apart from the others. -/
theorem dutyBroken_map_eq_none_iff (pl : Platform) (n : Nat) (ds : List Descriptor) (wr : Nat → Descriptor → Bool)
    (hn : ∀ d ∈ ds, d.len.toNat = n) :
    dutyBroken pl (ds.zipIdx.map fun (d, p) => d.buffer n (wr p d)) = none ↔
      (∀ d ∈ ds, pl.allows d.range) ∧
        ∀ (p q : Nat) (d e : Descriptor), ds[p]? = some d → ds[q]? = some e → wr p d = true → p ≠ q →
          d.range.apart e.range := by
  have hr : ∀ (p : Nat) (d : Descriptor) (w : Bool), ds[p]? = some d → (d.buffer n w).range = d.range := by
    intro p d w h
    simp only [Descriptor.buffer, Descriptor.range, hn d (List.mem_of_getElem? h)]
  have hget : ∀ p, (ds.zipIdx.map fun (d, p) => d.buffer n (wr p d))[p]? =
      ds[p]?.map fun (d : Descriptor) => d.buffer n (wr p d) := by
    intro p
    simp only [List.getElem?_map, List.getElem?_zipIdx, Option.map_map, Nat.zero_add]
    rfl
  rw [dutyBroken_eq_none_iff, noOverlap_iff, pairwise_compatible_iff]
  refine and_congr ⟨fun h d hd => ?_, fun h b hb => ?_⟩ ⟨fun h p q d e hd he hw hpq => ?_, fun h p q x y hx hy hpq hw => ?_⟩
  · obtain ⟨p, hp⟩ := List.mem_iff_getElem?.1 hd
    have := h (d.buffer n (wr p d)) (List.mem_iff_getElem?.2 ⟨p, by rw [hget, hp]; rfl⟩)
    rw [hr p d _ hp, Platform.ordinary_iff] at this
    exact this
  · obtain ⟨p, hp⟩ := List.mem_iff_getElem?.1 hb
    rw [hget, Option.map_eq_some_iff] at hp
    obtain ⟨d, hd, rfl⟩ := hp
    rw [hr p d _ hd, Platform.ordinary_iff]
    exact h d (List.mem_of_getElem? hd)
  · have := h p q (d.buffer n (wr p d)) (e.buffer n (wr q e)) (by rw [hget, hd]; rfl) (by rw [hget, he]; rfl) hpq hw
    rwa [hr p d _ hd, hr q e _ he] at this
  · rw [hget, Option.map_eq_some_iff] at hx hy
    obtain ⟨d, hd, rfl⟩ := hx
    obtain ⟨e, he, rfl⟩ := hy
    rw [hr p d _ hd, hr q e _ he]
    exact h p q d e hd he hw hpq

/-- ENCODE's buffers by position: the first k are read, the others written. -/
theorem encodeBuffers_eq (n k : Nat) (ds : List Descriptor) (hl : k ≤ ds.length) :
    encodeBuffers n k ds = ds.zipIdx.map fun (d, p) => d.buffer n (decide (k ≤ p)) := by
  rw [encodeBuffers]
  apply List.ext_getElem?
  intro p
  simp only [List.getElem?_append, List.length_map, List.length_take, List.getElem?_map, List.getElem?_zipIdx,
    Option.map_map, Nat.zero_add, List.getElem?_take, List.getElem?_drop]
  by_cases h : p < k
  · rw [if_pos (by omega), if_pos h]
    congr 1
    funext d
    simp only [Function.comp_apply]
    rw [show decide (k ≤ p) = false by simp; omega]
  · rw [if_neg (by omega), show min k ds.length = k by omega, show k + (p - k) = p by omega]
    congr 1
    funext d
    simp only [Function.comp_apply]
    rw [show decide (k ≤ p) = true by simp; omega]

/-- For an ENCODE that passes its checks the model's test is R132. -/
theorem encode_duties_iff {s : State} (h : s.EncodeLegal) :
    dutyBroken s.platform (encodeBuffers s.blockBytes.toNat s.origCount.toNat s.descs) = none ↔ s.EncodeDuties := by
  rw [encodeBuffers_eq _ _ _ (h.count ▸ Nat.le_add_right _ _),
    dutyBroken_map_eq_none_iff _ _ _ (fun p _ => decide (s.origCount.toNat ≤ p)) fun d hd => by rw [h.lengths d hd]]
  simp only [decide_eq_true_eq]
  exact ⟨fun hd => ⟨hd.1, hd.2⟩, fun hd => ⟨hd.1, hd.2⟩⟩

/-- DECODE's buffers by position. -/
theorem decodeBuffers_eq (n k : Nat) (ds : List Descriptor) :
    decodeBuffers n k ds = ds.zipIdx.map fun (d, _) => d.buffer n (decide (k ≤ d.idx.toNat)) := by
  apply List.ext_getElem?
  intro p
  simp only [decodeBuffers, List.getElem?_map, List.getElem?_zipIdx, Option.map_map]
  rfl

/-- For a DECODE that passes its checks the model's test is R153. -/
theorem decode_duties_iff {s : State} (h : s.DecodeLegal) :
    dutyBroken s.platform (decodeBuffers s.blockBytes.toNat s.origCount.toNat s.descs) = none ↔ s.DecodeDuties := by
  rw [decodeBuffers_eq,
    dutyBroken_map_eq_none_iff _ _ _ (fun _ d => decide (s.origCount.toNat ≤ d.idx.toNat)) fun d hd => by
      obtain ⟨p, hp⟩ := List.mem_iff_getElem?.1 hd
      rw [(h.slots p d hp).length]]
  simp only [decide_eq_true_eq]
  exact ⟨fun hd => ⟨hd.1, hd.2⟩, fun hd => ⟨hd.1, hd.2⟩⟩

/-- For MULACC the model's test is R57 and R46. -/
theorem mulacc_duties_iff (s : State) :
    dutyBroken s.platform (mulaccBuffers s) = none ↔
      s.mulaccDst.apart s.mulaccSrc ∧ s.platform.allows s.mulaccDst ∧ s.platform.allows s.mulaccSrc := by
  rw [dutyBroken_eq_none_iff]
  simp [mulaccBuffers, noOverlap, Buffer.compatible, Range.disjoint_iff, Platform.ordinary_iff, State.mulaccDst,
    State.mulaccSrc]
  tauto

end Sys2Proof.Machine
end

