-- ==== Sys2Proof/Laws/Exec.lean ====
section
/-! SUPPORT. What each command can do when it answers a next state, said once per meaning; proofs cite these instead of
unfolding a meaning. -/

namespace Sys2Proof.Machine

/-- A command did not run its own rule: ignored, or failed with NOTINIT (R69 steps 1 and 3). -/
def NotRun (s t : State) : Prop :=
  (s.fatal = true ∧ t = s) ∨ (s.fatal = false ∧ s.initDone = false ∧ t = fail .notInit s)

theorem whenReady_next_cases {s t : State} {b : Host.Outcome State Fault Refusal} (h : whenReady s b = .next t) :
    NotRun s t ∨ (s.ready ∧ b = .next t) := by
  rcases whenReady_next h with h | h | h
  · exact .inl (.inl h)
  · exact .inl (.inr h)
  · exact .inr h

theorem execInit_next {s t : State} (h : execInit s = .next t) :
    (s.fatal = true ∧ t = s) ∨ (s.fatal = false ∧ s.initDone = true ∧ t = succeed s) ∨
      (s.fatal = false ∧ s.initDone = false ∧
        t = initOutcome (Config.initSelftestOk s.initDraws) { s with initDraws := s.initDraws + 1 }) := by
  unfold execInit at h
  split at h
  · next hf => exact .inl ⟨hf, (Host.Outcome.next.inj h).symm⟩
  · next hf =>
    have hf : s.fatal = false := by simpa using hf
    split at h
    · next hi => exact .inr (.inl ⟨hf, hi, (Host.Outcome.next.inj h).symm⟩)
    · next hi => exact .inr (.inr ⟨hf, by simpa using hi, (Host.Outcome.next.inj h).symm⟩)

theorem execGfmul_next {a b : Byte} {s t : State} (h : execGfmul a b s = .next t) :
    NotRun s t ∨ (s.ready ∧ t = succeed (s.withRes (gfMul a b))) :=
  (whenReady_next_cases h).imp_right fun ⟨hr, h⟩ => ⟨hr, (Host.Outcome.next.inj h).symm⟩

theorem execGfdiv_next {a b : Byte} {s t : State} (h : execGfdiv a b s = .next t) :
    NotRun s t ∨ (s.ready ∧ b = 0#8 ∧ t = fail .zero s) ∨
      (s.ready ∧ b ≠ 0#8 ∧ t = succeed (s.withRes (gfDiv a b))) := by
  rcases whenReady_next_cases h with h | ⟨hr, h⟩
  · exact .inl h
  · split at h
    · next hb => exact .inr (.inl ⟨hr, hb, (Host.Outcome.next.inj h).symm⟩)
    · next hb => exact .inr (.inr ⟨hr, hb, (Host.Outcome.next.inj h).symm⟩)

theorem execGfinv_next {a : Byte} {s t : State} (h : execGfinv a s = .next t) :
    NotRun s t ∨ (s.ready ∧ a = 0#8 ∧ t = fail .zero s) ∨
      (s.ready ∧ a ≠ 0#8 ∧ t = succeed (s.withRes (gfInv a))) := by
  rcases whenReady_next_cases h with h | ⟨hr, h⟩
  · exact .inl h
  · split at h
    · next ha => exact .inr (.inl ⟨hr, ha, (Host.Outcome.next.inj h).symm⟩)
    · next ha => exact .inr (.inr ⟨hr, ha, (Host.Outcome.next.inj h).symm⟩)

/-- The range check of MULACC (R91). -/
def mulaccInRange (s : State) : Prop :=
  s.a0.toNat + s.a2.toNat ≤ 2 ^ 32 ∧ s.a1.toNat + s.a2.toNat ≤ 2 ^ 32

theorem mulacc_range_check_iff (s : State) :
    (if passesTop s.a0 s.a2 || passesTop s.a1 s.a2 then some Failure.shapeAddrRange else none) = none ↔
      mulaccInRange s := by
  rw [mulaccInRange, ← passesTop_eq_false_iff, ← passesTop_eq_false_iff]
  cases passesTop s.a0 s.a2 <;> cases passesTop s.a1 s.a2 <;> simp

theorem execMulacc_next {c : Byte} {s t : State} (h : execMulacc c s = .next t) :
    NotRun s t ∨ (s.ready ∧ ¬ mulaccInRange s ∧ t = fail .shapeAddrRange s) ∨
      (s.ready ∧ mulaccInRange s ∧ dutyBroken s.platform (mulaccBuffers s) = none ∧
        t = succeed (s.withMem (Memory.storeBlock s.mem s.a0.toNat (mulaccByte c s) s.a2.toNat))) := by
  rcases whenReady_next_cases h with h | ⟨hr, h⟩
  · exact .inl h
  · rcases afterChecks_next h with ⟨f, hf, ht⟩ | ⟨hn, h⟩
    · refine .inr (.inl ⟨hr, fun hin => ?_, ?_⟩)
      · rw [(mulacc_range_check_iff s).2 hin] at hf
        simp at hf
      · split at hf
        · rw [ht, ← Option.some.inj hf]
        · simp at hf
    · obtain ⟨hd, ht⟩ := accessing_next h
      exact .inr (.inr ⟨hr, (mulacc_range_check_iff s).1 hn, hd, ht⟩)

theorem execBuildgen_next {s t : State} (h : execBuildgen s = .next t) :
    NotRun s t ∨ (s.ready ∧ ∃ f, countsFailure s.origCount.toNat s.recovCount.toNat = some f ∧ t = fail f s) ∨
      (s.ready ∧ s.CountsLegal ∧ t = succeed (s.withGenerator s.origCount s.recovCount)) := by
  rcases whenReady_next_cases h with h | ⟨hr, h⟩
  · exact .inl h
  · rcases afterChecks_next h with ⟨f, hf, ht⟩ | ⟨hn, h⟩
    · exact .inr (.inl ⟨hr, f, hf, ht⟩)
    · exact .inr (.inr ⟨hr, s.countsLegal_iff.2 hn, (Host.Outcome.next.inj h).symm⟩)

theorem execGenrd_next {row col : Nat} {s t : State} (h : execGenrd row col s = .next t) :
    NotRun s t ∨ (s.ready ∧ t = fail .shapeGenRange s) ∨
      (s.ready ∧ s.genValid = true ∧ row < s.genM.toNat ∧ col < s.genK.toNat ∧
        t = succeed (s.withRes (genEntry s.genK.toNat row col))) := by
  rcases whenReady_next_cases h with h | ⟨hr, h⟩
  · exact .inl h
  · split at h
    · exact .inr (.inl ⟨hr, (Host.Outcome.next.inj h).symm⟩)
    · next hg =>
      simp only [not_or, Bool.not_eq_false, Nat.not_le] at hg
      exact .inr (.inr ⟨hr, hg.1, hg.2.1, hg.2.2, (Host.Outcome.next.inj h).symm⟩)

theorem execDescclr_next {s t : State} (h : execDescclr s = .next t) :
    NotRun s t ∨ (s.ready ∧ t = succeed (s.withDescs [])) :=
  (whenReady_next_cases h).imp_right fun ⟨hr, h⟩ => ⟨hr, (Host.Outcome.next.inj h).symm⟩

theorem execDescpush_next {tag : Byte} {s t : State} (h : execDescpush tag s = .next t) :
    NotRun s t ∨ (s.ready ∧ s.descs.length = 256 ∧ t = fail .shapeFull s) ∨
      (s.ready ∧ s.descs.length ≠ 256 ∧ s.a0.toNat + s.a1.toNat > 2 ^ 32 ∧ t = fail .shapeAddrRange s) ∨
      (s.ready ∧ s.descs.length ≠ 256 ∧ s.a0.toNat + s.a1.toNat ≤ 2 ^ 32 ∧
        t = succeed (s.withDescs (s.descs ++ [⟨s.a0, s.a1, tag⟩]))) := by
  rcases whenReady_next_cases h with h | ⟨hr, h⟩
  · exact .inl h
  · by_cases hl : descCount s = Config.descEntries
    · rw [if_pos hl] at h
      exact .inr (.inl ⟨hr, hl, (Host.Outcome.next.inj h).symm⟩)
    · rw [if_neg hl] at h
      by_cases hp : passesTop s.a0 s.a1 = true
      · rw [if_pos hp] at h
        refine .inr (.inr (.inl ⟨hr, hl, ?_, (Host.Outcome.next.inj h).symm⟩))
        by_contra hle
        rw [(passesTop_eq_false_iff s.a0 s.a1).2 (by omega)] at hp
        exact absurd hp (by decide)
      · rw [if_neg hp] at h
        exact .inr (.inr (.inr
          ⟨hr, hl, (passesTop_eq_false_iff _ _).1 (by simpa using hp), (Host.Outcome.next.inj h).symm⟩))

theorem execEncode_next {s t : State} (h : execEncode s = .next t) :
    NotRun s t ∨
      (s.ready ∧ ∃ f, encodeFailure s.blockBytes.toNat s.origCount.toNat s.recovCount.toNat s.descs = some f ∧
        t = fail f s) ∨
      (s.ready ∧ s.EncodeLegal ∧ s.EncodeDuties ∧
        t = succeed ((s.withGenerator s.origCount s.recovCount).withMem (encodeMemory s))) := by
  rcases whenReady_next_cases h with h | ⟨hr, h⟩
  · exact .inl h
  · rcases afterChecks_next h with ⟨f, hf, ht⟩ | ⟨hn, h⟩
    · exact .inr (.inl ⟨hr, f, hf, ht⟩)
    · obtain ⟨hd, ht⟩ := accessing_next h
      have hl := s.encodeLegal_iff.2 hn
      exact .inr (.inr ⟨hr, hl, (encode_duties_iff hl).1 hd, ht⟩)

/-- The state a successful DECODE leaves, `W` being the inverse of its submatrix. -/
def decodeResult (s : State) (W : GfMatrix) : State :=
  succeed (((s.withGenerator s.origCount s.recovCount).withMem (decodeMemory s W)).withDescs
    (retagged s.origCount.toNat s.descs))

theorem execDecode_next {s t : State} (h : execDecode s = .next t) :
    NotRun s t ∨
      (s.ready ∧ ∃ f, decodeFailure s.blockBytes.toNat s.origCount.toNat s.recovCount.toNat s.descs = some f ∧
        t = fail f s) ∨
      (s.ready ∧ s.DecodeLegal ∧ invertMatrix (submatrix s.origCount.toNat s.descs) = none ∧
        t = raiseFatal .internal s) ∨
      (s.ready ∧ s.DecodeLegal ∧ s.DecodeDuties ∧
        ∃ W, invertMatrix (submatrix s.origCount.toNat s.descs) = some W ∧ t = decodeResult s W) := by
  rcases whenReady_next_cases h with h | ⟨hr, h⟩
  · exact .inl h
  · rcases afterChecks_next h with ⟨f, hf, ht⟩ | ⟨hn, h⟩
    · exact .inr (.inl ⟨hr, f, hf, ht⟩)
    · have hl := s.decodeLegal_iff.2 hn
      split at h
      · next hi => exact .inr (.inr (.inl ⟨hr, hl, hi, (Host.Outcome.next.inj h).symm⟩))
      · next W hi =>
        obtain ⟨hd, ht⟩ := accessing_next h
        exact .inr (.inr (.inr ⟨hr, hl, (decode_duties_iff hl).1 hd, W, hi, ht⟩))

/-- ENCODE completes exactly when it is ready, legal and its duties are kept. -/
theorem execEncode_of_legal {s : State} (hr : s.ready) (hl : s.EncodeLegal) (hd : s.EncodeDuties) :
    execEncode s = .next (succeed ((s.withGenerator s.origCount s.recovCount).withMem (encodeMemory s))) := by
  rw [execEncode, whenReady_of_ready hr, s.encodeLegal_iff.1 hl, afterChecks_none,
    accessing_of_duties ((encode_duties_iff hl).2 hd)]

/-- DECODE completes when it is ready, legal, its submatrix has an inverse and its duties are kept. -/
theorem execDecode_of_legal {s : State} (hr : s.ready) (hl : s.DecodeLegal) {W : GfMatrix}
    (hW : invertMatrix (submatrix s.origCount.toNat s.descs) = some W) (hd : s.DecodeDuties) :
    execDecode s = .next (decodeResult s W) := by
  rw [execDecode, whenReady_of_ready hr, s.decodeLegal_iff.1 hl, afterChecks_none, hW]
  exact accessing_of_duties ((decode_duties_iff hl).2 hd) _

theorem execMulacc_of_duties {c : Byte} {s : State} (hr : s.ready) (hin : mulaccInRange s)
    (hd : dutyBroken s.platform (mulaccBuffers s) = none) :
    execMulacc c s =
      .next (succeed (s.withMem (Memory.storeBlock s.mem s.a0.toNat (mulaccByte c s) s.a2.toNat))) := by
  rw [execMulacc, whenReady_of_ready hr, (mulacc_range_check_iff s).2 hin, afterChecks_none, accessing_of_duties hd]

/-- Every failure of ENCODE's checks has code CONFIG or SHAPE. -/
theorem encodeFailure_code {b k m : Nat} {ds : List Descriptor} {f : Failure} (h : encodeFailure b k m ds = some f) :
    f.code = 0x01#8 ∨ f.code = 0x02#8 := by
  unfold encodeFailure at h
  split at h
  · next g hg =>
    rw [← Option.some.inj h]
    unfold paramsFailure at hg
    split at hg
    · rw [← Option.some.inj hg]; exact .inl rfl
    · exact .inl (countsFailure_code hg)
  · split at h
    · rw [← Option.some.inj h]; exact .inr rfl
    · unfold lengthFailure at h
      obtain ⟨-, a, -, -, ha, -⟩ := List.findSome?_eq_some_iff.1 h
      dsimp only at ha
      split at ha
      · rw [← Option.some.inj ha]; exact .inr rfl
      · simp at ha

/-- Every failure of DECODE's checks has code CONFIG or SHAPE. -/
theorem decodeFailure_code {b k m : Nat} {ds : List Descriptor} {f : Failure} (h : decodeFailure b k m ds = some f) :
    f.code = 0x01#8 ∨ f.code = 0x02#8 := by
  unfold decodeFailure at h
  split at h
  · next g hg =>
    rw [← Option.some.inj h]
    unfold paramsFailure at hg
    split at hg
    · rw [← Option.some.inj hg]; exact .inl rfl
    · exact .inl (countsFailure_code hg)
  · split at h
    · rw [← Option.some.inj h]; exact .inr rfl
    · obtain ⟨-, a, -, -, ha, -⟩ := List.findSome?_eq_some_iff.1 h
      dsimp only [slotFailure] at ha
      repeat' split at ha
      all_goals first | (rw [← Option.some.inj ha]; exact .inr rfl) | simp at ha

end Sys2Proof.Machine
end

