-- ==== Sys2Proof/Laws/Memory.lean ====
section
/-! SUPPORT. The laws of memory: a read after a write, other addresses untouched, the canonical form kept. -/

namespace Sys2Proof.Machine

@[simp] theorem Memory.read_nil (a : Nat) : Memory.read [] a = Memory.unlisted := rfl

theorem Memory.read_cons (b : Nat) (v : Byte) (m : Memory) (a : Nat) :
    Memory.read ((b, v) :: m) a = if a = b then v else Memory.read m a := rfl

/-- An address that is listed nowhere reads as the unlisted byte. -/
theorem Memory.read_of_not_listed (m : Memory) (a : Nat) (h : ∀ c ∈ m, c.1 ≠ a) :
    Memory.read m a = Memory.unlisted := by
  induction m with
  | nil => rfl
  | cons c m ih =>
    obtain ⟨b, v⟩ := c
    rw [Memory.read_cons, if_neg (fun e => h (b, v) (by simp) e.symm), ih fun c hc => h c (by simp [hc])]

theorem Memory.erase_cons (b : Nat) (v : Byte) (m : Memory) (a : Nat) :
    Memory.erase ((b, v) :: m) a = if b = a then Memory.erase m a else (b, v) :: Memory.erase m a := by
  by_cases h : b = a <;> simp [Memory.erase, h]

theorem Memory.mem_erase (m : Memory) (a : Nat) (c : Host.Cell) : c ∈ Memory.erase m a ↔ c ∈ m ∧ c.1 ≠ a := by
  simp [Memory.erase]

theorem Memory.read_erase (m : Memory) (a b : Nat) :
    Memory.read (Memory.erase m a) b = if b = a then Memory.unlisted else Memory.read m b := by
  split
  · next h => subst h; exact Memory.read_of_not_listed _ _ fun c hc => ((Memory.mem_erase m b c).1 hc).2
  · next h =>
    induction m with
    | nil => rfl
    | cons c m ih =>
      obtain ⟨d, v⟩ := c
      rw [Memory.erase_cons]
      split
      · next e => subst e; rw [ih, Memory.read_cons, if_neg h]
      · rw [Memory.read_cons, Memory.read_cons, ih]

theorem Memory.mem_insert (m : Memory) (a : Nat) (v : Byte) (c : Host.Cell) :
    c ∈ Memory.insert m a v ↔ c = (a, v) ∨ c ∈ m := by
  induction m with
  | nil => simp [Memory.insert]
  | cons d m ih =>
    obtain ⟨b, w⟩ := d
    simp only [Memory.insert]
    split <;> simp only [List.mem_cons, ih]
    tauto

theorem Memory.read_insert (m : Memory) (a : Nat) (v : Byte) (h : ∀ c ∈ m, c.1 ≠ a) (b : Nat) :
    Memory.read (Memory.insert m a v) b = if b = a then v else Memory.read m b := by
  induction m with
  | nil => rfl
  | cons d m ih =>
    obtain ⟨e, w⟩ := d
    have he : e ≠ a := h (e, w) (by simp)
    simp only [Memory.insert]
    split
    · rfl
    · rw [Memory.read_cons, Memory.read_cons, ih fun c hc => h c (by simp [hc])]
      by_cases hb : b = e
      · rw [if_pos hb, if_pos hb, if_neg (by omega)]
      · rw [if_neg hb, if_neg hb]

/-- A write changes one address and no other. -/
theorem Memory.read_write (m : Memory) (a : Nat) (v : Byte) (b : Nat) :
    Memory.read (Memory.write m a v) b = if b = a then v else Memory.read m b := by
  unfold Memory.write
  split
  · next h => rw [Memory.read_erase, h]
  · rw [Memory.read_insert _ _ _ fun c hc => ((Memory.mem_erase m a c).1 hc).2, Memory.read_erase]
    split <;> rfl

@[simp] theorem Memory.read_write_same (m : Memory) (a : Nat) (v : Byte) :
    Memory.read (Memory.write m a v) a = v := by rw [Memory.read_write, if_pos rfl]

theorem Memory.read_write_other (m : Memory) {a b : Nat} (v : Byte) (h : b ≠ a) :
    Memory.read (Memory.write m a v) b = Memory.read m b := by rw [Memory.read_write, if_neg h]

/-- What a stored block leaves: the block inside, everything else as before. -/
theorem Memory.read_storeBlock (m : Memory) (base : Nat) (f : Nat → Byte) (n x : Nat) :
    Memory.read (Memory.storeBlock m base f n) x =
      if base ≤ x ∧ x < base + n then f (x - base) else Memory.read m x := by
  induction n with
  | zero => rw [Memory.storeBlock, if_neg (by omega)]
  | succ n ih =>
    rw [Memory.storeBlock, Memory.read_write, ih]
    by_cases h : x = base + n
    · rw [if_pos h, if_pos (by omega), h, Nat.add_sub_cancel_left]
    · rw [if_neg h]
      by_cases hx : base ≤ x ∧ x < base + n
      · rw [if_pos hx, if_pos (by omega)]
      · rw [if_neg hx, if_neg (by omega)]

/-- Blocks stored elsewhere leave an address alone. -/
theorem Memory.read_storeBlocks_outside (m : Memory) (n : Nat) (bs : List (Nat × (Nat → Byte))) (x : Nat)
    (h : ∀ b ∈ bs, ¬ (b.1 ≤ x ∧ x < b.1 + n)) : Memory.read (Memory.storeBlocks m n bs) x = Memory.read m x := by
  induction bs generalizing m with
  | nil => rfl
  | cons b bs ih =>
    obtain ⟨base, f⟩ := b
    rw [Memory.storeBlocks, ih _ fun c hc => h c (by simp [hc]), Memory.read_storeBlock,
      if_neg (h (base, f) (by simp))]

/-- Inside one of several blocks that share no byte, memory holds that block. -/
theorem Memory.read_storeBlocks_inside (m : Memory) (n : Nat) (bs : List (Nat × (Nat → Byte)))
    (hd : bs.Pairwise fun b c => b.1 + n ≤ c.1 ∨ c.1 + n ≤ b.1) (b : Nat × (Nat → Byte)) (hb : b ∈ bs) (i : Nat)
    (hi : i < n) : Memory.read (Memory.storeBlocks m n bs) (b.1 + i) = b.2 i := by
  induction bs generalizing m with
  | nil => simp at hb
  | cons c bs ih =>
    obtain ⟨base, f⟩ := c
    rw [List.pairwise_cons] at hd
    rw [Memory.storeBlocks]
    rcases List.mem_cons.1 hb with rfl | hb
    · rw [Memory.read_storeBlocks_outside _ _ _ _ fun c hc => by have := hd.1 c hc; dsimp only at this ⊢; omega,
        Memory.read_storeBlock, if_pos (by dsimp only; omega)]
      simp
    · exact ih _ hd.2 hb

theorem Memory.wf_iff (m : Memory) :
    Memory.wf m = true ↔
      m.Pairwise (fun x y => x.1 < y.1) ∧ ∀ c ∈ m, c.2 ≠ Memory.unlisted ∧ c.1 < Config.addrSpace := by
  simp [Memory.wf]

@[simp] theorem Memory.wf_nil : Memory.wf [] = true := rfl

theorem Memory.wf_erase (m : Memory) (a : Nat) (h : Memory.wf m = true) : Memory.wf (Memory.erase m a) = true := by
  rw [Memory.wf_iff] at h ⊢
  exact ⟨h.1.filter _, fun c hc => h.2 c ((Memory.mem_erase m a c).1 hc).1⟩

theorem Memory.wf_insert (m : Memory) (a : Nat) (v : Byte) (h : Memory.wf m = true) (hm : ∀ c ∈ m, c.1 ≠ a)
    (hv : v ≠ Memory.unlisted) (ha : a < Config.addrSpace) : Memory.wf (Memory.insert m a v) = true := by
  rw [Memory.wf_iff] at h ⊢
  refine ⟨?_, fun c hc => ?_⟩
  · obtain ⟨hp, -⟩ := h
    induction m with
    | nil => simp [Memory.insert]
    | cons d m ih =>
      obtain ⟨b, w⟩ := d
      have hb : b ≠ a := hm (b, w) (by simp)
      rw [List.pairwise_cons] at hp
      simp only [Memory.insert]
      split
      · next hab =>
        refine List.pairwise_cons.2 ⟨fun c hc => ?_, List.pairwise_cons.2 hp⟩
        rcases List.mem_cons.1 hc with rfl | hc
        · exact hab
        · exact Nat.lt_trans hab (hp.1 c hc)
      · next hab =>
        refine List.pairwise_cons.2 ⟨fun c hc => ?_, ih (fun c hc => hm c (by simp [hc])) hp.2⟩
        rcases (Memory.mem_insert m a v c).1 hc with rfl | hc
        · simp only; omega
        · exact hp.1 c hc
  · rcases (Memory.mem_insert m a v c).1 hc with rfl | hc
    · exact ⟨hv, ha⟩
    · exact h.2 c hc

/-- A write inside the address space keeps the canonical form. -/
theorem Memory.wf_write (m : Memory) (a : Nat) (v : Byte) (h : Memory.wf m = true) (ha : a < Config.addrSpace) :
    Memory.wf (Memory.write m a v) = true := by
  unfold Memory.write
  split
  · exact Memory.wf_erase m a h
  · next hv =>
    exact Memory.wf_insert _ a v (Memory.wf_erase m a h) (fun c hc => ((Memory.mem_erase m a c).1 hc).2) hv ha

theorem Memory.wf_storeBlock (m : Memory) (base : Nat) (f : Nat → Byte) (n : Nat) (h : Memory.wf m = true)
    (ha : base + n ≤ Config.addrSpace) : Memory.wf (Memory.storeBlock m base f n) = true := by
  induction n with
  | zero => exact h
  | succ n ih => exact Memory.wf_write _ _ _ (ih (by omega)) (by omega)

theorem Memory.wf_storeBlocks (m : Memory) (n : Nat) (bs : List (Nat × (Nat → Byte))) (h : Memory.wf m = true)
    (ha : ∀ b ∈ bs, b.1 + n ≤ Config.addrSpace) : Memory.wf (Memory.storeBlocks m n bs) = true := by
  induction bs generalizing m with
  | nil => exact h
  | cons b bs ih =>
    obtain ⟨base, f⟩ := b
    exact ih _ (Memory.wf_storeBlock m base f n h (ha (base, f) (by simp))) fun c hc => ha c (by simp [hc])

/-- Canonical memories that read the same everywhere are equal data. -/
theorem Memory.ext_of_wf (m m' : Memory) (h : Memory.wf m = true) (h' : Memory.wf m' = true)
    (hr : ∀ a, Memory.read m a = Memory.read m' a) : m = m' := by
  have low : ∀ {b v} {m : Memory}, Memory.wf ((b, v) :: m) = true → ∀ a, a ≤ b → ∀ c ∈ m, c.1 ≠ a := by
    intro b v m h a ha c hc
    have := (List.pairwise_cons.1 ((Memory.wf_iff _).1 h).1).1 c hc
    simp only at this
    omega
  have tail : ∀ {c} {m : Memory}, Memory.wf (c :: m) = true → Memory.wf m = true := by
    intro c m h
    rw [Memory.wf_iff] at h ⊢
    exact ⟨(List.pairwise_cons.1 h.1).2, fun c hc => h.2 c (by simp [hc])⟩
  have head : ∀ {b v} {m : Memory}, Memory.wf ((b, v) :: m) = true → v ≠ Memory.unlisted := by
    intro b v m h
    exact (((Memory.wf_iff _).1 h).2 (b, v) (by simp)).1
  have before : ∀ {b v} {m : Memory}, Memory.wf ((b, v) :: m) = true → ∀ a, a < b →
      Memory.read ((b, v) :: m) a = Memory.unlisted := by
    intro b v m h a ha
    rw [Memory.read_cons, if_neg (by omega), Memory.read_of_not_listed m a (low h a (by omega))]
  induction m generalizing m' with
  | nil =>
    cases m' with
    | nil => rfl
    | cons c m' =>
      obtain ⟨b, v⟩ := c
      exact absurd (by simpa [Memory.read_cons] using (hr b).symm) (head h')
  | cons c m ih =>
    obtain ⟨b, v⟩ := c
    cases m' with
    | nil => exact absurd (by simpa [Memory.read_cons] using hr b) (head h)
    | cons c' m' =>
      obtain ⟨b', v'⟩ := c'
      have hbb : b = b' := by
        rcases Nat.lt_trichotomy b b' with hlt | heq | hgt
        · have := hr b
          rw [before h' b hlt, Memory.read_cons, if_pos rfl] at this
          exact absurd this (head h)
        · exact heq
        · have := hr b'
          rw [before h b' hgt, Memory.read_cons, if_pos rfl] at this
          exact absurd this.symm (head h')
      subst hbb
      have hv : v = v' := by simpa [Memory.read_cons] using hr b
      subst hv
      rw [ih m' (tail h) (tail h') fun a => ?_]
      by_cases ha : a = b
      · subst ha
        rw [Memory.read_of_not_listed m a (low h a (Nat.le_refl _)),
          Memory.read_of_not_listed m' a (low h' a (Nat.le_refl _))]
      · simpa [Memory.read_cons, ha] using hr a

end Sys2Proof.Machine
end

