-- ==== Sys2Proof/Laws/PerInstr.lean ====
section
/-! SUPPORT. Statements made per instruction. Family `RowMatch`: the word of a command matches the command's row of the
opcode map (R65), whatever its operands. -/

namespace Sys2Proof.Laws.RowMatch

/-- The encoded word selects the command's row (R65). -/
def Statement (i : Instr) : Prop := encode i &&& (rowOf i).mask = (rowOf i).pattern

theorem maskA_getLsbD (j : Nat) (hj : j < 32) : (0xFFFFFF00#32).getLsbD j = decide (8 ≤ j) := by
  interval_cases j <;> rfl

theorem maskAB_getLsbD (j : Nat) (hj : j < 32) : (0xFFFF0000#32).getLsbD j = decide (16 ≤ j) := by
  interval_cases j <;> rfl

theorem wordA_matches (op a : Byte) : wordA op a &&& 0xFFFFFF00#32 = wordA op 0#8 := by
  apply BitVec.eq_of_getLsbD_eq
  intro j hj
  simp only [wordA, BitVec.getLsbD_and, BitVec.getLsbD_append, maskA_getLsbD j hj, BitVec.getLsbD_zero]
  by_cases h : j < 8
  · simp [h]
  · simp [h, Nat.le_of_not_lt h]

theorem wordAB_matches (op a b : Byte) : wordAB op a b &&& 0xFFFF0000#32 = wordAB op 0#8 0#8 := by
  apply BitVec.eq_of_getLsbD_eq
  intro j hj
  simp only [wordAB, BitVec.getLsbD_and, BitVec.getLsbD_append, maskAB_getLsbD j hj, BitVec.getLsbD_zero]
  by_cases h : j < 16
  · have h16 : ¬ 16 ≤ j := by omega
    have h8 : j - 8 < 8 := by omega
    rw [decide_eq_false h16, Bool.and_false, if_pos h8]
    split <;> rfl
  · have h8 : ¬ j < 8 := by omega
    have h16 : ¬ j - 8 < 8 := by omega
    simp [h8, h16, Nat.le_of_not_lt h]

theorem init : Statement .init := rfl
theorem gfmul (a b : Byte) : Statement (.gfmul a b) := wordAB_matches 0x10#8 a b
theorem gfdiv (a b : Byte) : Statement (.gfdiv a b) := wordAB_matches 0x11#8 a b
theorem gfinv (a : Byte) : Statement (.gfinv a) := wordA_matches 0x12#8 a
theorem mulacc (c : Byte) : Statement (.mulacc c) := wordA_matches 0x18#8 c
theorem buildgen : Statement .buildgen := rfl
theorem genrd (row col : Nat) : Statement (.genrd row col) :=
  wordAB_matches 0x21#8 (BitVec.ofNat 8 row) (BitVec.ofNat 8 col)
theorem descclr : Statement .descclr := rfl
theorem descpush (tag : Byte) : Statement (.descpush tag) := wordA_matches 0x31#8 tag
theorem encode : Statement .encode := rfl
theorem decode : Statement .decode := rfl

end Sys2Proof.Laws.RowMatch
end

