-- ==== Sys2Proof/Tests/Slice0.lean ====
section
/-! SUPPORT. Tests. Expected values are those of `spec/95_test_vectors.md` and the tables of the family files, or are read
off the encodings of `spec/30_encoding.md`; the section is named in each comment. After the tests, one witness per
statement that has hypotheses. -/

open Sys2Proof Sys2Proof.Machine

namespace Sys2Proof.Tests

/-- The state after an outcome, none after a refusal. -/
def after : Host.Outcome State Fault Refusal → Option State
  | .next s => some s
  | .fault _ => none
  | .refused _ => none

/-- What a host then reads in a register. -/
def regAfter (r : Reg) (o : Host.Outcome State Fault Refusal) : Option Word := (after o).map (readReg r)

/-- The byte at an address then. -/
def byteAfter (a : Nat) (o : Host.Outcome State Fault Refusal) : Option Byte := (after o).map (Memory.read ·.mem a)

/-- Reset, then a successful INIT. -/
def unit : State := { State.reset with initDone := true }

/-- The unit with these counts, this table and this memory. -/
def coded (b k m : Word) (ds : List Descriptor) (mem : Memory) : State :=
  { unit with blockBytes := b, origCount := k, recovCount := m, descs := ds, mem := mem }

/-- The unit with these arguments and this memory. -/
def arguments (a0 a1 a2 : Word) (mem : Memory) : State := { unit with a0 := a0, a1 := a1, a2 := a2, mem := mem }

/-! ### WellFormed -/

theorem test_illFormed_row : (Instr.genrd 256 0).wellFormed = false := by decide
theorem test_illFormed_col : (Instr.genrd 0 256).wellFormed = false := by decide
theorem test_wellFormed_genrd : (Instr.genrd 255 255).wellFormed = true := by decide

/-! ### Decoding: words written out from 30_encoding.md, section 4, field by field -/

theorem test_decode_init : decode 0x01000000#32 = .command .init := by decide
theorem test_decode_gfmul : decode (0x10#8 ++ 0x00#8 ++ 0x57#8 ++ 0x83#8) = .command (.gfmul 0x57#8 0x83#8) := by decide
theorem test_decode_gfdiv : decode (0x11#8 ++ 0x00#8 ++ 0x94#8 ++ 0x53#8) = .command (.gfdiv 0x94#8 0x53#8) := by decide
theorem test_decode_gfinv : decode (0x12#8 ++ 0x0000#16 ++ 0x80#8) = .command (.gfinv 0x80#8) := by decide
theorem test_decode_mulacc : decode (0x18#8 ++ 0x0000#16 ++ 0xA6#8) = .command (.mulacc 0xA6#8) := by decide
theorem test_decode_buildgen : decode 0x20000000#32 = .command .buildgen := by decide
theorem test_decode_genrd : decode (0x21#8 ++ 0x00#8 ++ 0x7F#8 ++ 0xFE#8) = .command (.genrd 127 254) := by decide
theorem test_decode_descclr : decode 0x30000000#32 = .command .descclr := by decide
theorem test_decode_descpush : decode (0x31#8 ++ 0x0000#16 ++ 0x05#8) = .command (.descpush 0x05#8) := by decide
theorem test_decode_encode : decode 0x40000000#32 = .command .encode := by decide
theorem test_decode_decode : decode 0x41000000#32 = .command .decode := by decide

/-- 95, section 2.5: unknown opcodes. -/
theorem test_decode_unknown_opcode :
    [0x00000000#32, 0x02000000#32, 0x13000000#32, 0x19000000#32, 0x42000000#32, 0xFF000000#32, 0xFFFFFFFF#32].all
      (fun w => decide (decode w = .illegalOpcode)) = true := by decide

/-- 95, section 2.5: a reserved bit set, one word per format and command. -/
theorem test_decode_reserved_bit :
    [0x01000001#32, 0x10010203#32, 0x12000100#32, 0x18000100#32, 0x20800000#32, 0x21010000#32, 0x30000001#32,
     0x31010000#32, 0x40000001#32, 0x41000100#32].all (fun w => decide (decode w = .illegalReserved)) = true := by decide

/-- No two rows of the opcode map overlap. -/
theorem test_opcode_rows_apart :
    opcodeRows.Pairwise (fun x y => x.pattern &&& (x.mask &&& y.mask) ≠ y.pattern &&& (x.mask &&& y.mask)) := by decide

theorem test_table_word : decodeTableWord 32 0x100053CA = some (.gfmul 0x53#8 0xCA#8) := by decide

theorem test_fetch_word_runs :
    regAfter .status (step (State.reset.withFetchWord 32 0x10005302)) = some 0x00000600#32 := by decide

/-! ### One step of each command -/

/-- 95, section 2.4: the no-op that clears ERR. -/
theorem test_init_again : regAfter .status (exec .init { unit with err := 0x05#8 }) = some 0x00000001#32 := by decide

/-- 95, section 2.4: both draws. -/
theorem test_init_draws :
    (initOutcome true State.reset |> readReg .status) = 0x00000001#32 ∧
      (initOutcome false State.reset |> readReg .status) = 0x00000402#32 := by decide

/-- 95, section 2.2. -/
theorem test_gfmul : regAfter .res (exec (.gfmul 0x53#8 0xCA#8) unit) = some 0x94#32 := by decide +kernel
theorem test_gfmul_reduces : regAfter .res (exec (.gfmul 0x02#8 0x80#8) unit) = some 0x4D#32 := by decide +kernel

/-- 95, section 2.3. -/
theorem test_gfdiv : regAfter .res (exec (.gfdiv 0x94#8 0x53#8) unit) = some 0xCA#32 := by decide +kernel
theorem test_gfdiv_by_zero : regAfter .status (exec (.gfdiv 0x00#8 0x00#8) unit) = some 0x00000501#32 := by decide +kernel
theorem test_gfinv : regAfter .res (exec (.gfinv 0xFF#8) unit) = some 0x44#32 := by decide +kernel
theorem test_gfinv_zero : regAfter .status (exec (.gfinv 0x00#8) unit) = some 0x00000501#32 := by decide +kernel

/-- 95, section 2.6, the range that ends at the top of memory. -/
theorem test_mulacc_top :
    byteAfter 0xFFFFFFFF (exec (.mulacc 0x02#8) (arguments 0xFFFFFFFD#32 0x100#32 3#32 [(0x101, 0x01#8), (0x102, 0x02#8)])) =
      some 0x04#8 := by decide +kernel

/-- 95, section 2.6: `FF ⊗ A6` accumulated into AA gives 73. -/
theorem test_mulacc_accumulates :
    byteAfter 0x200 (exec (.mulacc 0xA6#8) (arguments 0x200#32 0x104#32 1#32 [(0x104, 0xFF#8), (0x200, 0xAA#8)])) =
      some 0x73#8 := by decide +kernel

/-- 95, section 3.1. -/
theorem test_buildgen : regAfter .genDims (exec .buildgen (coded 0 4 2 [] [])) = some 0x00020004#32 := by decide +kernel
theorem test_buildgen_sum : regAfter .errInfo (exec .buildgen (coded 0 200 57 [] [])) = some 0x00000003#32 := by decide +kernel
theorem test_genrd :
    regAfter .res (exec (.genrd 1 2) { unit with genValid := true, genK := 4#9, genM := 2#9 }) = some 0x87#32 := by
  decide +kernel
theorem test_genrd_wraps :
    regAfter .res (exec (.genrd 252 2) { unit with genValid := true, genK := 3#9, genM := 253#9 }) = some 0xC4#32 := by
  decide +kernel

theorem test_descclr : regAfter .descCount (exec .descclr (coded 1 1 0 [⟨0#32, 1#32, 0#8⟩] [])) = some 0#32 := by
  decide +kernel
theorem test_descpush :
    (after (exec (.descpush 0x05#8) (arguments 0x2010#32 0x10#32 0#32 []))).map (·.descs) =
      some [⟨0x2010#32, 0x10#32, 0x05#8⟩] := by decide +kernel
theorem test_descpush_past_top :
    regAfter .errInfo (exec (.descpush 0#8) (arguments 0xFFFFFFFF#32 2#32 0#32 [])) = some 0x00000006#32 := by
  decide +kernel

/-- The code of 95, section 4.7, at byte position 2: originals BE and FF, recovery buffers at 0x200 and 0x204. -/
def pairEncode : State :=
  coded 1 2 2 [⟨0x100#32, 1#32, 0#8⟩, ⟨0x104#32, 1#32, 1#8⟩, ⟨0x200#32, 1#32, 2#8⟩, ⟨0x204#32, 1#32, 3#8⟩]
    [(0x100, 0xBE#8), (0x104, 0xFF#8)]

/-- The same code with both originals lost and the substitutes crossed. -/
def pairDecode : State :=
  coded 1 2 2 [⟨0x204#32, 1#32, 3#8⟩, ⟨0x200#32, 1#32, 2#8⟩] [(0x200, 0xA0#8), (0x204, 0xAA#8)]

theorem test_encode :
    (after (exec .encode pairEncode)).map (fun t => (Memory.read t.mem 0x200, Memory.read t.mem 0x204)) =
      some (0xA0#8, 0xAA#8) := by decide +kernel

/-- 95, section 4.6, at byte position 3: one original, three recovery blocks. -/
theorem test_encode_one_original :
    (after (exec .encode (coded 1 1 3
        [⟨0x100#32, 1#32, 0#8⟩, ⟨0x200#32, 1#32, 1#8⟩, ⟨0x204#32, 1#32, 2#8⟩, ⟨0x208#32, 1#32, 3#8⟩] [(0x100, 0xFF#8)]))).map
      (fun t => (Memory.read t.mem 0x200, Memory.read t.mem 0x204, Memory.read t.mem 0x208)) =
      some (0x55#8, 0xD9#8, 0x33#8) := by decide +kernel

theorem test_decode_pair :
    (after (exec .decode pairDecode)).map
        (fun t => (Memory.read t.mem 0x204, Memory.read t.mem 0x200, t.descs.map (·.idx))) =
      some (0xBE#8, 0xFF#8, [0#8, 1#8]) := by decide +kernel

/-- 95, section 1.5: an invented tag. -/
theorem test_decode_tag_out_of_range :
    regAfter .errInfo (exec .decode (coded 16 4 2
        [⟨0x2000#32, 16#32, 4#8⟩, ⟨0x2010#32, 16#32, 5#8⟩, ⟨0x1020#32, 16#32, 6#8⟩, ⟨0x1030#32, 16#32, 3#8⟩] [])) =
      some 0x00000203#32 := by decide +kernel

/-- 95, section 4.6, decode from R_2 alone, as the pairs (register, value) of R72. -/
theorem test_script_decode :
    (scriptDecode 4#32 1#32 3#32 [(0x208#32, 3#8)]).map writePair =
      [some (7, 4#32), some (8, 1#32), some (9, 3#32), some (0, 0x30000000#32), some (4, 0x208#32), some (5, 4#32),
       some (0, 0x31000003#32), some (0, 0x41000000#32), none] := by decide

/-- The sample matrices of 42_matrix_constructor.md, section 4: row 1 of (4, 2). -/
theorem test_generator_row : (List.range 4).map (genEntry 4 1) = [0x74#8, 0x53#8, 0x87#8, 0xA6#8] := by decide +kernel

/-- 95, section 1.2: the submatrix and its inverse. -/
theorem test_inverse :
    invertMatrix [[0x74#8, 0x01#8], [0x53#8, 0xA6#8]] = some [[0x84#8, 0x45#8], [0x42#8, 0x86#8]] := by decide +kernel

/-! ### Witnesses: states and operands that meet the hypotheses of the statements -/

theorem unit_ready : unit.ready := ⟨rfl, rfl⟩

theorem coded_ready (b k m : Word) (ds : List Descriptor) (mem : Memory) : (coded b k m ds mem).ready := ⟨rfl, rfl⟩

theorem reset_allows (r : Range) : State.reset.platform.allows r := fun _ h => absurd h List.not_mem_nil

theorem pairEncode_legal : pairEncode.EncodeLegal := pairEncode.encodeLegal_iff.2 (by decide +kernel)
theorem pairEncode_duties : pairEncode.EncodeDuties := (encode_duties_iff pairEncode_legal).1 (by decide +kernel)
theorem pairDecode_legal : pairDecode.DecodeLegal := pairDecode.decodeLegal_iff.2 (by decide +kernel)
theorem pairDecode_duties : pairDecode.DecodeDuties := (decode_duties_iff pairDecode_legal).1 (by decide +kernel)

/-- The inverse DECODE finds for `pairDecode` (95, section 4.7). -/
theorem pairDecode_inverse :
    invertMatrix (submatrix pairDecode.origCount.toNat pairDecode.descs) = some [[0x73#8, 0x75#8], [0x9F#8, 0x9D#8]] := by
  decide +kernel

theorem pairDecode_next : exec .decode pairDecode = .next (decodeResult pairDecode [[0x73#8, 0x75#8], [0x9F#8, 0x9D#8]]) :=
  execDecode_of_legal ⟨rfl, rfl⟩ pairDecode_legal pairDecode_inverse pairDecode_duties

theorem pairEncode_next :
    exec .encode pairEncode =
      .next (succeed ((pairEncode.withGenerator 2 2).withMem (encodeMemory pairEncode))) :=
  execEncode_of_legal ⟨rfl, rfl⟩ pairEncode_legal pairEncode_duties

theorem test_witness_DecodeOfEncodeIsIdentity : (Instr.genrd 255 255).wellFormed = true := by decide

theorem test_witness_EncodeOfDecodeIsIdentity : decode 0x2100FFFF#32 = .command (.genrd 255 255) := by decide

theorem test_witness_IllegalWordsAreReported :
    State.reset.fatal = false ∧ decode 0x02000000#32 = .illegalOpcode ∧ decode 0x01000001#32 = .illegalReserved := by
  decide

/-- The five cases of the dispatch order, each on a script of one write. -/
theorem test_witness_CommandWriteFollowsDispatchOrder :
    ({ State.reset with fatal := true }).fatal = true ∧
    (State.reset.fatal = false ∧ decode 0#32 = .illegalOpcode) ∧
    (State.reset.fatal = false ∧ decode 0x41000100#32 = .illegalReserved) ∧
    (State.reset.fatal = false ∧ decode 0x20000000#32 = .command .buildgen ∧ Instr.buildgen ≠ .init ∧
      State.reset.initDone = false) ∧
    (unit.fatal = false ∧ decode 0x20000000#32 = .command .buildgen ∧ unit.initDone = true) ∧
    (State.reset.fatal = false ∧ decode 0x01000000#32 = .command .init) := by decide

theorem test_witness_StepRunsDecodedCommand :
    decode 0x30000000#32 = .command .descclr ∧
      (unit.withScript [.wr .cmd 0x30000000#32]).script = .wr .cmd 0x30000000#32 :: [] ∧
      (unit.withScript [.busWrite 0 4 0x30000000#32]).script =
        .busWrite unit.platform.regBase 4 0x30000000#32 :: [] := by decide

theorem test_witness_IdleUnitHoldsState : State.reset.script = [] := rfl

theorem test_witness_ReservedRegistersReadZeroAndIgnoreWrites :
    Reg.reserved15 ∈ [Reg.reserved12, Reg.reserved13, Reg.reserved14, Reg.reserved15] ∧
      (unit.withScript [.rd .reserved15]).script = .rd .reserved15 :: [] ∧
      (unit.withScript [.wr .reserved12 1#32]).script = .wr .reserved12 1#32 :: [] := by decide

/-- The boundary of the clause on DESC_COUNT: a full table reads 256. -/
theorem test_witness_ReadOnlyRegistersShowTheirFields :
    (coded 0 0 0 (List.replicate 256 ⟨0#32, 0#32, 0#8⟩) []).descs.length ≤ 256 :=
  List.length_replicate.le

theorem test_witness_HostWritesStoreOrAreIgnored :
    (unit.withScript [.wr .a2 7#32]).script = .wr .a2 7#32 :: [] ∧ Reg.a2 ≠ .cmd ∧
      Reg.a2 ∈ [Reg.a0, Reg.a1, Reg.a2, Reg.blockBytes, Reg.origCount, Reg.recovCount] ∧
      (unit.withScript [.wr .status 7#32]).script = .wr .status 7#32 :: [] ∧ Reg.status ≠ .cmd ∧
      Reg.status ∉ [Reg.a0, Reg.a1, Reg.a2, Reg.blockBytes, Reg.origCount, Reg.recovCount] := by decide

theorem test_witness_HostReadsHaveNoSideEffect :
    (unit.withScript [.rd .status]).script = .rd .status :: [] := rfl

/-- The last register of the window, and the first word past it. -/
theorem test_witness_BusAccessesNameARegisterOrAreRefused :
    60 = unit.platform.regBase + 4 * Reg.reserved15.number ∧
      (∀ r ∈ allRegs, ¬ (4 = 4 ∧ 64 = unit.platform.regBase + 4 * r.number)) ∧
      (∀ r ∈ allRegs, ¬ (2 = 4 ∧ 60 = unit.platform.regBase + 4 * r.number)) := by decide

theorem test_witness_ResetClearsEverythingButMemory : (unit.withScript [.reset]).script = .reset :: [] := rfl

theorem test_witness_HostStoreThenLoadReturnsByte :
    (unit.withScript [.store 0xFFFFFFFF#32 7#8, .load 0xFFFFFFFF#32]).script =
        .store 0xFFFFFFFF#32 7#8 :: .load 0xFFFFFFFF#32 :: [] ∧
      unit.platform.allows ⟨0xFFFFFFFF, 1⟩ := ⟨rfl, reset_allows _⟩

/-- One command write of each outcome: ignored, success, recoverable failure; the fatal one needs a failing draw. -/
theorem test_witness_CommandWritesHaveFourOutcomes :
    issue 0x30000000#32 { unit with fatal := true } = .next { unit with fatal := true } ∧
      issue 0x30000000#32 unit = .next unit ∧
      issue 0x12000000#32 unit = .next { unit with err := 0x05#8 } ∧
      issue 0x01000000#32 State.reset =
        .next (initOutcome (Config.initSelftestOk 0) { State.reset with initDraws := 1 }) := ⟨rfl, rfl, rfl, rfl⟩

theorem test_witness_FatalStopIgnoresCommandsUntilReset :
    ({ State.reset with fatal := true, err := 0x04#8, script := [.rd .status] }).fatal = true ∧
      (∀ rest, [HostAction.rd .status] ≠ .reset :: rest) ∧
      after (step { State.reset with fatal := true, err := 0x04#8, script := [.rd .status] }) =
        some { State.reset with fatal := true, err := 0x04#8, observed := [0x00000402#32] } ∧
      Reg.recovCount ∈ [Reg.a0, Reg.a1, Reg.a2, Reg.blockBytes, Reg.origCount, Reg.recovCount] := by
  refine ⟨rfl, by simp, by decide, by decide⟩

theorem test_witness_CommandsBeforeInitFail :
    Instr.decode ≠ .init ∧ State.reset.fatal = false ∧ State.reset.initDone = false := by decide

/-- A reachable state with a full descriptor at the top of memory and a cached matrix has the invariants. -/
theorem test_witness_Invariants :
    State.Inv
      { unit with
        genValid := true, genK := 256#9, res := 0x94#8, descs := [⟨0xFFFFFFFF#32, 1#32, 0#8⟩],
        script := [.wr .cmd 0x30000000#32] } := by
  constructor <;> simp [unit, State.reset]

theorem test_witness_EveryStepKeepsInvariants :
    step { unit with descs := [⟨0xFFFFFFFF#32, 1#32, 0#8⟩], script := [.wr .cmd 0x30000000#32] } = .next unit := rfl

theorem test_witness_EveryStepKeepsMemoryCanonical :
    State.Inv { unit with script := [.store 0xFFFFFFFF#32 7#8] } ∧
      Memory.wf [(0, 1#8), (0xFFFFFFFE, 2#8)] = true ∧
      (after (step { unit with mem := [(0, 1#8), (0xFFFFFFFE, 2#8)], script := [.store 0xFFFFFFFF#32 7#8] })).map (·.mem) =
        some [(0, 1#8), (0xFFFFFFFE, 2#8), (0xFFFFFFFF, 7#8)] := by
  refine ⟨?_, by decide, by decide⟩
  constructor <;> simp [unit, State.reset]

theorem test_witness_CommandsKeepHostWrittenRegisters :
    exec .descclr unit = .next unit := rfl

theorem test_witness_ResultRegisterWritersAreFour :
    (after (exec (.gfmul 0x02#8 0x80#8) unit)).map (fun t => decide (t.res ≠ unit.res)) = some true := by decide +kernel

theorem test_witness_GeneratorCacheWritersAreThree :
    unit.ready ∧ exec .decode pairDecode = .next (decodeResult pairDecode [[0x73#8, 0x75#8], [0x9F#8, 0x9D#8]]) ∧
      (decodeResult pairDecode [[0x73#8, 0x75#8], [0x9F#8, 0x9D#8]]).err = 0x00#8 ∧
      exec .buildgen unit = .next { unit with err := 0x01#8, errSub := 2#8 } :=
  ⟨unit_ready, pairDecode_next, rfl, rfl⟩

/-- DECODE changes the tags of `pairDecode`; DESCPUSH and DESCCLR change the table. -/
theorem test_witness_DescriptorTableWritersAreThree :
    (decodeResult pairDecode [[0x73#8, 0x75#8], [0x9F#8, 0x9D#8]]).descs ≠ pairDecode.descs ∧
      exec (.descpush 5#8) unit = .next { unit with descs := [⟨0#32, 0#32, 5#8⟩] } ∧
      exec .descclr { unit with descs := [⟨0#32, 0#32, 5#8⟩] } = .next unit := ⟨by decide +kernel, rfl, rfl⟩

theorem test_witness_CommandsWriteOnlyTheirBuffers :
    (∃ t, exec .encode pairEncode = .next t) ∧ (∀ r ∈ writtenRanges .encode pairEncode, ¬ r.has 0x201) ∧
      exec (.gfinv 0#8) unit = .next { unit with err := 0x05#8 } := by
  refine ⟨⟨_, pairEncode_next⟩, ?_, rfl⟩
  simp [writtenRanges, pairEncode, coded, Descriptor.range, Range.has]

theorem test_witness_InverseIsTheUniqueOne : (0xFF#8 : Byte) ≠ 0#8 ∧ gfMul 0xFF#8 0x44#8 = 1#8 := by decide +kernel

theorem test_witness_FieldProductLaws : (0x53#8 : Byte) ≠ 0#8 ∧ gfMul 0x53#8 0#8 = 0#8 := by decide +kernel

theorem test_witness_InitBuildsTablesOrIsFatal :
    State.reset.fatal = false ∧ State.reset.initDone = false ∧ unit.fatal = false ∧ unit.initDone = true := by decide

theorem test_witness_GfmulGfdivGfinv : unit.ready ∧ (0xFF#8 : Byte) ≠ 0#8 := ⟨unit_ready, by decide⟩

/-- Ranges that end at the top of memory and are adjacent to one another. -/
theorem test_witness_MulaccAccumulatesScaledSource :
    ∃ s : State, s.ready ∧ s.a0.toNat + s.a2.toNat = 2 ^ 32 ∧ s.a1.toNat + s.a2.toNat ≤ 2 ^ 32 ∧
      s.mulaccDst.apart s.mulaccSrc ∧ s.platform.allows s.mulaccDst ∧ s.platform.allows s.mulaccSrc :=
  ⟨arguments 0xFFFFFFFD#32 0xFFFFFFFA#32 3#32 [], ⟨rfl, rfl⟩, by decide, by decide,
    (Range.disjoint_iff _ _).1 (by decide), reset_allows _, reset_allows _⟩

theorem test_witness_MulaccRejectsRangesPastTheTop :
    (arguments 0xFFFFFFFE#32 0x100#32 3#32 []).a0.toNat + (arguments 0xFFFFFFFE#32 0x100#32 3#32 []).a2.toNat = 2 ^ 32 + 1 ∧
      (arguments 0x200#32 0xFFFFFFFE#32 3#32 []).a1.toNat + (arguments 0x200#32 0xFFFFFFFE#32 3#32 []).a2.toNat =
        2 ^ 32 + 1 := by decide

theorem test_witness_MulaccTwiceRestoresMemory :
    exec (.mulacc 0#8) (arguments 0xFFFFFFFF#32 0xFFFFFFFF#32 0#32 []) = .next (arguments 0xFFFFFFFF#32 0xFFFFFFFF#32 0#32 []) ∧
      exec (.mulacc 2#8) (arguments 0x200#32 0x100#32 1#32 []) = .next (arguments 0x200#32 0x100#32 1#32 []) := ⟨rfl, rfl⟩

/-- A destination in a device range; ranges that share their last and first byte; the same two duties broken for ENCODE,
the first at its boundary, no recovery block (R46; log 8). -/
theorem test_witness_MulaccAndEncodeRefuseBrokenDuties :
    (∃ s : State, s.ready ∧ s.a0.toNat + s.a2.toNat ≤ 2 ^ 32 ∧ s.a1.toNat + s.a2.toNat ≤ 2 ^ 32 ∧
      ¬ (s.platform.allows s.mulaccDst ∧ s.platform.allows s.mulaccSrc)) ∧
    (∃ s : State, s.ready ∧ s.a0.toNat + s.a2.toNat ≤ 2 ^ 32 ∧ s.a1.toNat + s.a2.toNat ≤ 2 ^ 32 ∧
      s.platform.allows s.mulaccDst ∧ s.platform.allows s.mulaccSrc ∧ ¬ s.mulaccDst.apart s.mulaccSrc) ∧
    (∃ s : State, s.ready ∧ s.EncodeLegal ∧ s.recovCount = 0#32 ∧ ∃ d ∈ s.descs, ¬ s.platform.allows d.range) ∧
    (∃ s : State, s.ready ∧ s.EncodeLegal ∧ (∀ d ∈ s.descs, s.platform.allows d.range) ∧ ¬ s.EncodeDuties) := by
  have legal : (coded 1 1 1 [⟨0x100#32, 1#32, 0#8⟩, ⟨0x100#32, 1#32, 1#8⟩] []).EncodeLegal :=
    (State.encodeLegal_iff _).2 (by decide +kernel)
  refine ⟨⟨{ arguments 0x200#32 0x100#32 4#32 [] with platform := ⟨0, [⟨0x203, 1⟩]⟩ }, ⟨rfl, rfl⟩, by decide, by decide,
      fun h => ?_⟩,
    ⟨arguments 0x103#32 0x100#32 4#32 [], ⟨rfl, rfl⟩, by decide, by decide, reset_allows _, reset_allows _, fun h => ?_⟩,
    ⟨{ coded 1 1 0 [⟨0x104#32, 1#32, 0#8⟩] [] with platform := ⟨0, [⟨0x104, 1⟩]⟩ }, ⟨rfl, rfl⟩,
      (State.encodeLegal_iff _).2 (by decide +kernel), rfl, ⟨0x104#32, 1#32, 0#8⟩, by decide, fun h => ?_⟩,
    ⟨_, coded_ready _ _ _ _ _, legal, fun d _ => reset_allows _, fun h => ?_⟩⟩
  · exact absurd ((Platform.ordinary_iff _ _).2 h.1) (by decide)
  · exact absurd ((Range.disjoint_iff _ _).2 h) (by decide)
  · exact absurd ((Platform.ordinary_iff _ _).2 h) (by decide)
  · exact absurd ((encode_duties_iff legal).2 h) (by decide +kernel)

/-- The ends of the legal counts: 255 originals and one row, one original and 255 rows, 256 originals and no row. -/
theorem test_witness_CauchyParametersMeetConstraints :
    (1 ≤ 255 ∧ 255 ≤ 256 ∧ 1 ≤ 256 - 255 ∧ 254 < 255) ∧ (1 ≤ 1 ∧ 1 ≤ 256 ∧ 255 ≤ 256 - 1 ∧ 254 < 255) ∧
      (1 ≤ 256 ∧ 256 ≤ 256 ∧ 0 ≤ 256 - 256 ∧ 255 < 256) := by decide

/-- Both sides of every bound of the configuration checks. -/
theorem test_witness_ConfigurationIsCheckedInOrder :
    (coded 0 4 2 [] []).ready ∧ (coded 0 4 2 [] []).blockBytes = 0#32 ∧ (coded 1 4 2 [] []).blockBytes ≠ 0#32 ∧
      (coded 1 0 0 [] []).origCount.toNat < 1 ∧ (coded 1 257 0 [] []).origCount.toNat > 256 ∧
      (coded 1 256 1 [] []).origCount.toNat ≤ 256 ∧
      (coded 1 256 1 [] []).recovCount.toNat > 256 - (coded 1 256 1 [] []).origCount.toNat ∧
      (coded 1 1 256 [] []).recovCount.toNat > 256 - (coded 1 1 256 [] []).origCount.toNat :=
  ⟨coded_ready _ _ _ _ _, by decide, by decide, by decide, by decide, by decide, by decide, by decide⟩

theorem test_witness_BuildgenCachesThePair :
    (coded 0 256 0 [] []).ready ∧ (coded 0 256 0 [] []).CountsLegal ∧ (coded 0 1 255 [] []).CountsLegal :=
  ⟨coded_ready _ _ _ _ _, ⟨by decide, by decide, by decide⟩, ⟨by decide, by decide, by decide⟩⟩

/-- The last entry of the matrix and the entries just past it, in a state that has the invariants. -/
theorem test_witness_GenrdReturnsCachedEntryOrFails :
    ∃ s : State, s.ready ∧ s.Inv ∧ s.genValid = true ∧ 0 < s.genM.toNat ∧ 254 < s.genK.toNat ∧ 1 ≥ s.genM.toNat ∧
      255 ≥ s.genK.toNat := by
  refine ⟨{ unit with genValid := true, genK := 255#9, genM := 1#9 }, ⟨rfl, rfl⟩, ?_, rfl, by decide, by decide, by decide,
    by decide⟩
  constructor <;> simp [unit, State.reset]

/-- The three clauses: a full table, one byte past the top, exactly at the top. -/
theorem test_witness_DescpushAppendsOrFails :
    (coded 0 0 0 (List.replicate 256 ⟨0#32, 0#32, 0#8⟩) []).descs.length = 256 ∧
      (arguments 0xFFFFFFFF#32 2#32 0#32 []).a0.toNat + (arguments 0xFFFFFFFF#32 2#32 0#32 []).a1.toNat = 2 ^ 32 + 1 ∧
      (arguments 0xFFFFFFFF#32 1#32 0#32 []).a0.toNat + (arguments 0xFFFFFFFF#32 1#32 0#32 []).a1.toNat = 2 ^ 32 ∧
      (arguments 0xFFFFFFFF#32 1#32 0#32 []).descs.length ≠ 256 := by
  exact ⟨List.length_replicate, by decide, by decide, by decide⟩

theorem test_witness_DescPseudoInstructionAppends :
    ∃ (d : Descriptor) (s : State), s.ready ∧ s.script = scriptDesc d ++ [] ∧ s.descs.length < 256 ∧
      d.addr.toNat + d.len.toNat ≤ 2 ^ 32 :=
  ⟨⟨0xFFFFFFF0#32, 16#32, 255#8⟩, unit.withScript (scriptDesc ⟨0xFFFFFFF0#32, 16#32, 255#8⟩), ⟨rfl, rfl⟩, rfl, by decide,
    by decide⟩

/-- A table one short; a table whose second block has another length. -/
theorem test_witness_EncodeReportsShapeFailures :
    (coded 1 1 1 [] []).ready ∧ (coded 1 1 1 [] []).blockBytes ≠ 0#32 ∧ (coded 1 1 1 [] []).CountsLegal ∧
      (coded 1 1 1 [⟨0#32, 1#32, 0#8⟩] []).descs.length ≠ 1 + 1 ∧
      ∃ d, (coded 1 1 1 [⟨0#32, 1#32, 0#8⟩, ⟨8#32, 2#32, 1#8⟩] []).descs[1]? = some d ∧ d.len ≠ 1#32 :=
  ⟨coded_ready _ _ _ _ _, by decide, ⟨by decide, by decide, by decide⟩, by decide, ⟨8#32, 2#32, 1#8⟩, rfl, by decide⟩

theorem test_witness_EncodeWritesRecoveryBlocks :
    pairEncode.ready ∧ pairEncode.EncodeLegal ∧ pairEncode.EncodeDuties := ⟨⟨rfl, rfl⟩, pairEncode_legal, pairEncode_duties⟩

/-- At position 1 after a legal slot 0 of a (2, 2) code: a length, a tag 4 (the first past the range), a misplaced
original, a duplicate. -/
theorem test_witness_DecodeReportsShapeFailures :
    (coded 1 2 2 [] []).ready ∧ (coded 1 2 2 [] []).CountsLegal ∧ (coded 1 2 2 [] []).descs.length ≠ 2 ∧
      (coded 1 2 2 [] []).SlotLegal 0 ⟨0x200#32, 1#32, 2#8⟩ ∧
      (⟨0x204#32, 2#32, 1#8⟩ : Descriptor).len ≠ 1#32 ∧
      (⟨0x204#32, 1#32, 4#8⟩ : Descriptor).idx.toNat ≥ 2 + 2 ∧
      ((⟨0x204#32, 1#32, 0#8⟩ : Descriptor).idx.toNat < 2 ∧ (⟨0x204#32, 1#32, 0#8⟩ : Descriptor).idx.toNat ≠ 1) ∧
      ((coded 1 2 2 [] []).SlotLegal 1 ⟨0x204#32, 1#32, 2#8⟩ ∧
        (⟨0x204#32, 1#32, 2#8⟩ : Descriptor).idx = (⟨0x200#32, 1#32, 2#8⟩ : Descriptor).idx) :=
  ⟨coded_ready _ _ _ _ _, ⟨by decide, by decide, by decide⟩, by decide, ⟨rfl, by decide, by decide⟩, by decide, by decide,
    by decide, ⟨rfl, by decide, by decide⟩, rfl⟩

theorem test_witness_DecodeNeverExceedsTheBudget :
    pairDecode.ready ∧ exec .decode pairDecode = .next (decodeResult pairDecode [[0x73#8, 0x75#8], [0x9F#8, 0x9D#8]]) ∧
      (decodeResult pairDecode [[0x73#8, 0x75#8], [0x9F#8, 0x9D#8]]).err = 0x00#8 := ⟨⟨rfl, rfl⟩, pairDecode_next, rfl⟩

theorem test_witness_DecodeWithoutErasureIsNoOp :
    ∃ s : State, s.ready ∧ s.DecodeLegal ∧ (∀ d ∈ s.descs, ¬ s.erased d) ∧ ∀ d ∈ s.descs, s.platform.allows d.range := by
  refine ⟨coded 1 2 0 [⟨0x100#32, 1#32, 0#8⟩, ⟨0x104#32, 1#32, 1#8⟩] [], coded_ready _ _ _ _ _,
    (State.decodeLegal_iff _).2 (by decide +kernel), ?_, fun d _ => reset_allows _⟩
  simp [coded, State.erased]

theorem test_witness_EliminationReturnsTheInverse :
    (∀ row ∈ [[0x74#8, 0x01#8], [0x53#8, 0xA6#8]], row.length = 2) ∧
      invertMatrix [[0x74#8, 0x01#8], [0x53#8, 0xA6#8]] = some [[0x84#8, 0x45#8], [0x42#8, 0x86#8]] :=
  ⟨by decide, test_inverse⟩

theorem test_witness_EliminationFailsOnlyOnSingular :
    (∀ row ∈ [[0x02#8, 0x04#8], [0x01#8, 0x02#8]], row.length = 2) ∧
      invertMatrix [[0x02#8, 0x04#8], [0x01#8, 0x02#8]] = none := by decide +kernel

theorem test_witness_SquareSubmatricesAreInvertible :
    1 ≤ 254 ∧ 254 ≤ 256 ∧ 2 ≤ 256 - 254 ∧ [1, 0].length = [0, 253].length ∧ [1, 0].Nodup ∧ [0, 253].Nodup ∧
      (∀ r ∈ [1, 0], r < 2) ∧ (∀ c ∈ [0, 253], c < 254) := by decide

theorem test_witness_DecodeIsNeverFatal : pairDecode.fatal = false ∧ ∃ t, exec .decode pairDecode = .next t :=
  ⟨rfl, _, pairDecode_next⟩

/-- A step that runs a DECODE with erased slots. -/
theorem test_witness_EveryStepKeepsErrFromInternal :
    pairDecode.err ≠ 0x03#8 ∧ ∃ t, step (pairDecode.withScript [.wr .cmd 0x41000000#32]) = .next t := by
  refine ⟨by decide, _, Eq.trans ?_ pairDecode_next⟩
  simp only [step, State.withScript, hostAct, hostWrite, issue, test_decode_decode, if_true]
  rfl

theorem test_witness_DecodeSolvesForErasedBlocks :
    pairDecode.ready ∧ pairDecode.DecodeLegal ∧ pairDecode.DecodeDuties ∧ 2 ≤ pairDecode.slotTag 0 :=
  ⟨⟨rfl, rfl⟩, pairDecode_legal, pairDecode_duties, by decide⟩

theorem test_witness_SecondDecodeChangesNothing :
    ∃ t, pairDecode.ready ∧ exec .decode pairDecode = .next t ∧ t.err = 0x00#8 := ⟨_, ⟨rfl, rfl⟩, pairDecode_next, rfl⟩

/-- The whole chain of the round trip: `pairEncode`, what ENCODE leaves of it, and `pairDecode` whose two slots hold the
recovery bytes of that state. -/
theorem test_witness_DecodeOfEncodeRestoresOriginals :
    ∃ t, pairEncode.ready ∧ exec .encode pairEncode = .next t ∧ t.err = 0x00#8 ∧ pairDecode.ready ∧
      pairDecode.DecodeLegal ∧ pairDecode.DecodeDuties ∧ pairDecode.blockBytes = pairEncode.blockBytes ∧
      pairDecode.origCount = pairEncode.origCount ∧ pairDecode.recovCount = pairEncode.recovCount ∧
      ∀ p < 2, ∀ b < 1, pairDecode.slotByte p b =
        if pairDecode.slotTag p < 2 then pairEncode.slotByte p b else t.slotByte (pairDecode.slotTag p) b :=
  ⟨_, ⟨rfl, rfl⟩, pairEncode_next, rfl, ⟨rfl, rfl⟩, pairDecode_legal, pairDecode_duties, rfl, rfl, rfl, by decide +kernel⟩

/-- DECODE with a device range under a correct slot and nothing erased (R46; log 8), and with an erased slot that shares its
byte with a correct one. -/
theorem test_witness_DecodeRefusesBrokenDuties :
    (∃ s : State, s.ready ∧ s.DecodeLegal ∧ (∀ d ∈ s.descs, ¬ s.erased d) ∧ ∃ d ∈ s.descs, ¬ s.platform.allows d.range) ∧
    (∃ s : State, s.ready ∧ s.DecodeLegal ∧ (∀ d ∈ s.descs, s.platform.allows d.range) ∧ ¬ s.DecodeDuties) := by
  have legal : (coded 1 2 1 [⟨0x100#32, 1#32, 0#8⟩, ⟨0x100#32, 1#32, 2#8⟩] []).DecodeLegal :=
    (State.decodeLegal_iff _).2 (by decide +kernel)
  refine ⟨⟨{ coded 1 1 0 [⟨0x104#32, 1#32, 0#8⟩] [] with platform := ⟨0, [⟨0x104, 1⟩]⟩ }, ⟨rfl, rfl⟩,
      (State.decodeLegal_iff _).2 (by decide +kernel), by simp [coded, State.erased], ⟨0x104#32, 1#32, 0#8⟩, by decide,
      fun h => ?_⟩,
    ⟨_, coded_ready _ _ _ _ _, legal, fun d _ => reset_allows _, fun h => ?_⟩⟩
  · exact absurd ((Platform.ordinary_iff _ _).2 h) (by decide)
  · exact absurd ((decode_duties_iff legal).2 h) (by decide +kernel)

end Sys2Proof.Tests
end

/-! SUPPORT. The state as its two sides: what only commands and reset write, and what only the host writes. -/

namespace Sys2Proof.Machine

/-- The part of the state that only commands and reset write: the status, result and cache registers and the
descriptor table. Everything else is put to its reset value. -/
def State.unitPart (s : State) : State :=
  { State.reset with
    initDone := s.initDone, fatal := s.fatal, genValid := s.genValid, err := s.err, res := s.res, errSub := s.errSub,
    errPos := s.errPos, genK := s.genK, genM := s.genM, descs := s.descs }

/-- The part of the state that no command writes: argument and parameter registers, host side, platform (R10, R11). -/
def State.hostPart (s : State) : State :=
  { State.reset with
    a0 := s.a0, a1 := s.a1, a2 := s.a2, blockBytes := s.blockBytes, origCount := s.origCount,
    recovCount := s.recovCount, script := s.script, observed := s.observed, platform := s.platform }

theorem State.hostPart_eq_iff {s t : State} :
    t.hostPart = s.hostPart ↔
      t.a0 = s.a0 ∧ t.a1 = s.a1 ∧ t.a2 = s.a2 ∧ t.blockBytes = s.blockBytes ∧ t.origCount = s.origCount ∧
        t.recovCount = s.recovCount ∧ t.script = s.script ∧ t.observed = s.observed ∧ t.platform = s.platform := by
  simp [State.hostPart]

@[simp] theorem State.unitPart_withScript (s : State) (as : List HostAction) :
    (s.withScript as).unitPart = s.unitPart := rfl

@[simp] theorem State.unitPart_observe (s : State) (v : Word) : (s.observe v).unitPart = s.unitPart := rfl

@[simp] theorem State.unitPart_withMem (s : State) (m : Memory) : (s.withMem m).unitPart = s.unitPart := rfl

@[simp] theorem State.unitPart_writeReg (r : Reg) (v : Word) (s : State) :
    (writeReg r v s).unitPart = s.unitPart := by cases r <;> rfl

theorem statusWord_unitPart (s : State) : statusWord s.unitPart = statusWord s := rfl

/-! ### Register reads and writes -/

/-- The six read-write registers (R11, R21 to R23). -/
abbrev writableRegs : List Reg := [.a0, .a1, .a2, .blockBytes, .origCount, .recovCount]

theorem readReg_writeReg_same {r : Reg} (h : r ∈ writableRegs) (v : Word) (s : State) :
    readReg r (writeReg r v s) = v := by
  simp only [List.mem_cons, List.not_mem_nil, or_false] at h
  rcases h with rfl | rfl | rfl | rfl | rfl | rfl <;> rfl

theorem readReg_writeReg_other {q r : Reg} (h : q ≠ r) (v : Word) (s : State) :
    readReg q (writeReg r v s) = readReg q s := by
  cases q <;>
    simp [readReg, statusWord, resWord, errInfoWord, genDimsWord, descCountWord, descCount, h.symm]

theorem writeReg_of_not_writable {r : Reg} (h : r ∉ writableRegs) (v : Word) (s : State) : writeReg r v s = s := by
  cases r <;> simp [writeReg] at h ⊢

end Sys2Proof.Machine

/-! SUPPORT. What a command, a host action and a step can do when they answer a next state. -/

namespace Sys2Proof.Machine

/-! ### Commands -/

/-- What a successful command makes of the state, before ERR and ERRINFO become 0: one constructor per command, two for
INIT, each with the guards of the command's rule. -/
inductive Effect (s : State) : Instr → State → Prop
  | initAgain (hi : s.initDone = true) : Effect s .init s
  | initBuilt (hi : s.initDone = false) :
      Effect s .init { s with initDone := true, initDraws := s.initDraws + 1 }
  | gfmul (a b : Byte) (hi : s.initDone = true) : Effect s (.gfmul a b) (s.withRes (gfMul a b))
  | gfdiv (a b : Byte) (hi : s.initDone = true) (hb : b ≠ 0#8) : Effect s (.gfdiv a b) (s.withRes (gfDiv a b))
  | gfinv (a : Byte) (hi : s.initDone = true) (ha : a ≠ 0#8) : Effect s (.gfinv a) (s.withRes (gfInv a))
  | mulacc (c : Byte) (hi : s.initDone = true) (hr : mulaccInRange s)
      (hd : dutyBroken s.platform (mulaccBuffers s) = none) :
      Effect s (.mulacc c) (s.withMem (Memory.storeBlock s.mem s.a0.toNat (mulaccByte c s) s.a2.toNat))
  | buildgen (hi : s.initDone = true) (hc : s.CountsLegal) :
      Effect s .buildgen (s.withGenerator s.origCount s.recovCount)
  | genrd (row col : Nat) (hi : s.initDone = true) (hg : s.genValid = true) (hr : row < s.genM.toNat)
      (hc : col < s.genK.toNat) : Effect s (.genrd row col) (s.withRes (genEntry s.genK.toNat row col))
  | descclr (hi : s.initDone = true) : Effect s .descclr (s.withDescs [])
  | descpush (tag : Byte) (hi : s.initDone = true) (hl : s.descs.length ≠ 256)
      (hr : s.a0.toNat + s.a1.toNat ≤ 2 ^ 32) :
      Effect s (.descpush tag) (s.withDescs (s.descs ++ [⟨s.a0, s.a1, tag⟩]))
  | encode (hi : s.initDone = true) (hl : s.EncodeLegal) (hd : s.EncodeDuties) :
      Effect s .encode ((s.withGenerator s.origCount s.recovCount).withMem (encodeMemory s))
  | decode (W : GfMatrix) (hi : s.initDone = true) (hl : s.DecodeLegal) (hd : s.DecodeDuties)
      (hW : invertMatrix (submatrix s.origCount.toNat s.descs) = some W) :
      Effect s .decode (((s.withGenerator s.origCount s.recovCount).withMem (decodeMemory s W)).withDescs
        (retagged s.origCount.toNat s.descs))

/-- The next states a command can answer (R160): ignored, failed, fatal in one of two ways, or succeeded.
Which failure a command reports, and when, is said by its own lemma (`execGfdiv_next` and the like). -/
inductive CommandAnswer (i : Instr) (s : State) : State → Prop
  | ignored (hf : s.fatal = true) : CommandAnswer i s s
  | failed (hf : s.fatal = false) (f : Failure) : CommandAnswer i s (fail f s)
  | initFail (hc : i = .init) (hf : s.fatal = false) (hi : s.initDone = false) :
      CommandAnswer i s (raiseFatal .initFail { s with initDraws := s.initDraws + 1 })
  | internal (hc : i = .decode) (hr : s.ready) (hl : s.DecodeLegal)
      (hW : invertMatrix (submatrix s.origCount.toNat s.descs) = none) : CommandAnswer i s (raiseFatal .internal s)
  | succeeded {u : State} (hf : s.fatal = false) (h : Effect s i u) : CommandAnswer i s (succeed u)

theorem CommandAnswer.of_notRun {i : Instr} {s t : State} (h : NotRun s t) : CommandAnswer i s t := by
  obtain ⟨hf, rfl⟩ | ⟨hf, -, rfl⟩ := h
  · exact .ignored hf
  · exact .failed hf _

theorem CommandAnswer.of_execInit {s t : State} (h : execInit s = .next t) : CommandAnswer .init s t := by
  obtain ⟨hf, rfl⟩ | ⟨hf, hi, rfl⟩ | ⟨hf, hi, rfl⟩ := execInit_next h
  · exact .ignored hf
  · exact .succeeded hf (.initAgain hi)
  · cases hok : Config.initSelftestOk s.initDraws with
    | true => exact .succeeded hf (.initBuilt hi)
    | false => exact .initFail rfl hf hi

/-- The inversion of `exec`: the one place that goes through all eleven commands. -/
theorem exec_next {i : Instr} {s t : State} (h : exec i s = .next t) : CommandAnswer i s t := by
  cases i with
  | init => exact .of_execInit h
  | gfmul a b =>
    obtain h | ⟨hr, rfl⟩ := execGfmul_next h
    · exact .of_notRun h
    · exact .succeeded hr.1 (.gfmul a b hr.2)
  | gfdiv a b =>
    obtain h | ⟨hr, -, rfl⟩ | ⟨hr, hb, rfl⟩ := execGfdiv_next h
    · exact .of_notRun h
    · exact .failed hr.1 _
    · exact .succeeded hr.1 (.gfdiv a b hr.2 hb)
  | gfinv a =>
    obtain h | ⟨hr, -, rfl⟩ | ⟨hr, ha, rfl⟩ := execGfinv_next h
    · exact .of_notRun h
    · exact .failed hr.1 _
    · exact .succeeded hr.1 (.gfinv a hr.2 ha)
  | mulacc c =>
    obtain h | ⟨hr, -, rfl⟩ | ⟨hr, hin, hd, rfl⟩ := execMulacc_next h
    · exact .of_notRun h
    · exact .failed hr.1 _
    · exact .succeeded hr.1 (.mulacc c hr.2 hin hd)
  | buildgen =>
    obtain h | ⟨hr, f, -, rfl⟩ | ⟨hr, hc, rfl⟩ := execBuildgen_next h
    · exact .of_notRun h
    · exact .failed hr.1 f
    · exact .succeeded hr.1 (.buildgen hr.2 hc)
  | genrd row col =>
    obtain h | ⟨hr, rfl⟩ | ⟨hr, hg, hrow, hcol, rfl⟩ := execGenrd_next h
    · exact .of_notRun h
    · exact .failed hr.1 _
    · exact .succeeded hr.1 (.genrd row col hr.2 hg hrow hcol)
  | descclr =>
    obtain h | ⟨hr, rfl⟩ := execDescclr_next h
    · exact .of_notRun h
    · exact .succeeded hr.1 (.descclr hr.2)
  | descpush tag =>
    obtain h | ⟨hr, -, rfl⟩ | ⟨hr, -, -, rfl⟩ | ⟨hr, hl, hle, rfl⟩ := execDescpush_next h
    · exact .of_notRun h
    · exact .failed hr.1 _
    · exact .failed hr.1 _
    · exact .succeeded hr.1 (.descpush tag hr.2 hl hle)
  | encode =>
    obtain h | ⟨hr, f, -, rfl⟩ | ⟨hr, hl, hd, rfl⟩ := execEncode_next h
    · exact .of_notRun h
    · exact .failed hr.1 f
    · exact .succeeded hr.1 (.encode hr.2 hl hd)
  | decode =>
    obtain h | ⟨hr, f, -, rfl⟩ | ⟨hr, hl, hW, rfl⟩ | ⟨hr, hl, hd, W, hW, rfl⟩ := execDecode_next h
    · exact .of_notRun h
    · exact .failed hr.1 f
    · exact .internal rfl hr hl hW
    · exact .succeeded hr.1 (.decode W hr.2 hl hd hW)

/-- R161: the codes of the recoverable failures. -/
theorem Failure.code_mem (f : Failure) : f.code ∈ [0x01#8, 0x02#8, 0x05#8, 0x06#8, 0x07#8] := by
  cases f <;> simp [Failure.code]

theorem Failure.code_ne_zero (f : Failure) : f.code ≠ 0x00#8 := by cases f <;> simp [Failure.code]

/-- A command of a unit that is stopped is ignored (R165). -/
theorem exec_of_fatal {s : State} (h : s.fatal = true) (i : Instr) : exec i s = .next s := by
  cases i with
  | init => simp [exec, execInit, h]
  | _ => exact whenReady_of_fatal h _

theorem rejectWord_of_fatal {s : State} (h : s.fatal = true) (f : Failure) : rejectWord f s = s := if_pos h

theorem rejectWord_of_not_fatal {s : State} (h : s.fatal = false) (f : Failure) : rejectWord f s = fail f s := by
  simp [rejectWord, h]

/-! ### Command writes -/

theorem issue_of_command {w : Word} {i : Instr} (h : decode w = .command i) (s : State) : issue w s = exec i s := by
  simp [issue, h]

theorem issue_next {w : Word} {s t : State} (h : issue w s = .next t) :
    (∃ i, decode w = .command i ∧ exec i s = .next t) ∨
      (decode w = .illegalOpcode ∧ t = rejectWord .illegalOpcode s) ∨
      (decode w = .illegalReserved ∧ t = rejectWord .illegalReserved s) := by
  unfold issue at h
  split at h
  · next i hd => exact .inl ⟨i, hd, h⟩
  · next hd => exact .inr (.inl ⟨hd, (Host.Outcome.next.inj h).symm⟩)
  · next hd => exact .inr (.inr ⟨hd, (Host.Outcome.next.inj h).symm⟩)

/-- A command write to a unit that is stopped is ignored (R165). -/
theorem issue_of_fatal {s : State} (h : s.fatal = true) (w : Word) : issue w s = .next s := by
  cases hd : decode w with
  | command i => rw [issue_of_command hd, exec_of_fatal h]
  | illegalOpcode => simp [issue, hd, rejectWord_of_fatal h]
  | illegalReserved => simp [issue, hd, rejectWord_of_fatal h]

/-! ### Host actions and steps -/

/-- The next states of every host action but reset. -/
inductive HostAnswer (s : State) : State → Prop
  | command {w : Word} {t : State} (h : issue w s = .next t) : HostAnswer s t
  | written (r : Reg) (v : Word) : HostAnswer s (writeReg r v s)
  | observed (v : Word) : HostAnswer s (s.observe v)
  | stored (addr : Word) (v : Byte) (ho : s.platform.allows ⟨addr.toNat, 1⟩) :
      HostAnswer s (s.withMem (Memory.write s.mem addr.toNat v))

theorem hostWrite_cmd (v : Word) (s : State) : hostWrite .cmd v s = issue v s := if_pos rfl

theorem hostWrite_of_ne_cmd {r : Reg} (h : r ≠ .cmd) (v : Word) (s : State) :
    hostWrite r v s = .next (writeReg r v s) := if_neg h

theorem HostAnswer.of_hostWrite {r : Reg} {v : Word} {s t : State} (h : hostWrite r v s = .next t) :
    HostAnswer s t := by
  by_cases hr : r = .cmd
  · subst hr
    exact .command (hostWrite_cmd v s ▸ h)
  · rw [hostWrite_of_ne_cmd hr] at h
    exact Host.Outcome.next.inj h ▸ .written r v

theorem hostAct_next {a : HostAction} {s t : State} (h : hostAct a s = .next t) :
    (a = .reset ∧ t = resetUnit s) ∨ HostAnswer s t := by
  cases a with
  | wr r v => exact .inr (.of_hostWrite h)
  | rd r => exact .inr (Host.Outcome.next.inj h ▸ .observed _)
  | busWrite addr bytes v =>
    simp only [hostAct] at h
    split at h
    · exact .inr (.of_hostWrite h)
    · simp at h
  | busRead addr bytes =>
    simp only [hostAct] at h
    split at h
    · exact .inr (Host.Outcome.next.inj h ▸ .observed _)
    · simp at h
  | store addr v =>
    simp only [hostAct, hostStore] at h
    split at h
    · next ho => exact .inr (Host.Outcome.next.inj h ▸ .stored addr v ((Platform.ordinary_iff _ _).1 ho))
    · simp at h
  | load addr =>
    simp only [hostAct, hostLoad] at h
    split at h
    · exact .inr (Host.Outcome.next.inj h ▸ .observed _)
    · simp at h
  | reset => exact .inl ⟨rfl, (Host.Outcome.next.inj h).symm⟩

theorem step_nil {s : State} (h : s.script = []) : step s = .next s := by simp [step, h]

theorem step_cons {s : State} {a : HostAction} {rest : List HostAction} (h : s.script = a :: rest) :
    step s = hostAct a (s.withScript rest) := by simp [step, h]

/-- The inversion of `step`: idle, reset, or another action done in the state without it. -/
theorem step_next {s t : State} (h : step s = .next t) :
    (s.script = [] ∧ t = s) ∨
      (∃ rest, s.script = .reset :: rest ∧ t = resetUnit (s.withScript rest)) ∨
      ∃ rest, HostAnswer (s.withScript rest) t := by
  cases hs : s.script with
  | nil =>
    rw [step_nil hs] at h
    exact .inl ⟨rfl, (Host.Outcome.next.inj h).symm⟩
  | cons a rest =>
    rw [step_cons hs] at h
    obtain ⟨rfl, ht⟩ | ht := hostAct_next h
    · exact .inr (.inl ⟨rest, rfl, ht⟩)
    · exact .inr (.inr ⟨rest, ht⟩)

/-! ### Bus accesses (R15, R16) -/

section
variable {s : State} {addr bytes : Nat}

theorem hostAct_busWrite_of_reg {r : Reg} (h : windowReg s.platform.regBase addr bytes = some r) (v : Word) :
    hostAct (.busWrite addr bytes v) s = hostAct (.wr r v) s := by simp [hostAct, h]

theorem hostAct_busRead_of_reg {r : Reg} (h : windowReg s.platform.regBase addr bytes = some r) :
    hostAct (.busRead addr bytes) s = hostAct (.rd r) s := by simp [hostAct, h]

theorem hostAct_busWrite_of_none (h : windowReg s.platform.regBase addr bytes = none) (v : Word) :
    hostAct (.busWrite addr bytes v) s = .refused .partialRegisterAccess := by simp [hostAct, h]

theorem hostAct_busRead_of_none (h : windowReg s.platform.regBase addr bytes = none) :
    hostAct (.busRead addr bytes) s = .refused .partialRegisterAccess := by simp [hostAct, h]

end

theorem windowReg_of_number (base : Nat) (r : Reg) : windowReg base (base + 4 * r.number) 4 = some r :=
  (windowReg_eq_some_iff _ _ _ _).2 ⟨rfl, rfl⟩

theorem windowReg_eq_none_iff (base addr bytes : Nat) :
    windowReg base addr bytes = none ↔ ∀ r : Reg, ¬ (bytes = 4 ∧ addr = base + 4 * r.number) := by
  simp only [Option.eq_none_iff_forall_ne_some, Ne, windowReg_eq_some_iff]

end Sys2Proof.Machine

/-! SUPPORT. The invariants of R33, operation by operation. -/

namespace Sys2Proof.Machine

/-! ### Operations that touch no field of the invariants -/

/-- The invariants speak of nothing but the unit's part. -/
theorem State.inv_unitPart (s : State) : s.unitPart.Inv ↔ s.Inv := ⟨fun h => { h with }, fun h => { h with }⟩

theorem State.Inv.of_unitPart_eq {s t : State} (h : s.Inv) (e : t.unitPart = s.unitPart) : t.Inv :=
  t.inv_unitPart.1 (e ▸ s.inv_unitPart.2 h)

theorem State.inv_reset : State.reset.Inv := by constructor <;> simp [State.reset]

theorem unitPart_resetUnit (s : State) : (resetUnit s).unitPart = State.reset.unitPart := rfl

/-! ### ERR and FATAL -/

section
variable {s : State} (h : s.Inv)
include h

theorem State.Inv.err_not_fatal_code (hf : s.fatal = false) : s.err ≠ 0x03#8 ∧ s.err ≠ 0x04#8 :=
  ⟨fun e => by simpa [hf] using (h.err_internal e).1, fun e => by simpa [hf] using (h.err_initFail e).1⟩

theorem State.Inv.succeed_inv (hf : s.fatal = false) : (succeed s).Inv :=
  { h with
    err_le := by simp
    fatal_err := by simp [hf]
    err_initFail := by simp
    err_internal := by simp }

theorem State.Inv.fail_inv (hf : s.fatal = false) (f : Failure) : (fail f s).Inv := by
  have hc := f.code_mem
  simp only [List.mem_cons, List.not_mem_nil, or_false] at hc
  exact
    { h with
      err_le := by rcases hc with e | e | e | e | e <;> simp [e]
      fatal_err := by simp [hf]
      err_initFail := by rcases hc with e | e | e | e | e <;> simp [e]
      err_internal := by rcases hc with e | e | e | e | e <;> simp [e] }

theorem State.Inv.initFail_inv (hi : s.initDone = false) : (raiseFatal .initFail s).Inv :=
  { h with
    err_le := by simp [Fatality.code]
    fatal_err := by simp [Fatality.code]
    err_initFail := by simp [hi]
    err_internal := by simp [Fatality.code] }

theorem State.Inv.internal_inv (hi : s.initDone = true) : (raiseFatal .internal s).Inv :=
  { h with
    err_le := by simp [Fatality.code]
    fatal_err := by simp [Fatality.code]
    err_initFail := by simp [Fatality.code]
    err_internal := by simp [hi] }

/-! ### The effects of the commands -/

theorem State.Inv.initDone_inv (hf : s.fatal = false) (n : Nat) :
    State.Inv { s with initDone := true, initDraws := n } :=
  { h with
    err_initFail := fun e => absurd e (h.err_not_fatal_code hf).2
    err_internal := fun e => absurd e (h.err_not_fatal_code hf).1
    genValid_dims := fun hg => ⟨rfl, (h.genValid_dims hg).2⟩
    descs_init := fun _ => rfl
    res_init := fun _ => rfl }

theorem State.Inv.withRes_inv (hi : s.initDone = true) (v : Byte) : (s.withRes v).Inv :=
  { h with res_init := fun _ => hi }

theorem State.Inv.withDescs_inv (hi : s.initDone = true) {ds : List Descriptor} (hl : ds.length ≤ 256)
    (hr : ∀ d ∈ ds, d.addr.toNat + d.len.toNat ≤ 2 ^ 32) : (s.withDescs ds).Inv :=
  { h with
    descCount_le := hl
    desc_range := hr
    descs_init := fun _ => hi }

end

/-- The cache holds the counts of the registers exactly when they are legal (R118, log 19). -/
theorem State.CountsLegal.toNat_setWidth {s : State} (h : s.CountsLegal) :
    (s.origCount.setWidth 9).toNat = s.origCount.toNat ∧ (s.recovCount.setWidth 9).toNat = s.recovCount.toNat := by
  obtain ⟨hmin, hmax, hsum⟩ := h
  rw [BitVec.toNat_setWidth, BitVec.toNat_setWidth]
  exact ⟨Nat.mod_eq_of_lt (by omega), Nat.mod_eq_of_lt (by omega)⟩

theorem State.Inv.withGenerator_inv {s : State} (h : s.Inv) (hi : s.initDone = true) (hc : s.CountsLegal) :
    (s.withGenerator s.origCount s.recovCount).Inv := by
  obtain ⟨hk, hm⟩ := hc.toNat_setWidth
  exact
    { h with
      genValid_dims := fun _ => by
        rw [State.withGenerator_genK, State.withGenerator_genM, hk, hm]
        exact ⟨hi, hc.orig_min, hc.orig_max, hc.sum⟩ }

/-- DECODE moves no buffer: what holds of every address and length still holds after it. -/
theorem forall_retagged_iff (P : Word → Word → Prop) (k : Nat) (ds : List Descriptor) :
    (∀ d ∈ retagged k ds, P d.addr d.len) ↔ ∀ d ∈ ds, P d.addr d.len := by
  have key := congrArg (fun l => ∀ x ∈ l, P x.1 x.2) (retagged_map_addr_len k ds)
  simpa only [List.forall_mem_map] using iff_of_eq key

theorem Effect.inv {i : Instr} {s u : State} (hu : Effect s i u) (h : s.Inv) (hf : s.fatal = false) : u.Inv := by
  cases hu with
  | initAgain hi => exact h
  | initBuilt hi => exact h.initDone_inv hf _
  | gfmul a b hi => exact h.withRes_inv hi _
  | gfdiv a b hi hb => exact h.withRes_inv hi _
  | gfinv a hi ha => exact h.withRes_inv hi _
  | mulacc c hi hr hd => exact h.of_unitPart_eq rfl
  | buildgen hi hc => exact h.withGenerator_inv hi hc
  | genrd row col hi hg hr hc => exact h.withRes_inv hi _
  | descclr hi => exact h.withDescs_inv hi (Nat.zero_le _) (by simp)
  | descpush tag hi hl hr =>
    refine h.withDescs_inv hi ?_ fun d hd => ?_
    · have := h.descCount_le
      rw [List.length_append, List.length_singleton]
      omega
    · rcases List.mem_append.1 hd with hd | hd
      · exact h.desc_range d hd
      · rw [List.mem_singleton.1 hd]
        exact hr
  | encode hi hl hd => exact (h.withGenerator_inv hi hl.counts).of_unitPart_eq rfl
  | decode W hi hl hd hW =>
    have hg := (h.withGenerator_inv hi hl.counts).of_unitPart_eq (State.unitPart_withMem _ (decodeMemory s W))
    refine hg.withDescs_inv hi ?_ ?_
    · rw [length_retagged]
      exact h.descCount_le
    · exact (forall_retagged_iff (fun a n => a.toNat + n.toNat ≤ 2 ^ 32) _ _).2 h.desc_range

/-! ### Commands, host actions, steps -/

/-- What R33 asks of a step that is not a reset: the invariants are kept, and INIT_DONE, FATAL and GEN_VALID do not go
from 1 to 0. -/
structure InvKept (s t : State) : Prop where
  inv : s.Inv → t.Inv
  initDone : s.initDone = true → t.initDone = true
  fatal : s.fatal = true → t.fatal = true
  genValid : s.genValid = true → t.genValid = true

theorem InvKept.of_unitPart_eq {s t : State} (e : t.unitPart = s.unitPart) : InvKept s t where
  inv h := h.of_unitPart_eq e
  initDone := (congrArg State.initDone e).trans
  fatal := (congrArg State.fatal e).trans
  genValid := (congrArg State.genValid e).trans

theorem InvKept.fail {s : State} (hf : s.fatal = false) (f : Failure) : InvKept s (Machine.fail f s) :=
  ⟨fun h => h.fail_inv hf f, id, id, id⟩

theorem Effect.fatal_eq {i : Instr} {s u : State} (hu : Effect s i u) : u.fatal = s.fatal := by cases hu <;> rfl

theorem Effect.invKept {i : Instr} {s u : State} (hu : Effect s i u) (hf : s.fatal = false) :
    InvKept s (succeed u) where
  inv h := (hu.inv h hf).succeed_inv (hu.fatal_eq.trans hf)
  initDone hi := by cases hu <;> simp [hi]
  fatal := hu.fatal_eq.trans
  genValid hg := by cases hu <;> simp [hg]

theorem CommandAnswer.invKept {i : Instr} {s t : State} (ht : CommandAnswer i s t) : InvKept s t := by
  cases ht with
  | ignored hf => exact .of_unitPart_eq rfl
  | failed hf f => exact .fail hf f
  | initFail hc hf hi =>
    refine ⟨fun h => ?_, id, fun _ => rfl, id⟩
    have drawn : State.Inv { s with initDraws := s.initDraws + 1 } := h.of_unitPart_eq rfl
    exact drawn.initFail_inv hi
  | internal hc hr hl hW => exact ⟨fun h => h.internal_inv hr.2, id, fun _ => rfl, id⟩
  | succeeded hf hu => exact hu.invKept hf

theorem rejectWord_invKept (f : Failure) (s : State) : InvKept s (rejectWord f s) := by
  cases hf : s.fatal with
  | true => exact .of_unitPart_eq (congrArg State.unitPart (rejectWord_of_fatal hf f))
  | false => exact rejectWord_of_not_fatal hf f ▸ .fail hf f

theorem issue_invKept {w : Word} {s t : State} (ht : issue w s = .next t) : InvKept s t := by
  obtain ⟨i, -, hx⟩ | ⟨-, rfl⟩ | ⟨-, rfl⟩ := issue_next ht
  · exact (exec_next hx).invKept
  · exact rejectWord_invKept _ s
  · exact rejectWord_invKept _ s

theorem HostAnswer.invKept {s t : State} (ht : HostAnswer s t) : InvKept s t := by
  cases ht with
  | command hx => exact issue_invKept hx
  | written r v => exact .of_unitPart_eq (State.unitPart_writeReg r v s)
  | observed v => exact .of_unitPart_eq (State.unitPart_observe s v)
  | stored addr v ho => exact .of_unitPart_eq (State.unitPart_withMem s _)

theorem step_resets_or_invKept {s t : State} (ht : step s = .next t) :
    (∃ rest, s.script = .reset :: rest ∧ t.Inv) ∨ InvKept s t := by
  obtain ⟨-, rfl⟩ | ⟨rest, hs, rfl⟩ | ⟨rest, ht⟩ := step_next ht
  · exact .inr (.of_unitPart_eq rfl)
  · exact .inl ⟨rest, hs, State.inv_reset.of_unitPart_eq (unitPart_resetUnit _)⟩
  · obtain ⟨hinv, hinit, hfatal, hgen⟩ := ht.invKept
    exact .inr ⟨fun h => hinv (h.of_unitPart_eq (State.unitPart_withScript s rest)), hinit, hfatal, hgen⟩

/-! ### The obligations on the invariants -/

/-- Settles O20: the invariants hold in every reset state and each step keeps them. -/
theorem everyStepKeepsInvariants : Obligations.EveryStepKeepsInvariants := by
  refine ⟨fun m as p => State.inv_reset.of_unitPart_eq rfl, fun s t h ht => ?_⟩
  obtain ⟨rest, hs, hinv⟩ | ⟨hinv, hinit, hfatal, hgen⟩ := step_resets_or_invKept ht
  · exact ⟨hinv, fun hr => absurd hs (hr rest)⟩
  · exact ⟨hinv h, fun _ => ⟨hinit, hfatal, hgen⟩⟩

/-- Settles O19: reset memory lists nothing. -/
theorem invariantsHoldAfterReset : Obligations.InvariantsHoldAfterReset := ⟨State.inv_reset, rfl⟩

end Sys2Proof.Machine

/-! SUPPORT. What the commands write and leave: the host's registers, RES, the generator cache, the descriptor table. -/

namespace Sys2Proof.Machine

theorem CommandAnswer.hostPart_eq {i : Instr} {s t : State} (ht : CommandAnswer i s t) : t.hostPart = s.hostPart := by
  cases ht with
  | succeeded hf hu => cases hu <;> rfl
  | _ => rfl

/-- Settles O22: a command leaves the whole host part of the state. -/
theorem commandsKeepHostWrittenRegisters : Obligations.CommandsKeepHostWrittenRegisters := by
  intro i s t h
  exact State.hostPart_eq_iff.1 (exec_next h).hostPart_eq

/-- A command that does not succeed changes neither RES nor the generator cache nor the descriptor table. -/
theorem CommandAnswer.succeeded_or_kept {i : Instr} {s t : State} (ht : CommandAnswer i s t) :
    (∃ u, Effect s i u ∧ t = succeed u) ∨
      (t.res = s.res ∧ t.descs = s.descs ∧ t.genValid = s.genValid ∧ t.genK = s.genK ∧ t.genM = s.genM) := by
  cases ht with
  | succeeded hf hu => exact .inl ⟨_, hu, rfl⟩
  | _ => exact .inr ⟨rfl, rfl, rfl, rfl, rfl⟩

/-- From a ready state only success leaves ERR = 0. -/
theorem CommandAnswer.succeeded_of_err_zero {i : Instr} {s t : State} (ht : CommandAnswer i s t) (hr : s.ready)
    (he : t.err = 0x00#8) : ∃ u, Effect s i u ∧ t = succeed u := by
  obtain ⟨hfatal, hinit⟩ := hr
  cases ht with
  | ignored hf => simp [hfatal] at hf
  | failed hf f => exact absurd he f.code_ne_zero
  | initFail hc hf hi => simp [hinit] at hi
  | internal hc hr hl hW => exact absurd he (by simp [Fatality.code])
  | succeeded hf hu => exact ⟨_, hu, rfl⟩

theorem Effect.res_writers {i : Instr} {s u : State} (hu : Effect s i u) (hne : u.res ≠ s.res) :
    (∃ a b, i = .gfmul a b) ∨ (∃ a b, i = .gfdiv a b) ∨ (∃ a, i = .gfinv a) ∨ ∃ r c, i = .genrd r c := by
  cases hu with
  | gfmul a b hi => exact .inl ⟨a, b, rfl⟩
  | gfdiv a b hi hb => exact .inr (.inl ⟨a, b, rfl⟩)
  | gfinv a hi ha => exact .inr (.inr (.inl ⟨a, rfl⟩))
  | genrd row col hi hg hr hc => exact .inr (.inr (.inr ⟨row, col, rfl⟩))
  | _ => exact absurd rfl hne

/-- Settles O23: RES moves only by success, and then by one of the four effects that write it. -/
theorem resultRegisterWritersAreFour : Obligations.ResultRegisterWritersAreFour := by
  intro i s t h hne
  obtain ⟨u, hu, rfl⟩ | ⟨hres, -⟩ := (exec_next h).succeeded_or_kept
  · exact ⟨rfl, hu.res_writers hne⟩
  · exact absurd hres hne

theorem Effect.descs_writers {i : Instr} {s u : State} (hu : Effect s i u) (hne : u.descs ≠ s.descs) :
    (i = .descclr ∧ u.descs = []) ∨
      (∃ tag, i = .descpush tag ∧ u.descs = s.descs ++ [⟨s.a0, s.a1, tag⟩]) ∨
      (i = .decode ∧ u.descs.map (fun d => (d.addr, d.len)) = s.descs.map fun d => (d.addr, d.len)) := by
  cases hu with
  | descclr hi => exact .inl ⟨rfl, rfl⟩
  | descpush tag hi hl hr => exact .inr (.inl ⟨tag, rfl, rfl⟩)
  | decode W hi hl hd hW => exact .inr (.inr ⟨rfl, retagged_map_addr_len _ _⟩)
  | _ => exact absurd rfl hne

/-- Settles O25: the table moves only by success, and then by one of the three effects that write it. -/
theorem descriptorTableWritersAreThree : Obligations.DescriptorTableWritersAreThree := by
  intro i s t h hne
  obtain ⟨u, hu, rfl⟩ | ⟨-, hdescs, -⟩ := (exec_next h).succeeded_or_kept
  · exact ⟨rfl, hu.descs_writers hne⟩
  · exact absurd hdescs hne

theorem withGenerator_holds_counts {s : State} (hc : s.CountsLegal) :
    (s.withGenerator s.origCount s.recovCount).genValid = true ∧
      (s.withGenerator s.origCount s.recovCount).genK.toNat = s.origCount.toNat ∧
      (s.withGenerator s.origCount s.recovCount).genM.toNat = s.recovCount.toNat := ⟨rfl, hc.toNat_setWidth⟩

theorem Effect.cache_of_writer {i : Instr} {s u : State} (hu : Effect s i u)
    (hi : i = .buildgen ∨ i = .encode ∨ i = .decode) :
    u.genValid = true ∧ u.genK.toNat = s.origCount.toNat ∧ u.genM.toNat = s.recovCount.toNat := by
  cases hu with
  | buildgen _ hc => exact withGenerator_holds_counts hc
  | encode _ hl hd => exact withGenerator_holds_counts hl.counts
  | decode W _ hl hd hW => exact withGenerator_holds_counts hl.counts
  | _ => simp at hi

theorem Effect.cache_of_other {i : Instr} {s u : State} (hu : Effect s i u)
    (hi : ¬ (i = .buildgen ∨ i = .encode ∨ i = .decode)) :
    u.genValid = s.genValid ∧ u.genK = s.genK ∧ u.genM = s.genM := by
  cases hu with
  | buildgen _ hc => simp at hi
  | encode _ hl hd => simp at hi
  | decode W _ hl hd hW => simp at hi
  | _ => exact ⟨rfl, rfl, rfl⟩

/-- Settles O24: from a ready state ERR = 0 means success, whose effect decides what the cache holds. -/
theorem generatorCacheWritersAreThree : Obligations.GeneratorCacheWritersAreThree := by
  intro i s t hr h
  refine ⟨fun ⟨he, hi⟩ => ?_, fun hn => ?_⟩
  · obtain ⟨u, hu, rfl⟩ := (exec_next h).succeeded_of_err_zero hr he
    exact hu.cache_of_writer hi
  · obtain ⟨u, hu, rfl⟩ | ⟨-, -, hcache⟩ := (exec_next h).succeeded_or_kept
    · exact hu.cache_of_other fun hi => hn ⟨rfl, hi⟩
    · exact hcache

end Sys2Proof.Machine

/-! SUPPORT. The register window and the host's own actions, step by step. -/

namespace Sys2Proof.Machine

section
variable {s : State} {rest : List HostAction}

theorem step_rd {r : Reg} (h : s.script = .rd r :: rest) :
    step s = .next { s with script := rest, observed := s.observed ++ [readReg r s] } := by
  rw [step_cons h, ← readReg_withScript r s rest]
  rfl

theorem step_wr_of_ne_cmd {r : Reg} {v : Word} (h : s.script = .wr r v :: rest) (hr : r ≠ .cmd) :
    step s = .next (writeReg r v (s.withScript rest)) :=
  (step_cons h).trans (hostWrite_of_ne_cmd hr v _)

theorem step_wr_cmd {w : Word} (h : s.script = .wr .cmd w :: rest) : step s = issue w (s.withScript rest) :=
  (step_cons h).trans (hostWrite_cmd w _)

theorem step_reset (h : s.script = .reset :: rest) : step s = .next (resetUnit (s.withScript rest)) := step_cons h

/-- A bus write at REG_BASE + 4·n is the write of register n. -/
theorem step_busWrite {r : Reg} {v : Word}
    (h : s.script = .busWrite (s.platform.regBase + 4 * r.number) 4 v :: rest) :
    step s = step { s with script := .wr r v :: rest } :=
  (step_cons h).trans (hostAct_busWrite_of_reg (windowReg_of_number _ r) v)

/-- A bus read at REG_BASE + 4·n is the read of register n. -/
theorem step_busRead {r : Reg} (h : s.script = .busRead (s.platform.regBase + 4 * r.number) 4 :: rest) :
    step s = step { s with script := .rd r :: rest } :=
  (step_cons h).trans (hostAct_busRead_of_reg (windowReg_of_number _ r))

end

/-- Settles O12, by the register that the address and width name, or the lack of one. -/
theorem busAccessesNameARegisterOrAreRefused : Obligations.BusAccessesNameARegisterOrAreRefused := by
  intro s addr bytes v rest
  refine ⟨?_, fun hno => ?_⟩
  · rintro r rfl
    exact ⟨step_busWrite, step_busRead⟩
  · have hw : windowReg (s.withScript rest).platform.regBase addr bytes = none := (windowReg_eq_none_iff _ _ _).2 hno
    exact ⟨fun h => (step_cons h).trans (hostAct_busWrite_of_none hw v),
      fun h => (step_cons h).trans (hostAct_busRead_of_none hw)⟩

/-- Settles O6: a command write issues its word, by register or by the bus at REG_BASE (register 0). -/
theorem stepRunsDecodedCommand : Obligations.StepRunsDecodedCommand := by
  intro s w i rest hd
  have issued : ∀ u : State, u.script = .wr .cmd w :: rest → step u = exec i (u.withScript rest) := fun u h =>
    (step_wr_cmd h).trans (issue_of_command hd _)
  exact ⟨issued s, fun h => (step_busWrite (r := .cmd) h).trans (issued _ rfl)⟩

/-- Settles O7: the step of an empty script. -/
theorem idleUnitHoldsState : Obligations.IdleUnitHoldsState := fun _ => step_nil

/-- Settles O11: the step of a register read. -/
theorem hostReadsHaveNoSideEffect : Obligations.HostReadsHaveNoSideEffect := fun _ _ _ => step_rd

/-- Settles O10, from what a write leaves in its own and in every other register. -/
theorem hostWritesStoreOrAreIgnored : Obligations.HostWritesStoreOrAreIgnored := by
  intro s r v rest hs hr
  refine ⟨_, step_wr_of_ne_cmd hs hr, fun hw => readReg_writeReg_same hw v _,
    fun hw => writeReg_of_not_writable hw v _, fun q hq => ?_, ?_⟩
  · rw [readReg_writeReg_other hq, readReg_withScript]
  · cases r <;> rfl

/-- Settles O8: the reserved registers read 0 and are not writable. -/
theorem reservedRegistersReadZeroAndIgnoreWrites : Obligations.ReservedRegistersReadZeroAndIgnoreWrites := by
  intro r hr s v rest
  have read0 : readReg r s = 0#32 := by revert hr; cases r <;> simp [readReg]
  have hcmd : r ≠ .cmd := by rintro rfl; simp at hr
  have hw : r ∉ writableRegs := by revert hr; cases r <;> simp
  refine ⟨fun h => ?_, fun h => ?_⟩
  · rw [step_rd h, read0]
  · rw [step_wr_of_ne_cmd h hcmd, writeReg_of_not_writable hw]
    rfl

/-! ### Reset -/

theorem readReg_reset (r : Reg) : readReg r State.reset = 0#32 := by cases r <;> rfl

theorem readReg_resetUnit (r : Reg) (s : State) : readReg r (resetUnit s) = 0#32 :=
  (show readReg r (resetUnit s) = readReg r State.reset by cases r <;> rfl).trans (readReg_reset r)

/-- Settles O13: the step of a reset, and what every register reads after it. -/
theorem resetClearsEverythingButMemory : Obligations.ResetClearsEverythingButMemory :=
  ⟨readReg_reset, rfl, fun _ _ h =>
    ⟨_, step_reset h, fun r => readReg_resetUnit r _, rfl, rfl, rfl, rfl, rfl, rfl, rfl, rfl, rfl, rfl, rfl⟩⟩

/-! ### The fatal stop (R165) -/

/-- No host action but reset changes the unit's part of a state that is stopped. -/
theorem HostAnswer.unitPart_eq_of_fatal {s t : State} (ht : HostAnswer s t) (hf : s.fatal = true) :
    t.unitPart = s.unitPart := by
  cases ht with
  | command h =>
    rw [issue_of_fatal hf] at h
    exact congrArg State.unitPart (Host.Outcome.next.inj h).symm
  | written r v => exact State.unitPart_writeReg r v s
  | observed v => exact State.unitPart_observe s v
  | stored addr v ho => exact State.unitPart_withMem s _

theorem step_unitPart_eq_of_fatal {s t : State} (ht : step s = .next t) (hf : s.fatal = true)
    (hr : ∀ rest, s.script ≠ .reset :: rest) : t.unitPart = s.unitPart := by
  obtain ⟨-, rfl⟩ | ⟨rest, hs, -⟩ | ⟨rest, ht⟩ := step_next ht
  · rfl
  · exact absurd hs (hr rest)
  · exact ht.unitPart_eq_of_fatal hf

/-- Settles O16: a stopped unit keeps its whole part of the state until the reset action. -/
theorem fatalStopIgnoresCommandsUntilReset : Obligations.FatalStopIgnoresCommandsUntilReset := by
  intro s hf
  refine ⟨issue_of_fatal hf, exec_of_fatal hf, fun r rest => step_rd, fun r v rest hw hs => ?_, fun t ht hr => ?_,
    fun t rest ht hs => ?_, fun ⟨_, hrunning⟩ => ?_⟩
  · have hcmd : r ≠ .cmd := by rintro rfl; simp at hw
    exact ⟨_, step_wr_of_ne_cmd hs hcmd, readReg_writeReg_same hw v _⟩
  · have e := step_unitPart_eq_of_fatal ht hf hr
    have hstatus : statusWord t = statusWord s := by rw [← statusWord_unitPart, e, statusWord_unitPart]
    exact ⟨(congrArg State.fatal e).trans hf, hstatus⟩
  · rw [step_reset hs] at ht
    exact Host.Outcome.next.inj ht ▸ rfl
  · simp [hf] at hrunning

end Sys2Proof.Machine

/-! SUPPORT. The fields of the read-only registers, bit by bit (R16 to R25): each register is a concatenation, and a
field of it is found by dropping the parts below and above. -/

namespace Sys2Proof.Machine

theorem statusWord_flags (s : State) :
    (statusWord s).getLsbD 0 = s.initDone ∧ (statusWord s).getLsbD 1 = s.fatal ∧
      (statusWord s).getLsbD 2 = s.genValid := by
  simp only [statusWord, BitVec.getLsbD_append]
  simp

theorem statusWord_err (s : State) :
    (statusWord s).extractLsb' 3 5 = 0#5 ∧ (statusWord s).extractLsb' 8 8 = s.err ∧
      (statusWord s).extractLsb' 16 16 = 0#16 := by
  simp (disch := decide) only [statusWord, BitVec.extractLsb'_append_eq_of_le,
    BitVec.extractLsb'_append_eq_of_add_le]
  simp

theorem resWord_fields (s : State) :
    (resWord s).extractLsb' 0 8 = s.res ∧ (resWord s).extractLsb' 8 24 = 0#24 := by
  simp (disch := decide) only [resWord, BitVec.extractLsb'_append_eq_of_le, BitVec.extractLsb'_append_eq_of_add_le]
  simp

theorem errInfoWord_fields (s : State) :
    (errInfoWord s).extractLsb' 0 8 = s.errSub ∧ (errInfoWord s).extractLsb' 8 8 = s.errPos ∧
      (errInfoWord s).extractLsb' 16 16 = 0#16 := by
  simp (disch := decide) only [errInfoWord, BitVec.extractLsb'_append_eq_of_le,
    BitVec.extractLsb'_append_eq_of_add_le]
  simp

theorem genDimsWord_fields (s : State) :
    (genDimsWord s).extractLsb' 0 9 = s.genK ∧ (genDimsWord s).extractLsb' 9 7 = 0#7 ∧
      (genDimsWord s).extractLsb' 16 9 = s.genM ∧ (genDimsWord s).extractLsb' 25 7 = 0#7 := by
  simp (disch := decide) only [genDimsWord, BitVec.extractLsb'_append_eq_of_le,
    BitVec.extractLsb'_append_eq_of_add_le]
  simp

theorem toNat_descCountWord {s : State} (h : s.descs.length ≤ 256) : (descCountWord s).toNat = s.descs.length := by
  rw [descCountWord, BitVec.toNat_append, BitVec.toNat_ofNat, Nat.zero_mod, Nat.zero_shiftLeft, Nat.zero_or,
    descCount, BitVec.toNat_ofNat]
  exact Nat.mod_eq_of_lt (by omega)

/-- Settles O9: each register word by the lemma on its fields. -/
theorem readOnlyRegistersShowTheirFields : Obligations.ReadOnlyRegistersShowTheirFields := by
  intro s
  obtain ⟨hinit, hfatal, hgen⟩ := statusWord_flags s
  exact ⟨rfl, ⟨hinit, hfatal, hgen, statusWord_err s⟩, resWord_fields s, errInfoWord_fields s, genDimsWord_fields s,
    toNat_descCountWord⟩

end Sys2Proof.Machine

/-! SUPPORT. Which commands are refused, and how: a host duty that the model finds broken (R46, R57). -/

namespace Sys2Proof.Machine

/-! ### The duties on a list of buffers -/

theorem dutyBroken_of_not_allowed {p : Platform} {bufs : List Buffer} {r : Range} (hr : r ∈ bufs.map Buffer.range)
    (h : ¬ p.allows r) : dutyBroken p bufs = some .bufferNotOrdinaryMemory := by
  obtain ⟨b, hb, rfl⟩ := List.mem_map.1 hr
  refine if_neg fun hall => h ?_
  exact (Platform.ordinary_iff _ _).1 (List.all_eq_true.1 hall b hb)

/-- Where every buffer is ordinary memory the one duty that can be broken is R57. -/
theorem dutyBroken_of_allowed {p : Platform} {bufs : List Buffer} (h : ∀ r ∈ bufs.map Buffer.range, p.allows r)
    (hd : dutyBroken p bufs ≠ none) : dutyBroken p bufs = some .overlappingBuffers := by
  have hall : (bufs.all fun b => p.ordinary b.range) = true :=
    List.all_eq_true.2 fun b hb => (Platform.ordinary_iff _ _).2 (h _ (List.mem_map_of_mem hb))
  have hno : ¬ noOverlap bufs = true := fun hno => hd (by rw [dutyBroken, if_pos hall, if_pos hno])
  rw [dutyBroken, if_pos hall, if_neg hno]

theorem accessing_of_broken {s : State} {bufs : List Buffer} {r : Refusal} (h : dutyBroken s.platform bufs = some r)
    (t : State) : accessing s bufs t = .refused r := by simp [accessing, h]

/-! ### The buffers of a legal command are those of its table -/

theorem State.DecodeLegal.length_eq {s : State} (h : s.DecodeLegal) {d : Descriptor} (hd : d ∈ s.descs) :
    d.len = s.blockBytes := by
  obtain ⟨p, hp⟩ := List.mem_iff_getElem?.1 hd
  exact (h.slots p d hp).length

theorem map_range_encodeBuffers {s : State} (h : s.EncodeLegal) :
    (encodeBuffers s.blockBytes.toNat s.origCount.toNat s.descs).map Buffer.range = s.descs.map Descriptor.range := by
  have split : s.descs.map Descriptor.range =
      (s.descs.take s.origCount.toNat).map Descriptor.range ++ (s.descs.drop s.origCount.toNat).map Descriptor.range := by
    rw [← List.map_append, List.take_append_drop]
  rw [split, encodeBuffers, List.map_append, List.map_map, List.map_map]
  congr 1
  · refine List.map_congr_left fun d hd => ?_
    rw [Descriptor.range, h.lengths d (List.mem_of_mem_take hd)]
    rfl
  · refine List.map_congr_left fun d hd => ?_
    rw [Descriptor.range, h.lengths d (List.mem_of_mem_drop hd)]
    rfl

theorem map_range_decodeBuffers {s : State} (h : s.DecodeLegal) :
    (decodeBuffers s.blockBytes.toNat s.origCount.toNat s.descs).map Buffer.range = s.descs.map Descriptor.range := by
  rw [decodeBuffers, List.map_map]
  refine List.map_congr_left fun d hd => ?_
  rw [Descriptor.range, h.length_eq hd]
  rfl

/-! ### Commands that are refused -/

theorem execMulacc_of_broken {c : Byte} {s : State} {r : Refusal} (hr : s.ready) (hin : mulaccInRange s)
    (hd : dutyBroken s.platform (mulaccBuffers s) = some r) : execMulacc c s = .refused r := by
  rw [execMulacc, whenReady_of_ready hr, (mulacc_range_check_iff s).2 hin, afterChecks_none, accessing_of_broken hd]

theorem execEncode_of_broken {s : State} {r : Refusal} (hr : s.ready) (hl : s.EncodeLegal)
    (hd : dutyBroken s.platform (encodeBuffers s.blockBytes.toNat s.origCount.toNat s.descs) = some r) :
    execEncode s = .refused r := by
  rw [execEncode, whenReady_of_ready hr, s.encodeLegal_iff.1 hl, afterChecks_none, accessing_of_broken hd]

/-- Settles O37: the two refusals are the two results `dutyBroken` has besides none. -/
theorem mulaccAndEncodeRefuseBrokenDuties : Obligations.MulaccAndEncodeRefuseBrokenDuties := by
  have hm : ∀ s : State, (mulaccBuffers s).map Buffer.range = [s.mulaccDst, s.mulaccSrc] := fun _ => rfl
  refine ⟨fun c s hr hdst hsrc => ⟨fun hno => ?_, fun had has hov => ?_⟩, fun s hr hl => ⟨?_, fun hall hno => ?_⟩⟩
  · refine execMulacc_of_broken hr ⟨hdst, hsrc⟩ ?_
    by_cases had : s.platform.allows s.mulaccDst
    · exact dutyBroken_of_not_allowed (hm s ▸ by simp) fun has => hno ⟨had, has⟩
    · exact dutyBroken_of_not_allowed (hm s ▸ by simp) had
  · refine execMulacc_of_broken hr ⟨hdst, hsrc⟩ (dutyBroken_of_allowed ?_ fun hn => hov ((mulacc_duties_iff s).1 hn).1)
    simp [hm, had, has]
  · rintro ⟨d, hd, hno⟩
    exact execEncode_of_broken hr hl
      (dutyBroken_of_not_allowed (map_range_encodeBuffers hl ▸ List.mem_map_of_mem hd) hno)
  · refine execEncode_of_broken hr hl (dutyBroken_of_allowed ?_ fun hn => hno ((encode_duties_iff hl).1 hn))
    rw [map_range_encodeBuffers hl]
    exact List.forall_mem_map.2 hall

/-! ### Nothing else is refused -/

theorem execMulacc_refused {c : Byte} {s : State} {r : Refusal} (h : execMulacc c s = .refused r) :
    s.ready ∧ dutyBroken s.platform (mulaccBuffers s) = some r := by
  obtain ⟨hr, h⟩ := whenReady_refused h
  exact ⟨hr, accessing_refused (afterChecks_refused h).2⟩

theorem execEncode_refused {s : State} {r : Refusal} (h : execEncode s = .refused r) :
    s.ready ∧ s.EncodeLegal ∧
      dutyBroken s.platform (encodeBuffers s.blockBytes.toNat s.origCount.toNat s.descs) = some r := by
  obtain ⟨hr, h⟩ := whenReady_refused h
  obtain ⟨hn, h⟩ := afterChecks_refused h
  exact ⟨hr, s.encodeLegal_iff.2 hn, accessing_refused h⟩

theorem execDecode_refused {s : State} {r : Refusal} (h : execDecode s = .refused r) :
    s.ready ∧ s.DecodeLegal ∧
      dutyBroken s.platform (decodeBuffers s.blockBytes.toNat s.origCount.toNat s.descs) = some r := by
  obtain ⟨hr, h⟩ := whenReady_refused h
  obtain ⟨hn, h⟩ := afterChecks_refused h
  split at h
  · simp at h
  · exact ⟨hr, s.decodeLegal_iff.2 hn, accessing_refused h⟩

/-- The refusal `r` of the command `i` comes from a duty of R91, R132 or R153 that is broken. -/
inductive RefusedFor (s : State) (r : Refusal) : Instr → Prop
  | mulacc (c : Byte) (hd : dutyBroken s.platform (mulaccBuffers s) = some r) : RefusedFor s r (.mulacc c)
  | encode (hl : s.EncodeLegal)
      (hd : dutyBroken s.platform (encodeBuffers s.blockBytes.toNat s.origCount.toNat s.descs) = some r) :
      RefusedFor s r .encode
  | decode (hl : s.DecodeLegal)
      (hd : dutyBroken s.platform (decodeBuffers s.blockBytes.toNat s.origCount.toNat s.descs) = some r) :
      RefusedFor s r .decode

/-- The inversion of `exec` for refusals. -/
theorem exec_refused {i : Instr} {s : State} {r : Refusal} (h : exec i s = .refused r) : s.ready ∧ RefusedFor s r i := by
  cases i with
  | init =>
    simp only [exec, execInit] at h
    split at h
    · simp at h
    · split at h <;> simp at h
  | mulacc c => exact (execMulacc_refused h).imp_right (.mulacc c)
  | encode => exact (execEncode_refused h).imp_right fun ⟨hl, hd⟩ => .encode hl hd
  | decode => exact (execDecode_refused h).imp_right fun ⟨hl, hd⟩ => .decode hl hd
  | gfmul a b => simpa using (whenReady_refused h).2
  | descclr => simpa using (whenReady_refused h).2
  | gfdiv a b => have hb := (whenReady_refused h).2; split at hb <;> simp at hb
  | gfinv a => have hb := (whenReady_refused h).2; split at hb <;> simp at hb
  | genrd row col => have hb := (whenReady_refused h).2; split at hb <;> simp at hb
  | buildgen => simpa using (afterChecks_refused (whenReady_refused h).2).2
  | descpush tag => simpa using (afterChecks_refused (whenReady_refused h).2).2

theorem RefusedFor.refusal {s : State} {r : Refusal} {i : Instr} (h : RefusedFor s r i) :
    r = .overlappingBuffers ∨ r = .bufferNotOrdinaryMemory := by
  cases h with
  | mulacc c hd => exact dutyBroken_cases hd
  | encode hl hd => exact dutyBroken_cases hd
  | decode hl hd => exact dutyBroken_cases hd

/-- The refusal in the words of the host duties. -/
theorem RefusedFor.duty_broken {s : State} {r : Refusal} {i : Instr} (h : RefusedFor s r i) :
    (∃ c, i = .mulacc c ∧
        ¬ (s.mulaccDst.apart s.mulaccSrc ∧ s.platform.allows s.mulaccDst ∧ s.platform.allows s.mulaccSrc)) ∨
      (i = .encode ∧ s.EncodeLegal ∧ ¬ s.EncodeDuties) ∨ (i = .decode ∧ s.DecodeLegal ∧ ¬ s.DecodeDuties) := by
  cases h with
  | mulacc c hd => exact .inl ⟨c, rfl, fun hk => by simp [(mulacc_duties_iff s).2 hk] at hd⟩
  | encode hl hd => exact .inr (.inl ⟨rfl, hl, fun hk => by simp [(encode_duties_iff hl).2 hk] at hd⟩)
  | decode hl hd => exact .inr (.inr ⟨rfl, hl, fun hk => by simp [(decode_duties_iff hl).2 hk] at hd⟩)

/-- Settles O18: an illegal word is answered, and a command that is refused is refused for a broken duty. -/
theorem onlyBrokenDutiesAreRefused : Obligations.OnlyBrokenDutiesAreRefused := by
  intro w s
  cases hd : decode w with
  | illegalOpcode => exact .inl ⟨rejectWord .illegalOpcode s, by simp [issue, hd]⟩
  | illegalReserved => exact .inl ⟨rejectWord .illegalReserved s, by simp [issue, hd]⟩
  | command i =>
    rw [issue_of_command hd]
    cases h : exec i s with
    | next t => exact .inl ⟨t, rfl⟩
    | fault f => exact nomatch f
    | refused r =>
      obtain ⟨hr, hb⟩ := exec_refused h
      refine .inr ⟨hr, hb.refusal.imp (congrArg _) (congrArg _), ?_⟩
      simpa only [Decoded.command.injEq] using hb.duty_broken

end Sys2Proof.Machine

/-! SUPPORT. What the commands write to memory: every store goes to a range the command writes (R45, R58). -/

namespace Sys2Proof.Machine

/-! ### The stores of a command -/

theorem mem_writtenRanges_encode {s : State} (hl : s.EncodeLegal) {b : Nat × (Nat → Byte)}
    (hb : b ∈ encodeStores s.mem s.origCount.toNat s.descs) :
    ⟨b.1, s.blockBytes.toNat⟩ ∈ writtenRanges .encode s := by
  obtain ⟨r, d, hd, rfl⟩ := mem_encodeStores.1 hb
  refine List.mem_map.2 ⟨d, List.mem_of_getElem? (i := r) (List.getElem?_drop.trans hd), ?_⟩
  rw [Descriptor.range, hl.lengths d (List.mem_of_getElem? hd)]

theorem mem_writtenRanges_decode {s : State} (hl : s.DecodeLegal) {W : GfMatrix} {b : Nat × (Nat → Byte)}
    (hb : b ∈ decodeStores s.mem s.origCount.toNat s.descs W) :
    ⟨b.1, s.blockBytes.toNat⟩ ∈ writtenRanges .decode s := by
  obtain ⟨p, d, w, hd, hk, -, rfl⟩ := exists_erased_of_mem_decodeStores hb
  have hm := List.mem_of_getElem? hd
  refine List.mem_map.2 ⟨d, List.mem_filter.2 ⟨hm, decide_eq_true hk⟩, ?_⟩
  rw [Descriptor.range, hl.length_eq hm]

/-- A successful command stores blocks into ranges it writes, and does nothing else to memory. -/
theorem Effect.mem_eq_storeBlocks {i : Instr} {s u : State} (hu : Effect s i u) :
    ∃ n bs, u.mem = Memory.storeBlocks s.mem n bs ∧ ∀ b ∈ bs, (⟨b.1, n⟩ : Range) ∈ writtenRanges i s := by
  cases hu with
  | mulacc c hi hr hd =>
    exact ⟨s.a2.toNat, [(s.a0.toNat, mulaccByte c s)], rfl, by simp [writtenRanges, State.mulaccDst]⟩
  | encode hi hl hd => exact ⟨_, _, rfl, fun b => mem_writtenRanges_encode hl⟩
  | decode W hi hl hd hW => exact ⟨_, _, rfl, fun b => mem_writtenRanges_decode hl⟩
  | _ => exact ⟨0, [], rfl, by simp⟩

theorem Effect.mem_writers {i : Instr} {s u : State} (hu : Effect s i u) :
    (∃ c, i = .mulacc c) ∨ i = .encode ∨ i = .decode ∨ u.mem = s.mem := by
  cases hu with
  | mulacc c hi hr hd => exact .inl ⟨c, rfl⟩
  | encode hi hl hd => exact .inr (.inl rfl)
  | decode W hi hl hd hW => exact .inr (.inr (.inl rfl))
  | _ => exact .inr (.inr (.inr rfl))

theorem Effect.read_outside {i : Instr} {s u : State} (hu : Effect s i u) {x : Nat}
    (hx : ∀ r ∈ writtenRanges i s, ¬ r.has x) : Memory.read u.mem x = Memory.read s.mem x := by
  obtain ⟨n, bs, hmem, hbs⟩ := hu.mem_eq_storeBlocks
  rw [hmem]
  exact Memory.read_storeBlocks_outside _ _ _ _ fun b hb => hx _ (hbs b hb)

/-- A command that does not succeed leaves memory alone. -/
theorem CommandAnswer.succeeded_or_mem_eq {i : Instr} {s t : State} (ht : CommandAnswer i s t) :
    (∃ u, Effect s i u ∧ t = succeed u) ∨ t.mem = s.mem := by
  cases ht with
  | succeeded hf hu => exact .inl ⟨_, hu, rfl⟩
  | _ => exact .inr rfl

/-- Settles O26: only success stores, and then only into the ranges written. -/
theorem commandsWriteOnlyTheirBuffers : Obligations.CommandsWriteOnlyTheirBuffers := by
  intro i s t h
  obtain ⟨u, hu, rfl⟩ | hmem := (exec_next h).succeeded_or_mem_eq
  · exact ⟨hu.mem_writers, fun he => absurd rfl he, fun x hx => hu.read_outside hx⟩
  · exact ⟨.inr (.inr (.inr hmem)), fun _ => hmem, fun x _ => by rw [hmem]⟩

/-! ### The canonical form of memory (log 2) -/

theorem Effect.writtenRanges_le {i : Instr} {s u : State} (hu : Effect s i u) (h : s.Inv) :
    ∀ r ∈ writtenRanges i s, r.base + r.len ≤ 2 ^ 32 := by
  cases hu with
  | mulacc c hi hr hd => exact fun r hm => List.mem_singleton.1 hm ▸ hr.1
  | encode hi hl hd => exact List.forall_mem_map.2 fun d hd => h.desc_range d (List.mem_of_mem_drop hd)
  | decode W hi hl hd hW => exact List.forall_mem_map.2 fun d hd => h.desc_range d (List.mem_filter.1 hd).1
  | _ => exact fun r hm => absurd hm List.not_mem_nil

theorem Effect.wf_mem {i : Instr} {s u : State} (hu : Effect s i u) (h : s.Inv) (hm : s.mem.wf = true) :
    u.mem.wf = true := by
  obtain ⟨n, bs, hmem, hbs⟩ := hu.mem_eq_storeBlocks
  rw [hmem]
  exact Memory.wf_storeBlocks _ _ _ hm fun b hb => hu.writtenRanges_le h _ (hbs b hb)

theorem rejectWord_mem (f : Failure) (s : State) : (rejectWord f s).mem = s.mem := by
  unfold rejectWord
  split <;> rfl

theorem issue_wf_mem {w : Word} {s t : State} (ht : issue w s = .next t) (h : s.Inv) (hm : s.mem.wf = true) :
    t.mem.wf = true := by
  obtain ⟨i, -, hx⟩ | ⟨-, rfl⟩ | ⟨-, rfl⟩ := issue_next ht
  · obtain ⟨u, hu, rfl⟩ | hmem := (exec_next hx).succeeded_or_mem_eq
    · exact hu.wf_mem h hm
    · rwa [hmem]
  · rwa [rejectWord_mem]
  · rwa [rejectWord_mem]

theorem HostAnswer.wf_mem {s t : State} (ht : HostAnswer s t) (h : s.Inv) (hm : s.mem.wf = true) :
    t.mem.wf = true := by
  cases ht with
  | command hx => exact issue_wf_mem hx h hm
  | written r v => rwa [writeReg_mem]
  | observed v => exact hm
  | stored addr v ho => exact Memory.wf_write _ _ _ hm addr.isLt

/-- Settles O21: commands store below 2^32 by the invariants, the host by the width of an address. -/
theorem everyStepKeepsMemoryCanonical : Obligations.EveryStepKeepsMemoryCanonical := by
  intro s t h hm ht
  obtain ⟨-, rfl⟩ | ⟨rest, -, rfl⟩ | ⟨rest, ht⟩ := step_next ht
  · exact hm
  · exact hm
  · exact ht.wf_mem (h.of_unitPart_eq (State.unitPart_withScript s rest)) hm

/-! ### The host's own accesses (R41, R50) -/

section
variable {s : State} {a : Word} {rest : List HostAction}

theorem step_store {v : Byte} (h : s.script = .store a v :: rest) (ha : s.platform.allows ⟨a.toNat, 1⟩) :
    step s = .next { s with script := rest, mem := Memory.write s.mem a.toNat v } :=
  (step_cons h).trans (if_pos ((Platform.ordinary_iff _ _).2 ha))

theorem step_load {v : Byte} (h : s.script = .load a :: rest) (ha : s.platform.allows ⟨a.toNat, 1⟩)
    (hv : Memory.read s.mem a.toNat = v) :
    step s = .next { s with script := rest, observed := s.observed ++ [v.setWidth 32] } := by
  subst hv
  exact (step_cons h).trans (if_pos ((Platform.ordinary_iff _ _).2 ha))

end

/-- Settles O14: the steps of the store and the load, and a read after a write. -/
theorem hostStoreThenLoadReturnsByte : Obligations.HostStoreThenLoadReturnsByte := by
  intro s a v rest hs ha
  refine ⟨_, step_store hs ha, rfl, Memory.read_write s.mem a.toNat v, ?_⟩
  exact step_load rfl ha (Memory.read_write_same s.mem a.toNat v)

end Sys2Proof.Machine

/-! SUPPORT. What MULACC and ENCODE store, byte by byte, and the DECODE that has nothing to store. -/

namespace Sys2Proof.Machine

/-! ### MULACC (R91) -/

theorem read_mulacc (c : Byte) (s : State) (x : Nat) :
    Memory.read (Memory.storeBlock s.mem s.a0.toNat (mulaccByte c s) s.a2.toNat) x =
      if s.a0.toNat ≤ x ∧ x < s.a0.toNat + s.a2.toNat then
        Memory.read s.mem x ^^^ gfMul (Memory.read s.mem (s.a1.toNat + (x - s.a0.toNat))) c
      else Memory.read s.mem x := by
  rw [Memory.read_storeBlock]
  refine if_ctx_congr Iff.rfl (fun hx => ?_) fun _ => rfl
  rw [mulaccByte, Nat.add_sub_cancel' hx.1]

/-- Settles O34: the duties let MULACC complete, and its stored block is read back. -/
theorem mulaccAccumulatesScaledSource : Obligations.MulaccAccumulatesScaledSource := by
  intro c s hr hdst hsrc hap had has
  have hd := (mulacc_duties_iff s).2 ⟨hap, had, has⟩
  exact ⟨_, execMulacc_of_duties hr ⟨hdst, hsrc⟩ hd, rfl, read_mulacc c s⟩

/-! ### ENCODE (R128) -/

theorem State.slotByte_of_getElem? {s : State} {p : Nat} {d : Descriptor} (h : s.descs[p]? = some d) (i : Nat) :
    s.slotByte p i = bufferByte s.mem d i := by
  rw [State.slotByte, State.slotAddr, h]
  rfl

/-- The recovery byte as a sum over the positions of the originals. -/
theorem recoveryByte_eq_xorSum_slotByte {s : State} {k : Nat} (hk : k ≤ s.descs.length) (r i : Nat) :
    recoveryByte s.mem k (s.descs.take k) r i =
      xorSum ((List.range k).map fun c => gfMul (genEntry k r c) (s.slotByte c i)) := by
  rw [recoveryByte]
  congr 1
  refine List.ext_getElem (by simp [hk]) fun c _ hc => ?_
  have hck : c < k := by simpa using hc
  have hget : s.descs[c]? = some s.descs[c] := List.getElem?_eq_getElem _
  simp [State.slotByte_of_getElem? hget]

/-- Blocks of a positive length at apart ranges do not meet. -/
theorem Range.le_or_le_of_apart {a b n : Nat} (hn : n ≠ 0) (h : Range.apart ⟨a, n⟩ ⟨b, n⟩) :
    a + n ≤ b ∨ b + n ≤ a := by
  simpa [Range.disjoint, hn] using (Range.disjoint_iff _ _).2 h

section
variable {s : State} (hl : s.EncodeLegal) (hd : s.EncodeDuties)
include hl hd

theorem encodeStores_apart :
    (encodeStores s.mem s.origCount.toNat s.descs).Pairwise fun b c =>
      b.1 + s.blockBytes.toNat ≤ c.1 ∨ c.1 + s.blockBytes.toNat ≤ b.1 := by
  have hn : s.blockBytes.toNat ≠ 0 := fun e => hl.block (BitVec.eq_of_toNat_eq e)
  rw [encodeStores, List.pairwise_map, List.pairwise_iff_getElem]
  intro p q hp hq hlt
  have hlen : s.origCount.toNat + q < s.descs.length := by
    rw [List.length_zipIdx, List.length_drop] at hq
    omega
  simp only [List.getElem_zipIdx, List.getElem_drop]
  have hap := hd.disjoint _ _ _ _ (List.getElem?_eq_getElem (i := s.origCount.toNat + p) (by omega))
    (List.getElem?_eq_getElem hlen) (Nat.le_add_right _ _) (by omega)
  rw [Descriptor.range, Descriptor.range, hl.lengths _ (List.getElem_mem _), hl.lengths _ (List.getElem_mem _)] at hap
  exact Range.le_or_le_of_apart hn hap

theorem slotByte_encode {r i : Nat} (hr : r < s.recovCount.toNat) (hi : i < s.blockBytes.toNat) :
    ((s.withGenerator s.origCount s.recovCount).withMem (encodeMemory s)).slotByte (s.origCount.toNat + r) i =
      recoveryByte s.mem s.origCount.toNat (s.descs.take s.origCount.toNat) r i := by
  obtain ⟨d, hget⟩ : ∃ d, s.descs[s.origCount.toNat + r]? = some d :=
    ⟨_, List.getElem?_eq_getElem (by rw [hl.count]; omega)⟩
  have hb := (mem_encodeStores (m := s.mem)).2 ⟨r, d, hget, rfl⟩
  rw [State.slotByte_of_getElem? (d := d)]
  · exact Memory.read_storeBlocks_inside _ _ _ (encodeStores_apart hl hd) _ hb i hi
  · exact hget

end

/-- Settles O47: ENCODE completes, its blocks are read back from the recovery buffers, and its effect is framed. -/
theorem encodeWritesRecoveryBlocks : Obligations.EncodeWritesRecoveryBlocks := by
  intro s hr hl hd
  obtain ⟨hk, hm⟩ := hl.counts.toNat_setWidth
  have effect : Effect s .encode _ := .encode hr.2 hl hd
  refine ⟨_, execEncode_of_legal hr hl hd, rfl, hk, hm, fun r i hr hi => ?_, fun x => effect.read_outside⟩
  rw [← recoveryByte_eq_xorSum_slotByte (hl.count ▸ Nat.le_add_right _ _)]
  exact slotByte_encode hl hd hr hi

/-! ### DECODE without an erasure (R144) -/

section
variable {s : State} (h : ∀ d ∈ s.descs, ¬ s.erased d)
include h

theorem erasedSlots_of_no_erasure : erasedSlots s.origCount.toNat s.descs = [] :=
  (erasedSlots_eq_nil_iff _ _).2 fun d hd => Nat.lt_of_not_le (h d hd)

theorem invertMatrix_of_no_erasure : invertMatrix (submatrix s.origCount.toNat s.descs) = some [] := by
  rw [submatrix, erasedSlots_of_no_erasure h]
  rfl

theorem decodeResult_of_no_erasure : decodeResult s [] = succeed (s.withGenerator s.origCount s.recovCount) := by
  have hmem : decodeMemory s [] = s.mem := by
    rw [decodeMemory, decodeStores, List.zipWith_nil_right]
    rfl
  rw [decodeResult, hmem, retagged_of_no_erasure fun d hd => Nat.lt_of_not_le (h d hd)]
  rfl

end

/-- Settles O50: the submatrix is empty, no block is stored and no slot is tagged anew. -/
theorem decodeWithoutErasureIsNoOp : Obligations.DecodeWithoutErasureIsNoOp := by
  intro s hr hl hno hall
  obtain ⟨hk, hm⟩ := hl.counts.toNat_setWidth
  have hd : s.DecodeDuties := ⟨hall, fun p q d e hp _ he => absurd he (hno d (List.mem_of_getElem? hp))⟩
  have hexec := execDecode_of_legal hr hl (invertMatrix_of_no_erasure hno) hd
  rw [decodeResult_of_no_erasure hno] at hexec
  exact ⟨_, hexec, hk, hm, rfl⟩

end Sys2Proof.Machine

/-! SUPPORT. The laws of the field (R82 to R84): the product is linear in each operand, so its laws follow from the bytes
with one bit set. -/

namespace Sys2Proof.Machine

/-! ### The product is linear -/

/-- Folds whose steps add up add up. -/
theorem foldl_xor {w : Nat} {f g h : BitVec w → Nat → BitVec w}
    (step : ∀ p q i, f (p ^^^ q) i = g p i ^^^ h q i) (is : List Nat) (p q : BitVec w) :
    is.foldl f (p ^^^ q) = is.foldl g p ^^^ is.foldl h q := by
  induction is generalizing p q with
  | nil => rfl
  | cons i is ih => rw [List.foldl_cons, List.foldl_cons, List.foldl_cons, step, ih]

theorem xor_xor_xor_comm {w : Nat} (p q r s : BitVec w) : (p ^^^ q) ^^^ (r ^^^ s) = (p ^^^ r) ^^^ (q ^^^ s) := by
  ac_rfl

/-- A bit-controlled exclusive-or of one constant is linear. -/
theorem ite_xor_const {w : Nat} (a b : Bool) (p q c : BitVec w) :
    (if (a ^^ b) = true then (p ^^^ q) ^^^ c else p ^^^ q) =
      (if a = true then p ^^^ c else p) ^^^ (if b = true then q ^^^ c else q) := by
  cases a <;> cases b
  · rfl
  · exact BitVec.xor_assoc p q c
  · show (p ^^^ q) ^^^ c = (p ^^^ c) ^^^ q
    ac_rfl
  · show p ^^^ q = (p ^^^ c) ^^^ (q ^^^ c)
    rw [xor_xor_xor_comm, BitVec.xor_self, BitVec.xor_zero]

theorem reduce_xor (p q : BitVec 15) : reduce (p ^^^ q) = reduce p ^^^ reduce q := by
  rw [reduce, foldl_xor, BitVec.setWidth_xor]
  · rfl
  · intro p q i
    rw [BitVec.getLsbD_xor, ite_xor_const]

theorem clmul_xor_left (a b c : Byte) : clmul (a ^^^ b) c = clmul a c ^^^ clmul b c := by
  have step : ∀ (p q : BitVec 15) (i : Nat),
      (if c.getLsbD i then (p ^^^ q) ^^^ ((a ^^^ b).setWidth 15 <<< i) else p ^^^ q) =
        (if c.getLsbD i then p ^^^ (a.setWidth 15 <<< i) else p) ^^^
          (if c.getLsbD i then q ^^^ (b.setWidth 15 <<< i) else q) := by
    intro p q i
    split
    · rw [BitVec.setWidth_xor, BitVec.shiftLeft_xor_distrib, xor_xor_xor_comm]
    · rfl
  exact foldl_xor step _ 0#15 0#15

theorem clmul_xor_right (a b c : Byte) : clmul a (b ^^^ c) = clmul a b ^^^ clmul a c := by
  refine foldl_xor (fun p q i => ?_) _ 0#15 0#15
  rw [BitVec.getLsbD_xor, ite_xor_const]

theorem gfMul_xor_left (a b c : Byte) : gfMul (a ^^^ b) c = gfMul a c ^^^ gfMul b c := by
  rw [gfMul, clmul_xor_left, reduce_xor]
  rfl

theorem gfMul_xor_right (a b c : Byte) : gfMul a (b ^^^ c) = gfMul a b ^^^ gfMul a c := by
  rw [gfMul, clmul_xor_right, reduce_xor]
  rfl

/-! ### Linear functions agree when they agree on single bits -/

theorem byte_eq_xorSum_bits (a : Byte) :
    a = xorSum ((List.range 8).map fun i => if a.getLsbD i then 1#8 <<< i else 0#8) := by
  revert a; decide +kernel

section
variable {f g : Byte → Byte} (hf : ∀ a b, f (a ^^^ b) = f a ^^^ f b)
include hf

theorem additive_zero : f 0#8 = 0#8 := by
  have h := hf 0#8 0#8
  rw [BitVec.xor_self] at h
  rw [h, BitVec.xor_self]

theorem additive_xorSum (bs : List Byte) : f (xorSum bs) = xorSum (bs.map f) := by
  induction bs with
  | nil => exact additive_zero hf
  | cons b bs ih => rw [xorSum_cons, hf, ih, List.map_cons, xorSum_cons]

theorem additive_ext (hg : ∀ a b, g (a ^^^ b) = g a ^^^ g b) (h : ∀ i : Fin 8, f (1#8 <<< i.val) = g (1#8 <<< i.val))
    (a : Byte) : f a = g a := by
  rw [byte_eq_xorSum_bits a, additive_xorSum hf, additive_xorSum hg]
  congr 1
  refine List.map_congr_left fun b hb => ?_
  obtain ⟨i, hi, rfl⟩ := List.mem_map.1 hb
  split
  · exact h ⟨i, List.mem_range.1 hi⟩
  · rw [additive_zero hf, additive_zero hg]

end

/-! ### The laws of R83 -/

@[simp] theorem gfMul_one (a : Byte) : gfMul a 1#8 = a :=
  additive_ext (f := fun a => gfMul a 1#8) (g := id) (fun a b => gfMul_xor_left a b 1#8) (fun _ _ => rfl)
    (by decide +kernel) a

/-- Both products of two bytes are linear in each. -/
theorem gfMul_comm (a b : Byte) : gfMul a b = gfMul b a := by
  refine additive_ext (f := fun a => gfMul a b) (g := gfMul b) (fun a a' => gfMul_xor_left a a' b)
    (gfMul_xor_right b) (fun i => ?_) a
  refine additive_ext (g := fun b => gfMul b (1#8 <<< i.val)) (gfMul_xor_right _)
    (fun b b' => gfMul_xor_left b b' _) (fun j => ?_) b
  revert i j; decide +kernel

theorem gfMul_gfMul_two (a b : Byte) : gfMul (gfMul a b) 2#8 = gfMul a (gfMul b 2#8) := by
  refine additive_ext (f := fun a => gfMul (gfMul a b) 2#8) (g := fun a => gfMul a (gfMul b 2#8))
    (fun a a' => by simp only [gfMul_xor_left]) (fun a a' => gfMul_xor_left a a' _) (fun i => ?_) a
  refine additive_ext (f := fun b => gfMul (gfMul (1#8 <<< i.val) b) 2#8)
    (g := fun b => gfMul (1#8 <<< i.val) (gfMul b 2#8))
    (fun b b' => by simp only [gfMul_xor_left, gfMul_xor_right])
    (fun b b' => by simp only [gfMul_xor_left, gfMul_xor_right]) (fun j => ?_) b
  revert i j; decide +kernel

/-- Associativity for a last factor x^i. -/
theorem gfMul_assoc_bit (a b : Byte) {i : Nat} (hi : i < 8) :
    gfMul (gfMul a b) (1#8 <<< i) = gfMul a (gfMul b (1#8 <<< i)) := by
  induction i with
  | zero =>
    show gfMul (gfMul a b) 1#8 = gfMul a (gfMul b 1#8)
    rw [gfMul_one, gfMul_one]
  | succ i ih =>
    have double : ∀ j : Fin 7, 1#8 <<< (j.val + 1) = gfMul (1#8 <<< j.val) 2#8 := by decide +kernel
    rw [double ⟨i, by omega⟩, ← gfMul_gfMul_two, ih (by omega), gfMul_gfMul_two, gfMul_gfMul_two]

theorem gfMul_assoc (a b c : Byte) : gfMul (gfMul a b) c = gfMul a (gfMul b c) :=
  additive_ext (g := fun c => gfMul a (gfMul b c)) (gfMul_xor_right _) (fun c c' => by simp only [gfMul_xor_right])
    (fun i => gfMul_assoc_bit a b i.isLt) c

@[simp] theorem gfMul_zero (a : Byte) : gfMul a 0#8 = 0#8 := additive_zero (gfMul_xor_right a)

@[simp] theorem zero_gfMul (a : Byte) : gfMul 0#8 a = 0#8 := by rw [gfMul_comm, gfMul_zero]

@[simp] theorem one_gfMul (a : Byte) : gfMul 1#8 a = a := by rw [gfMul_comm, gfMul_one]

/-! ### The inverse (R84)

`a^256 = a` because squaring is linear, so `a ⊗ a^254` is its own square; the only such bytes are 0 and 1. -/

theorem gfMul_self_xor (a b : Byte) : gfMul (a ^^^ b) (a ^^^ b) = gfMul a a ^^^ gfMul b b := by
  rw [gfMul_xor_left, gfMul_xor_right, gfMul_xor_right, gfMul_comm b a, BitVec.xor_assoc,
    ← BitVec.xor_assoc (gfMul a b), BitVec.xor_self, BitVec.zero_xor]

/-- The square, as often as it is iterated, is linear. -/
theorem iterate_square_xor (n : Nat) (a b : Byte) :
    (fun x => gfMul x x)^[n] (a ^^^ b) = (fun x => gfMul x x)^[n] a ^^^ (fun x => gfMul x x)^[n] b := by
  induction n generalizing a b with
  | zero => rfl
  | succ n ih => rw [Function.iterate_succ_apply, gfMul_self_xor, ih]; rfl

theorem iterate_square_eight (a : Byte) : (fun x => gfMul x x)^[8] a = a :=
  additive_ext (iterate_square_xor 8) (g := id) (fun _ _ => rfl) (by decide +kernel) a

theorem gfPowChain_eq_gfMul (n : Nat) (p acc : Byte) : gfPowChain n p acc = gfMul acc (gfPowChain n p 1#8) := by
  induction n generalizing p acc with
  | zero => exact (gfMul_one acc).symm
  | succ n ih => rw [gfPowChain, gfPowChain, ih, ih _ (gfMul 1#8 p), one_gfMul, gfMul_assoc]

theorem gfPowChain_gfMul_self (n : Nat) (p : Byte) : gfMul (gfPowChain n p 1#8) p = (fun x => gfMul x x)^[n] p := by
  induction n generalizing p with
  | zero => exact one_gfMul p
  | succ n ih =>
    rw [gfPowChain, one_gfMul, gfPowChain_eq_gfMul, gfMul_comm, ← gfMul_assoc, gfMul_comm, ih,
      Function.iterate_succ_apply]

theorem gfMul_gfInv {a : Byte} (h : a ≠ 0#8) : gfMul a (gfInv a) = 1#8 := by
  have idempotent : ∀ e : Byte, gfMul e e = e → e = 0#8 ∨ e = 1#8 := by decide +kernel
  have chain : gfMul a (gfInv a) = gfPowChain 8 a 1#8 := by
    rw [gfInv, if_neg h, ← gfPowChain_eq_gfMul]
    show _ = gfPowChain 7 (gfMul a a) (gfMul 1#8 a)
    rw [one_gfMul]
  have neutral : gfMul (gfMul a (gfInv a)) a = a := by rw [chain, gfPowChain_gfMul_self, iterate_square_eight]
  rcases idempotent (gfMul a (gfInv a)) (by rw [← gfMul_assoc, neutral]) with h0 | h1
  · rw [h0, zero_gfMul] at neutral
    exact absurd neutral.symm h
  · exact h1

theorem gfInv_gfMul {a : Byte} (h : a ≠ 0#8) : gfMul (gfInv a) a = 1#8 := by rw [gfMul_comm, gfMul_gfInv h]

theorem gfMul_eq_zero {a b : Byte} (h : gfMul a b = 0#8) : a = 0#8 ∨ b = 0#8 := by
  refine or_iff_not_imp_left.2 fun ha => ?_
  rw [← one_gfMul b, ← gfInv_gfMul ha, gfMul_assoc, h, gfMul_zero]

theorem gfInv_ne_zero {a : Byte} (h : a ≠ 0#8) : gfInv a ≠ 0#8 := by
  intro hz
  have h1 := gfMul_gfInv h
  rw [hz, gfMul_zero] at h1
  exact absurd h1 (by decide)

/-! ### Sums over a range -/

theorem xorSum_range_succ (f : Nat → Byte) (t : Nat) :
    xorSum ((List.range (t + 1)).map f) = xorSum ((List.range t).map f) ^^^ f t := by
  rw [List.range_succ, List.map_append, xorSum_append]
  exact congrArg (xorSum _ ^^^ ·) BitVec.xor_zero

theorem xorSum_map_xor (is : List Nat) (f g : Nat → Byte) :
    xorSum (is.map fun i => f i ^^^ g i) = xorSum (is.map f) ^^^ xorSum (is.map g) := by
  induction is with
  | nil => exact BitVec.xor_zero.symm
  | cons i is ih =>
    rw [List.map_cons, List.map_cons, List.map_cons, xorSum_cons, xorSum_cons, xorSum_cons, ih, xor_xor_xor_comm]

theorem xorSum_map_gfMul (is : List Nat) (a : Byte) (f : Nat → Byte) :
    xorSum (is.map fun i => gfMul a (f i)) = gfMul a (xorSum (is.map f)) := by
  rw [additive_xorSum (gfMul_xor_right a), List.map_map]
  rfl

theorem xorSum_range_ite (t r : Nat) (b : Byte) :
    xorSum ((List.range t).map fun i => if i = r then b else 0#8) = if r < t then b else 0#8 := by
  induction t with
  | zero => rfl
  | succ t ih =>
    rw [xorSum_range_succ, ih]
    rcases Nat.lt_trichotomy r t with h | rfl | h
    · rw [if_pos h, if_neg (by omega), if_pos (by omega), BitVec.xor_zero]
    · rw [if_neg (by omega), if_pos rfl, if_pos (by omega), BitVec.zero_xor]
    · rw [if_neg (by omega), if_neg (by omega), if_neg (by omega), BitVec.xor_zero]

end Sys2Proof.Machine

/-! SUPPORT. The bytes as a field in Mathlib's sense, and the Cauchy matrix: no vector but 0 is sent to 0 (R114). -/

namespace Sys2Proof.Machine

/-- The bytes as field elements. A synonym of its own: on `Byte` the signs `+` and `*` are those of machine words. -/
def GF256 : Type := Byte

/-- The field of R80 to R84. Mathlib asks for an inverse of 0 and for it to be 0, so `inv` is `gfInv` on the other bytes. -/
@[reducible] def GF256.field : Field GF256 :=
  letI : Add GF256 := ⟨fun a b : Byte => a ^^^ b⟩
  letI : Mul GF256 := ⟨gfMul⟩
  letI : Neg GF256 := ⟨id⟩
  letI : Inv GF256 := ⟨fun a : Byte => if a = 0#8 then 0#8 else gfInv a⟩
  letI : Zero GF256 := ⟨(0#8 : Byte)⟩
  letI : One GF256 := ⟨(1#8 : Byte)⟩
  Field.ofMinimalAxioms GF256 BitVec.xor_assoc (fun _ => BitVec.zero_xor) (fun _ => BitVec.xor_self) gfMul_assoc
    gfMul_comm one_gfMul (fun (a : Byte) (h : a ≠ 0#8) => (congrArg (gfMul a) (if_neg h)).trans (gfMul_gfInv h))
    (if_pos rfl) gfMul_xor_right ⟨(0#8 : Byte), (1#8 : Byte), (by decide : 0#8 ≠ 1#8)⟩

theorem GF256.inv_eq_gfInv {a : Byte} (h : a ≠ 0#8) : GF256.field.inv a = gfInv a := if_neg h

theorem GF256.sum_range_eq_xorSum (t : Nat) (f : Nat → Byte) :
    letI := GF256.field
    ∑ i ∈ Finset.range t, (show GF256 from f i) = xorSum ((List.range t).map f) := by
  let _ := GF256.field
  induction t with
  | zero => rfl
  | succ t ih =>
    rw [Finset.sum_range_succ, ih, xorSum_range_succ]
    rfl

/-- R111 makes a matrix with the entries `(x j + y i)⁻¹` regular: its kernel is trivial. -/
theorem cauchy_kernel {F : Type*} [Field F] {x y : Nat → F} {t : Nat}
    (hx : ∀ j < t, ∀ l < t, x j = x l → j = l) (hy : ∀ j < t, ∀ l < t, y j = y l → j = l)
    (hxy : ∀ j < t, ∀ i < t, x j + y i ≠ 0) {v : Nat → F}
    (h : ∀ j < t, ∑ i ∈ Finset.range t, (x j + y i)⁻¹ * v i = 0) : ∀ i < t, v i = 0 := by
  induction t generalizing v with
  | zero => exact fun i hi => absurd hi i.not_lt_zero
  | succ t ih =>
    have smaller : ∀ i < t, (y i - y t) * (x t + y i)⁻¹ * v i = 0 := by
      refine ih (fun j hj l hl => hx j (by omega) l (by omega)) (fun j hj l hl => hy j (by omega) l (by omega))
        (fun j hj i hi => hxy j (by omega) i (by omega)) fun j hj => ?_
      have hjt : x j - x t ≠ 0 := sub_ne_zero.2 fun e => by have := hx j (by omega) t (by omega) e; omega
      have hlast : ∀ l < t + 1, ∑ i ∈ Finset.range t, (x l + y t) * (x l + y i)⁻¹ * v i = - v t := by
        intro l hl
        have hs := congrArg ((x l + y t) * ·) (h l hl)
        simp only [Finset.sum_range_succ, mul_add, mul_zero, Finset.mul_sum, ← mul_assoc,
          mul_inv_cancel₀ (hxy l hl t (by omega)), one_mul] at hs
        exact eq_neg_of_add_eq_zero_left hs
      refine (mul_eq_zero.1 ?_).resolve_left hjt
      rw [Finset.mul_sum, ← sub_eq_zero.2 ((hlast j (by omega)).trans (hlast t (by omega)).symm),
        ← Finset.sum_sub_distrib]
      refine Finset.sum_congr rfl fun i hi => ?_
      have hi := Finset.mem_range.1 hi
      have h1 := hxy j (by omega) i (by omega)
      have h2 := hxy t (by omega) i (by omega)
      field_simp
      ring
    have hfirst : ∀ i < t, v i = 0 := by
      intro i hi
      have hy' : y i - y t ≠ 0 := sub_ne_zero.2 fun e => by have := hy i (by omega) t (by omega) e; omega
      exact (mul_eq_zero.1 (smaller i hi)).resolve_left (mul_ne_zero hy' (inv_ne_zero (hxy t (by omega) i (by omega))))
    intro i hi
    rcases Nat.lt_succ_iff_lt_or_eq.1 hi with hi | rfl
    · exact hfirst i hi
    · have hs := h i (by omega)
      rw [Finset.sum_range_succ, Finset.sum_eq_zero fun l hl => by rw [hfirst l (Finset.mem_range.1 hl), mul_zero],
        zero_add] at hs
      exact (mul_eq_zero.1 hs).resolve_left (inv_ne_zero (hxy i (by omega) i (by omega)))

/-- The same for bytes: entries `gfInv (x j ^^^ y i)`. -/
theorem gf_cauchy_kernel {x y v : Nat → Byte} {t : Nat} (hx : ∀ j < t, ∀ l < t, x j = x l → j = l)
    (hy : ∀ j < t, ∀ l < t, y j = y l → j = l) (hxy : ∀ j < t, ∀ i < t, x j ^^^ y i ≠ 0#8)
    (h : ∀ j < t, xorSum ((List.range t).map fun i => gfMul (gfInv (x j ^^^ y i)) (v i)) = 0#8) :
    ∀ i < t, v i = 0#8 := by
  let _ := GF256.field
  refine cauchy_kernel (F := GF256) hx hy hxy fun j hj => ?_
  refine Eq.trans ?_ ((GF256.sum_range_eq_xorSum t _).trans (h j hj))
  refine Finset.sum_congr rfl fun i hi => ?_
  exact congrArg (gfMul · (v i)) (GF256.inv_eq_gfInv (hxy j hj i (Finset.mem_range.1 hi)))

end Sys2Proof.Machine

/-! SUPPORT. The elimination of R152, entry by entry: a round keeps the kernel of the matrix, and a round without a pivot
finds a vector of the kernel. So a matrix with a trivial kernel is inverted. -/

namespace Sys2Proof.Machine

/-! ### A round of the elimination, entry by entry -/

theorem entry_of_length_le {A : GfMatrix} {r : Nat} (h : A.length ≤ r) (c : Nat) : entry A r c = 0#8 := by
  rw [entry, List.getD_eq_default _ _ h]
  rfl

theorem getD_swapRows (A : GfMatrix) {i j : Nat} (hi : i < A.length) (hj : j < A.length) (r : Nat) :
    (swapRows A i j).getD r [] = A.getD (Equiv.swap i j r) [] := by
  rw [swapRows, Equiv.swap_apply_def]
  by_cases hr : r < A.length
  · rw [List.getD_eq_getElem _ _ (by simpa using hr), List.getElem_map, List.getElem_range]
  · rw [List.getD_eq_default _ _ (by simpa using hr), if_neg (by omega), if_neg (by omega),
      List.getD_eq_default _ _ (by omega)]

theorem getD_clearColumn (A : GfMatrix) (pivot : List Byte) {c : Nat} (hc : c < A.length) (r : Nat) :
    (clearColumn A pivot c).getD r [] = if r = c then pivot else clearEntry (A.getD r []) pivot c := by
  rw [clearColumn]
  by_cases hr : r < A.length
  · rw [List.getD_eq_getElem _ _ (by simpa using hr), List.getD_eq_getElem _ _ hr]
    simp
  · rw [List.getD_eq_default _ _ (by simpa using hr), List.getD_eq_default _ _ (by omega), if_neg (by omega)]
    rfl

theorem getD_normalizeRow (row : List Byte) (c j : Nat) :
    (normalizeRow row c).getD j 0#8 = gfMul (gfInv (row.getD c 0#8)) (row.getD j 0#8) := by
  rw [normalizeRow, List.getD_eq_getElem?_getD, List.getElem?_map, List.getD_eq_getElem?_getD (i := j)]
  cases row[j]? with
  | none => exact (gfMul_zero _).symm
  | some b => rfl

theorem getD_clearEntry {row pivot : List Byte} (h : row.length = pivot.length) (c j : Nat) :
    (clearEntry row pivot c).getD j 0#8 = row.getD j 0#8 ^^^ gfMul (row.getD c 0#8) (pivot.getD j 0#8) := by
  rw [clearEntry]
  split
  · next hz => rw [hz, zero_gfMul, BitVec.xor_zero]
  · simp only [List.getD_eq_getElem?_getD, List.getElem?_zipWith]
    by_cases hj : j < row.length
    · rw [List.getElem?_eq_getElem hj, List.getElem?_eq_getElem (h ▸ hj)]
      rfl
    · rw [List.getElem?_eq_none (by omega), List.getElem?_eq_none (by omega)]
      simp

/-- Every row has `n` entries. -/
def HasWidth (n : Nat) (A : GfMatrix) : Prop := ∀ row ∈ A, row.length = n

theorem HasWidth.length_getD {n : Nat} {A : GfMatrix} (h : HasWidth n A) {r : Nat} (hr : r < A.length) :
    (A.getD r []).length = n := by
  rw [List.getD_eq_getElem _ _ hr]
  exact h _ (List.getElem_mem hr)

theorem findPivot_some {A : GfMatrix} {c q : Nat} (h : findPivot A c = some q) :
    q < A.length ∧ c ≤ q ∧ entry A q c ≠ 0#8 := by
  have hq := List.find?_some h
  rw [Bool.and_eq_true, decide_eq_true_eq, decide_eq_true_eq] at hq
  exact ⟨List.mem_range.1 (List.mem_of_find?_eq_some h), hq⟩

theorem findPivot_none {A : GfMatrix} {c : Nat} (h : findPivot A c = none) {r : Nat} (hr : c ≤ r) :
    entry A r c = 0#8 := by
  by_cases hl : r < A.length
  · simpa [hr] using List.find?_eq_none.1 h r (List.mem_range.2 hl)
  · exact entry_of_length_le (by omega) c

theorem HasWidth.clearColumn {n : Nat} {A : GfMatrix} (h : HasWidth n A) {pivot : List Byte} (hp : pivot.length = n)
    (c : Nat) : HasWidth n (clearColumn A pivot c) := by
  intro row hrow
  obtain ⟨⟨a, r⟩, ha, rfl⟩ := List.mem_map.1 hrow
  have hal : a.length = n := h a (List.mem_of_getElem? (List.mem_zipIdx_iff_getElem?.1 ha))
  dsimp only
  split
  · exact hp
  · rw [clearEntry]
    split
    · exact hal
    · rw [List.length_zipWith, hal, hp, Nat.min_self]

theorem HasWidth.swapRows {n : Nat} {A : GfMatrix} (h : HasWidth n A) {i j : Nat} (hi : i < A.length)
    (hj : j < A.length) : HasWidth n (swapRows A i j) := by
  intro row hrow
  obtain ⟨r, hr, rfl⟩ := List.mem_map.1 hrow
  have hr := List.mem_range.1 hr
  refine h.length_getD ?_
  split
  · exact hj
  · split
    · exact hi
    · exact hr

/-- The matrix after the round for column `c` that found its pivot in row `q`. -/
def roundResult (A : GfMatrix) (c q : Nat) : GfMatrix :=
  clearColumn (swapRows A q c) (normalizeRow (A.getD q []) c) c

theorem eliminateColumn_none {A : GfMatrix} {c : Nat} (h : eliminateColumn A c = none) : findPivot A c = none := by
  unfold eliminateColumn at h
  split at h
  · assumption
  · simp at h

theorem eliminateColumn_some {A B : GfMatrix} {c : Nat} (hc : c < A.length) (h : eliminateColumn A c = some B) :
    ∃ q, findPivot A c = some q ∧ B = roundResult A c q := by
  unfold eliminateColumn at h
  split at h
  · simp at h
  · next q hq =>
    refine ⟨q, hq, ?_⟩
    rw [← Option.some.inj h, getD_swapRows A (findPivot_some hq).1 hc, Equiv.swap_apply_right, roundResult]

theorem length_roundResult (A : GfMatrix) (c q : Nat) : (roundResult A c q).length = A.length := by
  simp [roundResult, clearColumn, swapRows]

theorem HasWidth.length_normalizeRow {n : Nat} {A : GfMatrix} (hn : HasWidth n A) {q : Nat} (hq : q < A.length)
    (c : Nat) : (normalizeRow (A.getD q []) c).length = n := by
  rw [normalizeRow, List.length_map, hn.length_getD hq]

theorem HasWidth.roundResult {n : Nat} {A : GfMatrix} (hn : HasWidth n A) {c q : Nat} (hc : c < A.length)
    (hq : q < A.length) : HasWidth n (roundResult A c q) :=
  (hn.swapRows hq hc).clearColumn (hn.length_normalizeRow hq c) c

/-- One round of R152 for column `c`, the pivot standing in row `q`: rows `q` and `c` change places, the pivot row is
divided by its pivot and then subtracted from the others. -/
structure Round (A B : GfMatrix) (c q : Nat) : Prop where
  le_pivot : c ≤ q
  pivot_ne : entry A q c ≠ 0#8
  pivotRow : ∀ j, entry B c j = gfMul (gfInv (entry A q c)) (entry A q j)
  otherRow : ∀ r j, r ≠ c →
    entry B r j = entry A (Equiv.swap q c r) j ^^^ gfMul (entry A (Equiv.swap q c r) c) (entry B c j)

theorem round_roundResult {n : Nat} {A : GfMatrix} {c q : Nat} (hn : HasWidth n A) (hc : c < A.length)
    (hp : findPivot A c = some q) : Round A (roundResult A c q) c q := by
  obtain ⟨hq, hcq, hne⟩ := findPivot_some hp
  have hrow := getD_clearColumn (swapRows A q c) (normalizeRow (A.getD q []) c) (c := c) (by simpa [swapRows] using hc)
  have hpivot : (roundResult A c q).getD c [] = normalizeRow (A.getD q []) c := (hrow c).trans (if_pos rfl)
  refine ⟨hcq, hne, fun j => ?_, fun r j hr => ?_⟩
  · rw [entry, hpivot, getD_normalizeRow]
    rfl
  · by_cases hrl : r < A.length
    · have hlr : (A.getD (Equiv.swap q c r) []).length = n := by
        rw [← getD_swapRows A hq hc]
        exact (hn.swapRows hq hc).length_getD (by simpa [swapRows] using hrl)
      have hother : (roundResult A c q).getD r [] =
          clearEntry (A.getD (Equiv.swap q c r) []) (normalizeRow (A.getD q []) c) c := by
        rw [roundResult, hrow, if_neg hr, getD_swapRows A hq hc]
      rw [entry, hother, getD_clearEntry (hlr.trans (hn.length_normalizeRow hq c).symm), ← hpivot]
      rfl
    · have hfix : Equiv.swap q c r = r := Equiv.swap_apply_of_ne_of_ne (by omega) hr
      have hA := entry_of_length_le (A := A) (r := r) (by omega)
      have hB := entry_of_length_le (A := roundResult A c q) (r := r) (by rw [length_roundResult]; omega)
      rw [hfix, hA, hA, hB, zero_gfMul, BitVec.xor_zero]

/-! ### The kernel -/

/-- Row `r` of `A`, its first `t` columns, times the vector `v`. -/
def rowDot (t : Nat) (A : GfMatrix) (r : Nat) (v : Nat → Byte) : Byte :=
  xorSum ((List.range t).map fun j => gfMul (entry A r j) (v j))

/-- The vector `v` is not 0 and the first `t` columns of `A` send it to 0. -/
structure InKernel (t : Nat) (A : GfMatrix) (v : Nat → Byte) : Prop where
  nonzero : ∃ j < t, v j ≠ 0#8
  rows : ∀ r, rowDot t A r v = 0#8

section
variable {A B : GfMatrix} {c q : Nat} (h : Round A B c q)
include h

theorem Round.rowDot_pivotRow (t : Nat) (v : Nat → Byte) :
    rowDot t B c v = gfMul (gfInv (entry A q c)) (rowDot t A q v) := by
  simp only [rowDot, h.pivotRow, gfMul_assoc, xorSum_map_gfMul]

theorem Round.rowDot_otherRow (t : Nat) (v : Nat → Byte) {r : Nat} (hr : r ≠ c) :
    rowDot t B r v =
      rowDot t A (Equiv.swap q c r) v ^^^ gfMul (entry A (Equiv.swap q c r) c) (rowDot t B c v) := by
  simp only [rowDot, h.otherRow r _ hr, gfMul_xor_left, gfMul_assoc, xorSum_map_xor, xorSum_map_gfMul]

theorem Round.inKernel {t : Nat} {v : Nat → Byte} (hv : InKernel t B v) : InKernel t A v := by
  refine ⟨hv.nonzero, fun r => ?_⟩
  obtain ⟨r, rfl⟩ := (Equiv.swap q c).surjective r
  by_cases hr : r = c
  · have hz := h.rowDot_pivotRow t v
    rw [hv.rows] at hz
    rw [hr, Equiv.swap_apply_right]
    exact (gfMul_eq_zero hz.symm).resolve_left (gfInv_ne_zero h.pivot_ne)
  · have hz := h.rowDot_otherRow t v hr
    rw [hv.rows, hv.rows, gfMul_zero, BitVec.xor_zero] at hz
    exact hz.symm

/-- The columns before `c` are those of the unit matrix. -/
def UnitBefore (c : Nat) (A : GfMatrix) : Prop := ∀ r, ∀ j < c, entry A r j = if r = j then 1#8 else 0#8

theorem Round.unitBefore_succ (hu : UnitBefore c A) : UnitBefore (c + 1) B := by
  have hcq := h.le_pivot
  intro r j hj
  by_cases hjc : j = c
  · subst hjc
    have hone : entry B j j = 1#8 := by rw [h.pivotRow, gfInv_gfMul h.pivot_ne]
    by_cases hr : r = j
    · rw [hr, hone, if_pos rfl]
    · rw [h.otherRow r j hr, hone, gfMul_one, BitVec.xor_self, if_neg hr]
  · have hq : entry A q j = 0#8 := by rw [hu q j (by omega), if_neg (by omega)]
    have hz : entry B c j = 0#8 := by rw [h.pivotRow, hq, gfMul_zero]
    by_cases hr : r = c
    · rw [hr, hz, if_neg (by omega)]
    · have hfix : Equiv.swap q c r = j ↔ r = j := by
        rw [Equiv.swap_apply_eq_iff, Equiv.swap_apply_of_ne_of_ne (by omega) hjc]
      rw [h.otherRow r j hr, hz, gfMul_zero, BitVec.xor_zero, hu _ j (by omega), if_congr hfix rfl rfl]

end

/-- Column `c` without its part from row `c` on, and 1 at `c`: what a round without a pivot finds. -/
def kernelVector (A : GfMatrix) (c j : Nat) : Byte := if j < c then entry A j c else if j = c then 1#8 else 0#8

/-- Each row meets the vector in two places at most, with the same byte. -/
theorem gfMul_entry_kernelVector {A : GfMatrix} {c r : Nat} (hu : UnitBefore c A) (hzero : c ≤ r → entry A r c = 0#8)
    (j : Nat) : gfMul (entry A r j) (kernelVector A c j) =
      (if j = r then entry A r c else 0#8) ^^^ (if j = c then entry A r c else 0#8) := by
  rcases Nat.lt_trichotomy j c with hj | rfl | hj
  · rw [kernelVector, if_pos hj, hu r j hj, if_neg (Nat.ne_of_lt hj), BitVec.xor_zero]
    by_cases hr : r = j
    · rw [if_pos hr, if_pos hr.symm, one_gfMul, hr]
    · rw [if_neg hr, if_neg (Ne.symm hr), zero_gfMul]
  · rw [kernelVector, if_neg (Nat.lt_irrefl j), if_pos rfl, if_pos rfl, gfMul_one]
    by_cases hr : j = r
    · rw [hzero (Nat.le_of_eq hr), ite_self, BitVec.xor_zero]
    · rw [if_neg hr, BitVec.zero_xor]
  · have hjc : j ≠ c := Nat.ne_of_gt hj
    rw [kernelVector, if_neg (Nat.lt_asymm hj), if_neg hjc, if_neg hjc, gfMul_zero, BitVec.xor_zero]
    by_cases hr : j = r
    · rw [hzero (by omega), ite_self]
    · rw [if_neg hr]

theorem inKernel_of_no_pivot {t : Nat} {A : GfMatrix} {c : Nat} (hc : c < t) (hu : UnitBefore c A)
    (hp : findPivot A c = none) : InKernel t A (kernelVector A c) := by
  refine ⟨⟨c, hc, by simp [kernelVector]⟩, fun r => ?_⟩
  have hzero : c ≤ r → entry A r c = 0#8 := findPivot_none hp
  simp only [rowDot, gfMul_entry_kernelVector hu hzero, xorSum_map_xor, xorSum_range_ite, if_pos hc]
  by_cases hr : r < t
  · rw [if_pos hr, BitVec.xor_self]
  · rw [hzero (by omega), ite_self, BitVec.xor_zero]

theorem eliminateColumns_none {n t : Nat} {A : GfMatrix} {c m : Nat} (hn : HasWidth n A) (ht : c + m = t)
    (hl : A.length = t) (hu : UnitBefore c A) (h : eliminateColumns A (List.range' c m) = none) :
    ∃ v, InKernel t A v := by
  induction m generalizing A c with
  | zero => simp [eliminateColumns] at h
  | succ m ih =>
    rw [List.range'_succ, eliminateColumns] at h
    split at h
    · next he => exact ⟨_, inKernel_of_no_pivot (by omega) hu (eliminateColumn_none he)⟩
    · next B he =>
      have hc : c < A.length := by omega
      obtain ⟨q, hp, rfl⟩ := eliminateColumn_some hc he
      have hround := round_roundResult hn hc hp
      obtain ⟨v, hv⟩ := ih (hn.roundResult hc (findPivot_some hp).1) (by omega) ((length_roundResult A c q).trans hl)
        (hround.unitBefore_succ hu) h
      exact ⟨v, hround.inKernel hv⟩

theorem HasWidth.augment {M : GfMatrix} (h : HasWidth M.length M) : HasWidth (M.length + M.length) (augment M) := by
  intro row hrow
  obtain ⟨⟨a, r⟩, ha, rfl⟩ := List.mem_map.1 hrow
  have hal : a.length = M.length := h a (List.mem_of_getElem? (List.mem_zipIdx_iff_getElem?.1 ha))
  simp [hal, identityRow]

theorem length_augment (M : GfMatrix) : (augment M).length = M.length := by simp [augment]

theorem entry_augment {M : GfMatrix} (h : HasWidth M.length M) (r : Nat) {j : Nat} (hj : j < M.length) :
    entry (augment M) r j = entry M r j := by
  by_cases hr : r < M.length
  · have hj : j < M[r].length := by rwa [h _ (List.getElem_mem hr)]
    have hrow : (augment M).getD r [] = M[r] ++ identityRow M.length r := by simp [augment, hr]
    rw [entry, entry, hrow, List.getD_append _ _ _ _ hj, List.getD_eq_getElem _ _ hr]
  · rw [entry_of_length_le (by rw [length_augment]; omega), entry_of_length_le (by omega)]

/-- A square matrix that the elimination does not invert has a vector in its kernel (R147, R152). -/
theorem exists_inKernel_of_invertMatrix_none {M : GfMatrix} (h : HasWidth M.length M) (hi : invertMatrix M = none) :
    ∃ v, InKernel M.length M v := by
  have hnone : eliminateColumns (augment M) (List.range' 0 M.length) = none := by
    rw [← List.range_eq_range']
    unfold invertMatrix at hi
    split at hi
    · assumption
    · simp at hi
  obtain ⟨v, hv⟩ := eliminateColumns_none h.augment (Nat.zero_add _) (length_augment M)
    (fun r j hj => absurd hj j.not_lt_zero) hnone
  refine ⟨v, hv.nonzero, fun r => (congrArg xorSum (List.map_congr_left fun j hj => ?_)).trans (hv.rows r)⟩
  rw [entry_augment h r (List.mem_range.1 hj)]

end Sys2Proof.Machine

/-! SUPPORT. The MDS property as DECODE needs it (R114, R147), and the refusals of DECODE (R153). -/

namespace Sys2Proof.Machine

/-! ### The parameters of R110 are distinct (R111) -/

theorem byte_ofNat_inj {a b : Nat} (hab : a < b + 256) (hba : b < a + 256)
    (h : BitVec.ofNat 8 a = BitVec.ofNat 8 b) : a = b := by
  have := congrArg BitVec.toNat h
  simp only [BitVec.toNat_ofNat] at this
  omega

theorem colParam_inj {c d : Nat} (hc : c < 256) (hd : d < 256) (h : colParam c = colParam d) : c = d := by
  have := byte_ofNat_inj (by omega) (by omega) h
  omega

theorem rowParam_inj {k r q : Nat} (hr : r < 256) (hq : q < 256) (h : rowParam k r = rowParam k q) : r = q := by
  have := byte_ofNat_inj (by omega) (by omega) h
  omega

theorem rowParam_xor_colParam_ne {k r c : Nat} (hr : k + r < 256) (hc : c < k) : rowParam k r ^^^ colParam c ≠ 0#8 := by
  intro h
  have := byte_ofNat_inj (by omega) (by omega) (BitVec.xor_eq_zero_iff.1 h)
  omega

/-! ### Square submatrices of the generator matrix (R114) -/

theorem entry_generator (k : Nat) {rows cols : List Nat} {j i : Nat} (hj : j < rows.length) (hi : i < cols.length) :
    entry (rows.map fun r => cols.map fun c => genEntry k r c) j i = genEntry k rows[j] cols[i] := by
  simp [entry, hj, hi]

/-- Distinct rows and as many distinct columns of the generator matrix are inverted by the elimination. -/
theorem exists_invertMatrix_generator {k m : Nat} {rows cols : List Nat} (hm : k + m ≤ 256)
    (hlen : rows.length = cols.length) (hrows : rows.Nodup) (hcols : cols.Nodup) (hr : ∀ r ∈ rows, r < m)
    (hc : ∀ c ∈ cols, c < k) : ∃ W, invertMatrix (rows.map fun r => cols.map fun c => genEntry k r c) = some W := by
  refine Option.ne_none_iff_exists'.1 fun hnone => ?_
  have hsize : (rows.map fun r => cols.map fun c => genEntry k r c).length = cols.length := by simp [hlen]
  have hwidth : HasWidth cols.length (rows.map fun r => cols.map fun c => genEntry k r c) := by
    intro row hrow
    obtain ⟨r, -, rfl⟩ := List.mem_map.1 hrow
    rw [List.length_map]
  obtain ⟨v, ⟨i, hi, hvi⟩, hv⟩ := exists_inKernel_of_invertMatrix_none (by rwa [hsize]) hnone
  rw [hsize] at hi hv
  have hrow : ∀ j < cols.length, rows.getD j 0 < m := fun j hj => by
    rw [List.getD_eq_getElem _ _ (hlen ▸ hj)]
    exact hr _ (List.getElem_mem _)
  have hcol : ∀ i < cols.length, cols.getD i 0 < k := fun i hi => by
    rw [List.getD_eq_getElem _ _ hi]
    exact hc _ (List.getElem_mem _)
  refine hvi (gf_cauchy_kernel (x := fun j => rowParam k (rows.getD j 0)) (y := fun i => colParam (cols.getD i 0))
    (fun j hj l hl h => ?_) (fun j hj l hl h => ?_) (fun j hj i hi => ?_) (fun j hj => ?_) i hi)
  · have := rowParam_inj (by have := hrow j hj; omega) (by have := hrow l hl; omega) h
    rwa [List.getD_eq_getElem _ _ (hlen ▸ hj), List.getD_eq_getElem _ _ (hlen ▸ hl), hrows.getElem_inj_iff] at this
  · have := colParam_inj (by have := hcol j hj; omega) (by have := hcol l hl; omega) h
    rwa [List.getD_eq_getElem _ _ hj, List.getD_eq_getElem _ _ hl, hcols.getElem_inj_iff] at this
  · exact rowParam_xor_colParam_ne (by have := hrow j hj; omega) (hcol i hi)
  · refine Eq.trans (congrArg xorSum (List.map_congr_left fun i hi => ?_)) (hv j)
    have hi := List.mem_range.1 hi
    rw [entry_generator k (hlen ▸ hj) hi, List.getD_eq_getElem _ _ (hlen ▸ hj), List.getD_eq_getElem _ _ hi]
    rfl

/-! ### DECODE (R146, R147) -/

theorem submatrix_eq_generator (k : Nat) (ds : List Descriptor) :
    submatrix k ds = ((erasedSlots k ds).map fun x => supplyRow k x.1).map fun r =>
      ((erasedSlots k ds).map (·.2)).map fun c => genEntry k r c := by
  simp [submatrix, Function.comp_def]

/-- The submatrix of a DECODE that passes its checks is never singular. -/
theorem exists_invertMatrix_submatrix {s : State} (h : s.DecodeLegal) :
    ∃ W, invertMatrix (submatrix s.origCount.toNat s.descs) = some W := by
  have hslot : ∀ x ∈ erasedSlots s.origCount.toNat s.descs,
      s.descs[x.2]? = some x.1 ∧ s.origCount.toNat ≤ x.1.idx.toNat :=
    fun ⟨d, p⟩ hx => (mem_erasedSlots _ _ d p).1 hx
  have hsum := h.counts.sum
  have hmax := h.counts.orig_max
  rw [submatrix_eq_generator]
  refine exists_invertMatrix_generator (m := s.recovCount.toNat) (by omega) (by simp) ?_
    (erasedSlots_positions_nodup _ _) (List.forall_mem_map.2 fun x hx => ?_) (List.forall_mem_map.2 fun x hx => ?_)
  · refine List.Nodup.map_on (fun x hx y hy hxy => ?_) ((erasedSlots_positions_nodup _ _).of_map _)
    obtain ⟨hx, hkx⟩ := hslot x hx
    obtain ⟨hy, hky⟩ := hslot y hy
    have htag : x.1.idx = y.1.idx := BitVec.eq_of_toNat_eq (by unfold supplyRow at hxy; omega)
    have hpos : x.2 = y.2 := h.distinct _ _ _ _ hx hy htag
    have hd : x.1 = y.1 := by rw [hpos, hy] at hx; exact (Option.some.inj hx).symm
    exact Prod.ext hd hpos
  · obtain ⟨hx, hkx⟩ := hslot x hx
    have htag := (h.slots _ _ hx).tagRange
    unfold supplyRow
    omega
  · obtain ⟨hx, -⟩ := hslot x hx
    rw [← h.count]
    exact (List.getElem?_eq_some_iff.1 hx).1

theorem execDecode_of_broken {s : State} {r : Refusal} (hr : s.ready) (hl : s.DecodeLegal)
    (hd : dutyBroken s.platform (decodeBuffers s.blockBytes.toNat s.origCount.toNat s.descs) = some r) :
    execDecode s = .refused r := by
  obtain ⟨W, hW⟩ := exists_invertMatrix_submatrix hl
  rw [execDecode, whenReady_of_ready hr, s.decodeLegal_iff.1 hl, afterChecks_none, hW]
  exact accessing_of_broken hd _

/-- Settles O58: the submatrix has an inverse, so that DECODE comes to its duties, and `dutyBroken` says which is broken. -/
theorem decodeRefusesBrokenDuties : Obligations.DecodeRefusesBrokenDuties := by
  refine fun s hr hl => ⟨?_, fun hall hno => ?_⟩
  · rintro ⟨d, hd, hno⟩
    exact execDecode_of_broken hr hl
      (dutyBroken_of_not_allowed (map_range_decodeBuffers hl ▸ List.mem_map_of_mem hd) hno)
  · refine execDecode_of_broken hr hl (dutyBroken_of_allowed ?_ fun hn => hno ((decode_duties_iff hl).1 hn))
    rw [map_range_decodeBuffers hl]
    exact List.forall_mem_map.2 hall

end Sys2Proof.Machine

/-! SUPPORT. Command words (R60 to R67): the fields of a word, the decoder and the encoder as each other's inverse, the
rows of the opcode map, the illegal words. -/

namespace Sys2Proof

/-! ### The formats of R60 -/

theorem opcodeOf_append_low (w : Word) : opcodeOf w ++ w.extractLsb' 0 24 = w :=
  BitVec.extractLsb'_append_extractLsb' (x := w) (w := 8) (len := 24)

theorem eq_wordZ_iff {w : Word} {op : Byte} : w = wordZ op ↔ opcodeOf w = op ∧ w.extractLsb' 0 24 = 0#24 := by
  constructor
  · rintro rfl
    exact ⟨BitVec.extractLsb'_append_eq_left, BitVec.extractLsb'_append_eq_right⟩
  · rintro ⟨rfl, h⟩
    rw [wordZ, ← h, opcodeOf_append_low]

theorem eq_wordA_iff {w : Word} {op a : Byte} :
    w = wordA op a ↔ opcodeOf w = op ∧ w.extractLsb' 8 16 = 0#16 ∧ fieldLow w = a := by
  constructor
  · rintro rfl
    simp (disch := decide) only [wordA, opcodeOf, fieldLow, BitVec.extractLsb'_append_eq_of_le,
      BitVec.extractLsb'_append_eq_of_add_le]
    simp
  · rintro ⟨rfl, h, rfl⟩
    have hhigh : opcodeOf w ++ w.extractLsb' 8 16 = w.extractLsb' 8 24 :=
      BitVec.extractLsb'_append_extractLsb'_eq_extractLsb' rfl
    rw [wordA, ← h, hhigh]
    exact (BitVec.extractLsb'_append_extractLsb' (x := w) (w := 24) (len := 8)).symm

theorem eq_wordAB_iff {w : Word} {op a b : Byte} :
    w = wordAB op a b ↔ opcodeOf w = op ∧ w.extractLsb' 16 8 = 0#8 ∧ fieldA w = a ∧ fieldLow w = b := by
  constructor
  · rintro rfl
    simp (disch := decide) only [wordAB, opcodeOf, fieldA, fieldLow, BitVec.extractLsb'_append_eq_of_le,
      BitVec.extractLsb'_append_eq_of_add_le]
    simp
  · rintro ⟨rfl, h, rfl, rfl⟩
    have hhigh : opcodeOf w ++ w.extractLsb' 16 8 = w.extractLsb' 16 16 :=
      BitVec.extractLsb'_append_extractLsb'_eq_extractLsb' rfl
    have hupper : w.extractLsb' 16 16 ++ fieldA w = w.extractLsb' 8 24 :=
      BitVec.extractLsb'_append_extractLsb'_eq_extractLsb' rfl
    rw [wordAB, ← h, hhigh, hupper]
    exact (BitVec.extractLsb'_append_extractLsb' (x := w) (w := 24) (len := 8)).symm

section
variable (op a b : Byte)

@[simp] theorem opcodeOf_wordZ : opcodeOf (wordZ op) = op := (eq_wordZ_iff.1 rfl).1

@[simp] theorem opcodeOf_wordA : opcodeOf (wordA op a) = op := (eq_wordA_iff.1 rfl).1

@[simp] theorem opcodeOf_wordAB : opcodeOf (wordAB op a b) = op := (eq_wordAB_iff.1 rfl).1

@[simp] theorem formatZ_wordZ (i : Instr) : formatZ (wordZ op) i = .command i := if_pos (eq_wordZ_iff.1 rfl).2

@[simp] theorem formatA_wordA (f : Byte → Instr) : formatA (wordA op a) f = .command (f a) := by
  obtain ⟨-, hres, ha⟩ := eq_wordA_iff.1 (rfl : wordA op a = _)
  rw [formatA, if_pos hres, ha]

@[simp] theorem formatAB_wordAB (f : Byte → Byte → Instr) : formatAB (wordAB op a b) f = .command (f a b) := by
  obtain ⟨-, hres, ha, hb⟩ := eq_wordAB_iff.1 (rfl : wordAB op a b = _)
  rw [formatAB, if_pos hres, ha, hb]

end

/-! ### The decoder and the encoder are each other's inverse (R65, R67) -/

/-- Every command goes through its word and back (R64). -/
theorem decode_encode {i : Instr} (h : i.wellFormed = true) : decode (encode i) = .command i := by
  cases i with
  | genrd row col =>
    obtain ⟨hrow, hcol⟩ : row < 256 ∧ col < 256 := by simpa [Instr.wellFormed] using h
    simp [encode, decode, Nat.mod_eq_of_lt hrow, Nat.mod_eq_of_lt hcol]
  | _ => simp [encode, decode]

section
variable {w : Word} {op : Byte} {j : Instr}

/-- What a format accepts is the encoding of the command it reads, when the encoder uses that format and opcode. -/
theorem encode_of_formatZ {i : Instr} (h : formatZ w i = .command j) (he : encode i = wordZ op)
    (hwf : i.wellFormed = true) (hop : (opcodeOf w).toNat = op.toNat) : encode j = w ∧ j.wellFormed = true := by
  unfold formatZ at h
  split at h
  · next hres =>
    cases h
    exact ⟨he.trans (eq_wordZ_iff.2 ⟨BitVec.eq_of_toNat_eq hop, hres⟩).symm, hwf⟩
  · cases h

theorem encode_of_formatA {f : Byte → Instr} (h : formatA w f = .command j) (he : ∀ a, encode (f a) = wordA op a)
    (hwf : ∀ a, (f a).wellFormed = true) (hop : (opcodeOf w).toNat = op.toNat) :
    encode j = w ∧ j.wellFormed = true := by
  unfold formatA at h
  split at h
  · next hres =>
    cases h
    exact ⟨(he _).trans (eq_wordA_iff.2 ⟨BitVec.eq_of_toNat_eq hop, hres, rfl⟩).symm, hwf _⟩
  · cases h

theorem encode_of_formatAB {f : Byte → Byte → Instr} (h : formatAB w f = .command j)
    (he : ∀ a b, encode (f a b) = wordAB op a b) (hwf : ∀ a b, (f a b).wellFormed = true)
    (hop : (opcodeOf w).toNat = op.toNat) : encode j = w ∧ j.wellFormed = true := by
  unfold formatAB at h
  split at h
  · next hres =>
    cases h
    exact ⟨(he _ _).trans (eq_wordAB_iff.2 ⟨BitVec.eq_of_toNat_eq hop, hres, rfl, rfl⟩).symm, hwf _ _⟩
  · cases h

end

/-- A word has at most one reading, and its command writes that word. -/
theorem encode_of_decode {w : Word} {i : Instr} (h : decode w = .command i) : encode i = w ∧ i.wellFormed = true := by
  unfold decode at h
  split at h
  · next hop => exact encode_of_formatZ h rfl rfl hop
  · next hop => exact encode_of_formatAB h (fun _ _ => rfl) (fun _ _ => rfl) hop
  · next hop => exact encode_of_formatAB h (fun _ _ => rfl) (fun _ _ => rfl) hop
  · next hop => exact encode_of_formatA h (fun _ => rfl) (fun _ => rfl) hop
  · next hop => exact encode_of_formatA h (fun _ => rfl) (fun _ => rfl) hop
  · next hop => exact encode_of_formatZ h rfl rfl hop
  · next hop =>
    refine encode_of_formatAB h (op := 0x21#8) (fun row col => ?_) (fun row col => ?_) hop
    · simp [encode]
    · simpa [Instr.wellFormed] using ⟨row.isLt, col.isLt⟩
  · next hop => exact encode_of_formatZ h rfl rfl hop
  · next hop => exact encode_of_formatA h (fun _ => rfl) (fun _ => rfl) hop
  · next hop => exact encode_of_formatZ h rfl rfl hop
  · next hop => exact encode_of_formatZ h rfl rfl hop
  · cases h

/-- Settles O1: `decode_encode`, command by command. -/
theorem decodeOfEncodeIsIdentity : Obligations.DecodeOfEncodeIsIdentity := fun _ => decode_encode

/-- Settles O2: `encode_of_decode`, by the format of the opcode. -/
theorem encodeOfDecodeIsIdentity : Obligations.EncodeOfDecodeIsIdentity := fun _ _ => encode_of_decode

/-! ### The opcode map (R65) -/

theorem encode_matches_row (i : Instr) : encode i &&& (rowOf i).mask = (rowOf i).pattern := by
  cases i with
  | init => exact Laws.RowMatch.init
  | gfmul a b => exact Laws.RowMatch.gfmul a b
  | gfdiv a b => exact Laws.RowMatch.gfdiv a b
  | gfinv a => exact Laws.RowMatch.gfinv a
  | mulacc c => exact Laws.RowMatch.mulacc c
  | buildgen => exact Laws.RowMatch.buildgen
  | genrd row col => exact Laws.RowMatch.genrd row col
  | descclr => exact Laws.RowMatch.descclr
  | descpush tag => exact Laws.RowMatch.descpush tag
  | encode => exact Laws.RowMatch.encode
  | decode => exact Laws.RowMatch.decode

theorem rowOf_mem_opcodeRows (i : Instr) : rowOf i ∈ opcodeRows := by
  cases i <;> simp [opcodeRows, rowOf]

/-- A field that lies inside the mask of a match is that field of the pattern. -/
theorem extractLsb'_eq_of_matches {w mask pattern : Word} (h : w &&& mask = pattern) {start len : Nat}
    (hmask : mask.extractLsb' start len = BitVec.allOnes len) :
    w.extractLsb' start len = pattern.extractLsb' start len := by
  rw [← h, BitVec.extractLsb'_and, hmask, BitVec.and_allOnes]

theorem eq_wordA_of_matches {w : Word} {op : Byte} (h : w &&& 0xFFFFFF00#32 = wordA op 0#8) :
    wordA op (fieldLow w) = w := by
  obtain ⟨hop, hres, -⟩ := eq_wordA_iff.1 (rfl : wordA op 0#8 = _)
  exact (eq_wordA_iff.2
    ⟨(extractLsb'_eq_of_matches h rfl).trans hop, (extractLsb'_eq_of_matches h rfl).trans hres, rfl⟩).symm

theorem eq_wordAB_of_matches {w : Word} {op : Byte} (h : w &&& 0xFFFF0000#32 = wordAB op 0#8 0#8) :
    wordAB op (fieldA w) (fieldLow w) = w := by
  obtain ⟨hop, hres, -⟩ := eq_wordAB_iff.1 (rfl : wordAB op 0#8 0#8 = _)
  exact (eq_wordAB_iff.2
    ⟨(extractLsb'_eq_of_matches h rfl).trans hop, (extractLsb'_eq_of_matches h rfl).trans hres, rfl, rfl⟩).symm

/-- The mask of a format-Z row covers the whole word. -/
theorem eq_wordZ_of_matches {w : Word} {op : Byte} (h : w &&& 0xFFFFFFFF#32 = wordZ op) : wordZ op = w :=
  h.symm.trans BitVec.and_allOnes

theorem exists_encode_of_matches {w : Word} {row : OpcodeRow} (hrow : row ∈ opcodeRows)
    (h : w &&& row.mask = row.pattern) : ∃ i : Instr, i.wellFormed = true ∧ encode i = w := by
  simp only [opcodeRows, List.mem_cons, List.not_mem_nil, or_false] at hrow
  rcases hrow with rfl | rfl | rfl | rfl | rfl | rfl | rfl | rfl | rfl | rfl | rfl
  · exact ⟨.init, rfl, eq_wordZ_of_matches h⟩
  · exact ⟨.gfmul (fieldA w) (fieldLow w), rfl, eq_wordAB_of_matches h⟩
  · exact ⟨.gfdiv (fieldA w) (fieldLow w), rfl, eq_wordAB_of_matches h⟩
  · exact ⟨.gfinv (fieldLow w), rfl, eq_wordA_of_matches h⟩
  · exact ⟨.mulacc (fieldLow w), rfl, eq_wordA_of_matches h⟩
  · exact ⟨.buildgen, rfl, eq_wordZ_of_matches h⟩
  · refine ⟨.genrd (fieldA w).toNat (fieldLow w).toNat, ?_, ?_⟩
    · simpa [Instr.wellFormed] using ⟨(fieldA w).isLt, (fieldLow w).isLt⟩
    · rw [encode, BitVec.ofNat_toNat, BitVec.ofNat_toNat]
      exact eq_wordAB_of_matches h
  · exact ⟨.descclr, rfl, eq_wordZ_of_matches h⟩
  · exact ⟨.descpush (fieldLow w), rfl, eq_wordA_of_matches h⟩
  · exact ⟨.encode, rfl, eq_wordZ_of_matches h⟩
  · exact ⟨.decode, rfl, eq_wordZ_of_matches h⟩

theorem decode_command_iff_matches (w : Word) :
    (∃ i, decode w = .command i) ↔ ∃ row ∈ opcodeRows, w &&& row.mask = row.pattern := by
  constructor
  · rintro ⟨i, h⟩
    obtain ⟨rfl, -⟩ := encode_of_decode h
    exact ⟨rowOf i, rowOf_mem_opcodeRows i, encode_matches_row i⟩
  · rintro ⟨row, hrow, h⟩
    obtain ⟨i, hwf, rfl⟩ := exists_encode_of_matches hrow h
    exact ⟨i, decode_encode hwf⟩

/-! ### Illegal words (R66) -/

/-- The opcodes of the eleven commands (R65). -/
abbrev knownOpcodes : List Nat := [0x01, 0x10, 0x11, 0x12, 0x18, 0x20, 0x21, 0x30, 0x31, 0x40, 0x41]

theorem toNat_opcodeOf (w : Word) : (opcodeOf w).toNat = w.toNat / 2 ^ 24 := by
  have := w.isLt
  rw [opcodeOf, BitVec.extractLsb'_toNat, Nat.shiftRight_eq_div_pow]
  omega

@[simp] theorem formatZ_ne_illegalOpcode (w : Word) (i : Instr) : formatZ w i ≠ .illegalOpcode := by
  unfold formatZ
  split <;> simp

@[simp] theorem formatA_ne_illegalOpcode (w : Word) (f : Byte → Instr) : formatA w f ≠ .illegalOpcode := by
  unfold formatA
  split <;> simp

@[simp] theorem formatAB_ne_illegalOpcode (w : Word) (f : Byte → Byte → Instr) : formatAB w f ≠ .illegalOpcode := by
  unfold formatAB
  split <;> simp

/-- An arm of the decoder that reads a known opcode never answers `illegalOpcode`; the last arm always does. -/
theorem decode_illegalOpcode_iff (w : Word) : decode w = .illegalOpcode ↔ w.toNat / 2 ^ 24 ∉ knownOpcodes := by
  rw [← toNat_opcodeOf]
  unfold decode
  split
  case h_12 => simp_all
  all_goals
    next hop => exact iff_of_false (by simp) (by simp [hop])

/-- The three readings of a word exclude each other and leave nothing out. -/
theorem decode_illegalReserved_iff (w : Word) :
    decode w = .illegalReserved ↔ decode w ≠ .illegalOpcode ∧ ¬ ∃ i, decode w = .command i := by
  cases decode w <;> simp

end Sys2Proof

namespace Sys2Proof.Machine

theorem issue_of_illegalOpcode {w : Word} {s : State} (hf : s.fatal = false) (h : decode w = .illegalOpcode) :
    issue w s = .next (fail .illegalOpcode s) := by
  simp [issue, h, rejectWord_of_not_fatal hf]

theorem issue_of_illegalReserved {w : Word} {s : State} (hf : s.fatal = false) (h : decode w = .illegalReserved) :
    issue w s = .next (fail .illegalReserved s) := by
  simp [issue, h, rejectWord_of_not_fatal hf]

/-- Settles O3: a word that is no command of the map has an unknown opcode or matches no row. -/
theorem illegalWordsAreReported : Obligations.IllegalWordsAreReported := by
  refine ⟨decode_command_iff_matches, decode_illegalOpcode_iff, fun w => ?_, rfl, rfl,
    fun _ _ => issue_of_illegalOpcode, fun _ _ => issue_of_illegalReserved⟩
  rw [decode_illegalReserved_iff, decode_command_iff_matches, Ne, decode_illegalOpcode_iff, not_not]
  simp only [not_exists, not_and, Ne]

/-- Settles O4: the decoder run on the eight words. -/
theorem sampleWordsDecode : Obligations.SampleWordsDecode := ⟨rfl, rfl, rfl, rfl, rfl, rfl, rfl, rfl⟩

/-! ### The order of the steps on a command write (R69) -/

/-- Every command but INIT fails while the tables are not built (R166). -/
theorem exec_of_not_init {s : State} (hf : s.fatal = false) (hi : s.initDone = false) {i : Instr} (h : i ≠ .init) :
    exec i s = .next (fail .notInit s) := by
  cases i with
  | init => exact absurd rfl h
  | _ => exact whenReady_of_not_init hf hi _

/-- Settles O5: the write issues the word, in the state without the action. -/
theorem commandWriteFollowsDispatchOrder : Obligations.CommandWriteFollowsDispatchOrder := by
  intro s w rest hs
  rw [step_wr_cmd hs]
  refine ⟨fun hf => issue_of_fatal (s := s.withScript rest) hf w,
    fun hf => issue_of_illegalOpcode (s := s.withScript rest) hf,
    fun hf => issue_of_illegalReserved (s := s.withScript rest) hf, fun i hf hd hne hi => ?_,
    fun i _ hd _ => issue_of_command hd _⟩
  rw [issue_of_command hd]
  exact exec_of_not_init (s := s.withScript rest) hf hi hne

/-! ### INIT (R87) -/

theorem exec_init_of_built {s : State} (hf : s.fatal = false) (hi : s.initDone = true) :
    exec .init s = .next (succeed s) := by
  simp [exec, execInit, hf, hi]

theorem exec_init_of_not_built {s : State} (hf : s.fatal = false) (hi : s.initDone = false) :
    exec .init s =
      .next (initOutcome (Config.initSelftestOk s.initDraws) { s with initDraws := s.initDraws + 1 }) := by
  simp [exec, execInit, hf, hi]

/-- Settles O30, by INIT_DONE and then by the draw. -/
theorem initBuildsTablesOrIsFatal : Obligations.InitBuildsTablesOrIsFatal := by
  refine ⟨rfl, fun s hf => ⟨exec_init_of_built hf, fun hi => ?_⟩⟩
  rw [exec_init_of_not_built hf hi]
  cases Config.initSelftestOk s.initDraws <;> rfl

/-! ### The pseudo-instruction `desc` (R73) -/

theorem run_succ_of_step {s t : State} (h : step s = .next t) (k : Nat) : core.run (k + 1) s = core.run k t := by
  have hstep : core.step s = .next t := h
  simp only [Host.Core.run, hstep]

theorem step_issueAction {s : State} {i : Instr} {rest : List HostAction} (hi : i.wellFormed = true)
    (h : s.script = issueAction i :: rest) : step s = exec i (s.withScript rest) :=
  (step_wr_cmd h).trans (issue_of_command (decode_encode hi) _)

/-- DESCPUSH with room in the table and a range inside memory (R127). -/
theorem exec_descpush_of_room {s : State} (hr : s.ready) (hl : s.descs.length ≠ 256)
    (hin : s.a0.toNat + s.a1.toNat ≤ 2 ^ 32) (tag : Byte) :
    exec (.descpush tag) s = .next (succeed (s.withDescs (s.descs ++ [⟨s.a0, s.a1, tag⟩]))) := by
  have hroom : descCount s ≠ Config.descEntries := hl
  have hexec : exec (.descpush tag) s = execDescpush tag s := rfl
  rw [hexec, execDescpush, whenReady_of_ready hr, if_neg hroom, (passesTop_eq_false_iff _ _).2 hin]
  rfl

/-- Settles O45: two register writes, then the DESCPUSH they prepare. -/
theorem descPseudoInstructionAppends : Obligations.DescPseudoInstructionAppends := by
  intro d s rest hr hs hroom hin
  rw [run_succ_of_step (step_wr_of_ne_cmd hs (by decide)), run_succ_of_step (step_wr_of_ne_cmd rfl (by decide))]
  have push := exec_descpush_of_room (s := { s with script := rest, a0 := d.addr, a1 := d.len }) hr hroom.ne hin d.idx
  exact run_succ_of_step ((step_issueAction rfl rfl).trans push) 0

end Sys2Proof.Machine

/-! SUPPORT. Field arithmetic (R82 to R91): the second product procedure, the uniqueness of the inverse, the words and
outcomes of GFMUL, GFDIV and GFINV, and MULACC done twice. -/

namespace Sys2Proof.Machine

/-! ### The second product procedure (R82) -/

theorem ite_xor_ite {w : Nat} (a b : Bool) (c : BitVec w) :
    (if (a ^^ b) = true then c else 0#w) = (if a = true then c else 0#w) ^^^ (if b = true then c else 0#w) := by
  simpa only [BitVec.zero_xor] using ite_xor_const a b 0#w 0#w c

theorem xtime_xor (a b : Byte) : xtime (a ^^^ b) = xtime a ^^^ xtime b := by
  rw [xtime, BitVec.shiftLeft_xor_distrib, BitVec.getLsbD_xor, ite_xor_ite, xor_xor_xor_comm]
  rfl

theorem gfMulShiftXor_xor_left (a b c : Byte) :
    gfMulShiftXor (a ^^^ b) c = gfMulShiftXor a c ^^^ gfMulShiftXor b c := by
  refine foldl_xor (fun p q i => ?_) _ 0#8 0#8
  rw [xtime_xor, xor_xor_xor_comm]
  split
  · rfl
  · rw [BitVec.xor_self]

theorem gfMulShiftXor_xor_right (a b c : Byte) :
    gfMulShiftXor a (b ^^^ c) = gfMulShiftXor a b ^^^ gfMulShiftXor a c := by
  refine foldl_xor (fun p q i => ?_) _ 0#8 0#8
  rw [xtime_xor, BitVec.getLsbD_xor, ite_xor_ite, xor_xor_xor_comm]

/-- Settles O27: both procedures are linear in each operand, and agree on bytes with one bit set. -/
theorem bothProductProceduresAgree : Obligations.BothProductProceduresAgree := by
  intro a b
  refine additive_ext (f := fun a => gfMul a b) (g := fun a => gfMulShiftXor a b) (fun a a' => gfMul_xor_left a a' b)
    (fun a a' => gfMulShiftXor_xor_left a a' b) (fun i => ?_) a
  refine additive_ext (gfMul_xor_right _) (gfMulShiftXor_xor_right _) (fun j => ?_) b
  revert i j; decide +kernel

/-- Settles O28: each law has its own lemma. -/
theorem fieldProductLaws : Obligations.FieldProductLaws :=
  ⟨gfMul_comm, gfMul_zero, gfMul_one, fun _ => gfMul_gfInv, gfMul_assoc, gfMul_xor_right, fun _ _ => gfMul_eq_zero⟩

/-! ### The inverse is unique (R84) -/

theorem ne_zero_of_gfMul_eq_one {a b : Byte} (h : gfMul a b = 1#8) : a ≠ 0#8 := by
  rintro rfl
  rw [zero_gfMul] at h
  exact absurd h (by decide)

theorem gfInv_eq_of_gfMul_eq_one {a b : Byte} (h : gfMul a b = 1#8) : gfInv a = b := by
  have ha := ne_zero_of_gfMul_eq_one h
  calc gfInv a = gfMul (gfInv a) (gfMul a b) := by rw [h, gfMul_one]
    _ = b := by rw [← gfMul_assoc, gfInv_gfMul ha, one_gfMul]

theorem gfInv_gfInv {a : Byte} (h : a ≠ 0#8) : gfInv (gfInv a) = a := gfInv_eq_of_gfMul_eq_one (gfInv_gfMul h)

@[simp] theorem gfInv_one : gfInv 1#8 = 1#8 := gfInv_eq_of_gfMul_eq_one (gfMul_one 1#8)

/-- Settles O29: a second inverse is the first one times the product 1. -/
theorem inverseIsTheUniqueOne : Obligations.InverseIsTheUniqueOne :=
  fun _ ha => ⟨gfMul_gfInv ha, fun _ h => (gfInv_eq_of_gfMul_eq_one h).symm⟩

/-! ### MULACC twice, and past the top (R91) -/

theorem exec_mulacc_of_not_inRange {c : Byte} {s : State} (hr : s.ready) (h : ¬ mulaccInRange s) :
    exec (.mulacc c) s = .next (fail .shapeAddrRange s) := by
  have hpast : (passesTop s.a0 s.a2 || passesTop s.a1 s.a2) = true := by
    by_contra hin
    exact h ((mulacc_range_check_iff s).1 (if_neg hin))
  have hexec : exec (.mulacc c) s = execMulacc c s := rfl
  rw [hexec, execMulacc, whenReady_of_ready hr, if_pos hpast, afterChecks_some]

/-- Settles O35: a range past the top is not in range. -/
theorem mulaccRejectsRangesPastTheTop : Obligations.MulaccRejectsRangesPastTheTop := by
  intro c s hr hpast
  refine exec_mulacc_of_not_inRange hr fun hin => ?_
  obtain ⟨hdst, hsrc⟩ := hin
  omega

/-- The state after a MULACC that succeeds. -/
def mulaccResult (c : Byte) (s : State) : State :=
  succeed (s.withMem (Memory.storeBlock s.mem s.a0.toNat (mulaccByte c s) s.a2.toNat))

theorem exec_mulacc_of_err_zero {c : Byte} {s t : State} (hr : s.ready) (h : exec (.mulacc c) s = .next t)
    (he : t.err = 0x00#8) :
    mulaccInRange s ∧ dutyBroken s.platform (mulaccBuffers s) = none ∧ t = mulaccResult c s := by
  obtain ⟨u, hu, rfl⟩ := (exec_next h).succeeded_of_err_zero hr he
  cases hu with
  | mulacc _ _ hin hd => exact ⟨hin, hd, rfl⟩

@[simp] theorem mulaccResult_a0 (c : Byte) (s : State) : (mulaccResult c s).a0 = s.a0 := rfl

@[simp] theorem mulaccResult_a1 (c : Byte) (s : State) : (mulaccResult c s).a1 = s.a1 := rfl

@[simp] theorem mulaccResult_a2 (c : Byte) (s : State) : (mulaccResult c s).a2 = s.a2 := rfl

theorem read_mulaccResult (c : Byte) (s : State) (x : Nat) :
    Memory.read (mulaccResult c s).mem x =
      if s.a0.toNat ≤ x ∧ x < s.a0.toNat + s.a2.toNat then
        Memory.read s.mem x ^^^ gfMul (Memory.read s.mem (s.a1.toNat + (x - s.a0.toNat))) c
      else Memory.read s.mem x := read_mulacc c s x

/-- MULACC leaves its source as it was: the destination is apart from it. -/
theorem read_mulaccResult_source (c : Byte) {s : State} (h : s.mulaccDst.apart s.mulaccSrc) {i : Nat}
    (hi : i < s.a2.toNat) :
    Memory.read (mulaccResult c s).mem (s.a1.toNat + i) = Memory.read s.mem (s.a1.toNat + i) := by
  rw [read_mulaccResult]
  exact if_neg fun hdst => h _ ⟨hdst, Nat.le_add_right _ _, Nat.add_lt_add_left hi _⟩

/-- What is added to a destination byte the second time is what was added the first time. -/
theorem read_mulaccResult_twice (c : Byte) {s : State} (h : s.mulaccDst.apart s.mulaccSrc) (x : Nat) :
    Memory.read (mulaccResult c (mulaccResult c s)).mem x = Memory.read s.mem x := by
  rw [read_mulaccResult, mulaccResult_a0, mulaccResult_a1, mulaccResult_a2]
  by_cases hx : s.a0.toNat ≤ x ∧ x < s.a0.toNat + s.a2.toNat
  · rw [if_pos hx, read_mulaccResult_source c h (by omega), read_mulaccResult, if_pos hx, BitVec.xor_assoc,
      BitVec.xor_self, BitVec.xor_zero]
  · rw [if_neg hx, read_mulaccResult, if_neg hx]

/-- Settles O36: the second run finds the same registers, platform and source. -/
theorem mulaccTwiceRestoresMemory : Obligations.MulaccTwiceRestoresMemory := by
  intro c s t hr h he
  obtain ⟨hin, hd, rfl⟩ := exec_mulacc_of_err_zero hr h he
  refine ⟨fun hnone x => (read_mulaccResult c s x).trans ?_, mulaccResult c (mulaccResult c s),
    execMulacc_of_duties (s := mulaccResult c s) hr hin hd, rfl,
    read_mulaccResult_twice c ((mulacc_duties_iff s).1 hd).1⟩
  rcases hnone with rfl | h0
  · rw [gfMul_zero, BitVec.xor_zero, ite_self]
  · rw [h0, if_neg (by simp)]

/-! ### The words of GFMUL, GFDIV and GFINV -/

theorem toNat_append_eq_add {m n : Nat} (x : BitVec m) (y : BitVec n) :
    (x ++ y).toNat = 2 ^ n * x.toNat + y.toNat := by
  rw [BitVec.toNat_append, ← Nat.shiftLeft_add_eq_or_of_lt y.isLt, Nat.shiftLeft_eq, Nat.mul_comm]

theorem toNat_wordAB (op a b : Byte) : (wordAB op a b).toNat = 2 ^ 24 * op.toNat + 256 * a.toNat + b.toNat := by
  rw [wordAB, toNat_append_eq_add, toNat_append_eq_add, toNat_append_eq_add, BitVec.toNat_ofNat]
  omega

theorem toNat_wordA (op a : Byte) : (wordA op a).toNat = 2 ^ 24 * op.toNat + a.toNat := by
  rw [wordA, toNat_append_eq_add, toNat_append_eq_add, BitVec.toNat_ofNat]
  omega

/-- The decoder reads a well-formed command from the number of its word. -/
theorem decode_ofNat_of_toNat_encode {n : Nat} {i : Instr} (hi : i.wellFormed = true) (hn : (encode i).toNat = n) :
    decode (BitVec.ofNat 32 n) = .command i := by
  rw [← hn, BitVec.ofNat_toNat, BitVec.setWidth_eq, decode_encode hi]

/-! ### The outcomes of GFMUL, GFDIV and GFINV (R88 to R90) -/

section
variable {s : State} (hr : s.ready)
include hr

theorem exec_gfmul_of_ready (a b : Byte) : exec (.gfmul a b) s = .next (succeed (s.withRes (gfMul a b))) :=
  whenReady_of_ready hr _

theorem exec_gfdiv_of_ne_zero (a : Byte) {b : Byte} (hb : b ≠ 0#8) :
    exec (.gfdiv a b) s = .next (succeed (s.withRes (gfDiv a b))) :=
  (whenReady_of_ready hr _).trans (if_neg hb)

theorem exec_gfdiv_zero (a : Byte) : exec (.gfdiv a 0#8) s = .next (fail .zero s) :=
  (whenReady_of_ready hr _).trans (if_pos rfl)

theorem exec_gfinv_of_ne_zero {a : Byte} (ha : a ≠ 0#8) : exec (.gfinv a) s = .next (succeed (s.withRes (gfInv a))) :=
  (whenReady_of_ready hr _).trans (if_neg ha)

theorem exec_gfinv_zero : exec (.gfinv 0#8) s = .next (fail .zero s) := (whenReady_of_ready hr _).trans (if_pos rfl)

end

/-- Settles O31: the word is the encoding, and the corner cases are laws of the product. -/
theorem gfmulReturnsFieldProduct : Obligations.GfmulReturnsFieldProduct :=
  ⟨fun a b => decode_ofNat_of_toNat_encode rfl (toNat_wordAB 0x10#8 a b),
    fun a b s hr => exec_gfmul_of_ready hr a b,
    fun a => ⟨gfMul_zero a, zero_gfMul a, gfMul_one a, one_gfMul a⟩, by decide +kernel⟩

/-- Settles O32, by whether the divisor is 0; the corner cases are laws of the product and the inverse. -/
theorem gfdivReturnsQuotientOrFails : Obligations.GfdivReturnsQuotientOrFails :=
  ⟨fun a b => decode_ofNat_of_toNat_encode rfl (toNat_wordAB 0x11#8 a b),
    fun a b s hr => exec_gfdiv_of_ne_zero hr a, fun a s hr => exec_gfdiv_zero hr a,
    fun a ha => ⟨zero_gfMul _, gfMul_gfInv ha, one_gfMul _⟩, fun a => by rw [gfInv_one, gfMul_one],
    by decide +kernel⟩

/-- Settles O33, by whether the operand is 0; the values are inverses because each product is 1. -/
theorem gfinvReturnsInverseOrFails : Obligations.GfinvReturnsInverseOrFails :=
  ⟨fun a => decode_ofNat_of_toNat_encode rfl (toNat_wordA 0x12#8 a),
    fun a s hr => exec_gfinv_of_ne_zero hr, fun s hr => exec_gfinv_zero hr, fun a => gfInv_gfInv, gfInv_one,
    gfInv_eq_of_gfMul_eq_one (by decide +kernel), gfInv_eq_of_gfMul_eq_one (by decide +kernel),
    gfInv_eq_of_gfMul_eq_one (by decide +kernel), by decide +kernel⟩

end Sys2Proof.Machine

/-! SUPPORT. ERR is never INTERNAL (R147, R164): the one command that could raise it always finds an inverse (R114). -/

namespace Sys2Proof.Machine

theorem Failure.code_ne_internal (f : Failure) : f.code ≠ Fatality.internal.code := by
  cases f <;> simp [Failure.code, Fatality.code]

theorem invertMatrix_submatrix_ne_none {s : State} (h : s.DecodeLegal) :
    invertMatrix (submatrix s.origCount.toNat s.descs) ≠ none :=
  Option.ne_none_iff_exists'.2 (exists_invertMatrix_submatrix h)

/-- No command raises INTERNAL: a DECODE that reaches its elimination has passed its checks. -/
theorem CommandAnswer.err_ne_internal {i : Instr} {s t : State} (ht : CommandAnswer i s t) (h : s.err ≠ 0x03#8) :
    t.err ≠ 0x03#8 := by
  cases ht with
  | ignored hf => exact h
  | failed hf f => exact f.code_ne_internal
  | initFail hc hf hi => simp [Fatality.code]
  | internal hc hr hl hW => exact absurd hW (invertMatrix_submatrix_ne_none hl)
  | succeeded hf hu => simp

theorem rejectWord_err_ne_internal (f : Failure) {s : State} (h : s.err ≠ 0x03#8) : (rejectWord f s).err ≠ 0x03#8 := by
  unfold rejectWord
  split
  · exact h
  · exact f.code_ne_internal

theorem issue_err_ne_internal {w : Word} {s t : State} (ht : issue w s = .next t) (h : s.err ≠ 0x03#8) :
    t.err ≠ 0x03#8 := by
  obtain ⟨i, -, hx⟩ | ⟨-, rfl⟩ | ⟨-, rfl⟩ := issue_next ht
  · exact (exec_next hx).err_ne_internal h
  · exact rejectWord_err_ne_internal _ h
  · exact rejectWord_err_ne_internal _ h

theorem HostAnswer.err_ne_internal {s t : State} (ht : HostAnswer s t) (h : s.err ≠ 0x03#8) : t.err ≠ 0x03#8 := by
  cases ht with
  | command hx => exact issue_err_ne_internal hx h
  | written r v => rwa [writeReg_err]
  | observed v => exact h
  | stored addr v ho => exact h

/-- Settles O59, by what a step can be: idle, a reset, or another host action. -/
theorem everyStepKeepsErrFromInternal : Obligations.EveryStepKeepsErrFromInternal := by
  refine ⟨fun m as p => by simp [State.reset], fun s t h ht => ?_⟩
  obtain ⟨-, rfl⟩ | ⟨rest, -, rfl⟩ | ⟨rest, ht⟩ := step_next ht
  · exact h
  · simp [State.reset]
  · exact ht.err_ne_internal h

/-- Settles O54: of the answers of a command only the two fatal ones set FATAL, and DECODE gives neither. -/
theorem decodeIsNeverFatal : Obligations.DecodeIsNeverFatal := by
  intro s t hfatal h
  cases exec_next h with
  | ignored hf => simp [hfatal] at hf
  | failed hf f => exact ⟨hf, f.code_ne_internal⟩
  | initFail hc hf hi => cases hc
  | internal hc hr hl hW => exact absurd hW (invertMatrix_submatrix_ne_none hl)
  | succeeded hf hu => exact ⟨hu.fatal_eq.trans hf, by simp⟩

end Sys2Proof.Machine

/-! SUPPORT. The generator matrix and its commands (R110 to R119). -/

namespace Sys2Proof.Machine

/-! ### Parameters and entries (R111, R112, R114) -/

theorem colParam_ne_zero {c : Nat} (hc : c < 255) : colParam c ≠ 0#8 := by
  intro h
  have := byte_ofNat_inj (b := 0) (by omega) (by omega) h
  omega

/-- Settles O38: a parameter determines its index because the counts keep k + 1 + r within one turn of a byte. -/
theorem cauchyParametersMeetConstraints : Obligations.CauchyParametersMeetConstraints := by
  intro k m hk hk256 hm
  refine ⟨fun h1 c hc => colParam_ne_zero (by omega), fun c d hc hd => colParam_inj (by omega) (by omega),
    fun r q hr hq => rowParam_inj (by omega) (by omega), fun r c hr hc => ?_⟩
  have hne : rowParam k r ^^^ colParam c ≠ 0#8 := rowParam_xor_colParam_ne (by omega) hc
  exact ⟨fun h => hne (BitVec.xor_eq_zero_iff.2 h), hne⟩

theorem genEntry_ne_zero {k r c : Nat} (hr : k + r < 256) (hc : c < k) : genEntry k r c ≠ 0#8 :=
  gfInv_ne_zero (rowParam_xor_colParam_ne hr hc)

/-- Settles O39: an entry is the inverse of a byte that is not 0. -/
theorem generatorEntriesAreNonzeroInverses : Obligations.GeneratorEntriesAreNonzeroInverses := by
  intro k m r c hk hk256 hm hr hc
  have hsum : k + r < 256 := by omega
  exact ⟨genEntry_ne_zero hsum hc, gfMul_gfInv (rowParam_xor_colParam_ne hsum hc)⟩

/-- Settles O53: the Cauchy matrix has a trivial kernel, which is all the elimination needs. -/
theorem squareSubmatricesAreInvertible : Obligations.SquareSubmatricesAreInvertible := by
  intro k m rows cols hk hk256 hm hlen hrows hcols hr hc
  exact exists_invertMatrix_generator (by omega) hlen hrows hcols hr hc

/-! ### The configuration checks (R118, R119) -/

theorem countsFailure_of_orig {k m : Nat} (h : k < 1 ∨ k > 256) : countsFailure k m = some .configOrigCount := if_pos h

theorem countsFailure_of_sum {k m : Nat} (hmin : 1 ≤ k) (hmax : k ≤ 256) (h : m > 256 - k) :
    countsFailure k m = some .configSum := by
  have hk : ¬ (k < 1 ∨ k > Config.maxBlocks) := by
    rw [Config.maxBlocks]
    omega
  exact (if_neg hk).trans (if_pos h)

theorem paramsFailure_of_ne_zero {b k m : Nat} (h : b ≠ 0) : paramsFailure b k m = countsFailure k m := if_neg h

theorem encodeFailure_of_paramsFailure {b k m : Nat} {f : Failure} (h : paramsFailure b k m = some f)
    (ds : List Descriptor) : encodeFailure b k m ds = some f := by
  simp [encodeFailure, h]

theorem decodeFailure_of_paramsFailure {b k m : Nat} {f : Failure} (h : paramsFailure b k m = some f)
    (ds : List Descriptor) : decodeFailure b k m ds = some f := by
  simp [decodeFailure, h]

/-- The configuration check of a command, none for a command that has none. -/
def configFailure (i : Instr) (s : State) : Option Failure :=
  match i with
  | .buildgen => countsFailure s.origCount.toNat s.recovCount.toNat
  | .encode => paramsFailure s.blockBytes.toNat s.origCount.toNat s.recovCount.toNat
  | .decode => paramsFailure s.blockBytes.toNat s.origCount.toNat s.recovCount.toNat
  | _ => none

/-- The configuration is checked before anything else (R168). -/
theorem exec_of_configFailure {i : Instr} {s : State} {f : Failure} (hr : s.ready) (h : configFailure i s = some f) :
    exec i s = .next (fail f s) := by
  cases i with
  | buildgen =>
    refine (whenReady_of_ready hr _).trans ?_
    rw [show countsFailure _ _ = some f from h, afterChecks_some]
  | encode =>
    refine (whenReady_of_ready hr _).trans ?_
    rw [encodeFailure_of_paramsFailure h, afterChecks_some]
  | decode =>
    refine (whenReady_of_ready hr _).trans ?_
    rw [decodeFailure_of_paramsFailure h, afterChecks_some]
  | _ => cases h

theorem lengthFailure_code {b : Nat} {ds : List Descriptor} {f : Failure} (h : lengthFailure b ds = some f) :
    f.code = 0x02#8 := by
  obtain ⟨-, ⟨d, p⟩, -, -, hf, -⟩ := List.findSome?_eq_some_iff.1 h
  dsimp only at hf
  split at hf
  · exact Option.some.inj hf ▸ rfl
  · cases hf

theorem slotFailure_code {b k m : Nat} {ds : List Descriptor} {d : Descriptor} {p : Nat} {f : Failure}
    (h : slotFailure b k m ds d p = some f) : f.code = 0x02#8 := by
  unfold slotFailure at h
  repeat' split at h
  all_goals cases h
  all_goals rfl

/-- What ENCODE reports when its configuration is legal is a shape failure. -/
theorem encodeFailure_code_of_params {b k m : Nat} {ds : List Descriptor} {f : Failure}
    (hp : paramsFailure b k m = none) (h : encodeFailure b k m ds = some f) : f.code = 0x02#8 := by
  simp only [encodeFailure, hp] at h
  split at h
  · exact Option.some.inj h ▸ rfl
  · exact lengthFailure_code h

/-- What DECODE reports when its configuration is legal is a shape failure. -/
theorem decodeFailure_code_of_params {b k m : Nat} {ds : List Descriptor} {f : Failure}
    (hp : paramsFailure b k m = none) (h : decodeFailure b k m ds = some f) : f.code = 0x02#8 := by
  simp only [decodeFailure, hp] at h
  split at h
  · exact Option.some.inj h ▸ rfl
  · obtain ⟨-, ⟨d, p⟩, -, -, hf, -⟩ := List.findSome?_eq_some_iff.1 h
    exact slotFailure_code hf

theorem NotRun.not_ready {s t : State} (h : NotRun s t) : ¬ s.ready := by
  rintro ⟨hfatal, hinit⟩
  obtain ⟨hf, -⟩ | ⟨-, hi, -⟩ := h
  · simp [hfatal] at hf
  · simp [hinit] at hi

/-- A command whose configuration is legal does not answer CONFIG. -/
theorem err_ne_config_of_configFailure_none {i : Instr} {s t : State} (hi : i = .buildgen ∨ i = .encode ∨ i = .decode)
    (hr : s.ready) (hc : configFailure i s = none) (h : exec i s = .next t) : t.err ≠ 0x01#8 := by
  rcases hi with rfl | rfl | rfl
  · obtain h | ⟨-, f, hf, rfl⟩ | ⟨-, -, rfl⟩ := execBuildgen_next h
    · exact absurd hr h.not_ready
    · cases hc.symm.trans hf
    · simp
  · obtain h | ⟨-, f, hf, rfl⟩ | ⟨-, -, -, rfl⟩ := execEncode_next h
    · exact absurd hr h.not_ready
    · simp [encodeFailure_code_of_params hc hf]
    · simp
  · obtain h | ⟨-, f, hf, rfl⟩ | ⟨-, -, -, rfl⟩ | ⟨-, -, -, W, -, rfl⟩ := execDecode_next h
    · exact absurd hr h.not_ready
    · simp [decodeFailure_code_of_params hc hf]
    · simp [Fatality.code]
    · simp [decodeResult]

/-- Where BLOCK_BYTES is not in question the configuration check is the check of the counts. -/
theorem configFailure_eq_countsFailure {i : Instr} {s : State}
    (hi : i = .buildgen ∨ ((i = .encode ∨ i = .decode) ∧ s.blockBytes ≠ 0#32)) :
    configFailure i s = countsFailure s.origCount.toNat s.recovCount.toNat := by
  rcases hi with rfl | ⟨rfl | rfl, hb⟩
  · rfl
  · exact paramsFailure_of_ne_zero fun e => hb (BitVec.eq_of_toNat_eq e)
  · exact paramsFailure_of_ne_zero fun e => hb (BitVec.eq_of_toNat_eq e)

/-- Settles O40: each command reports what its configuration check finds. -/
theorem configurationIsCheckedInOrder : Obligations.ConfigurationIsCheckedInOrder := by
  refine fun s hr => ⟨fun i hi hb => ?_, fun i hi => ?_⟩
  · refine exec_of_configFailure hr (f := .configBlockBytes) ?_
    have hb : s.blockBytes.toNat = 0 := by rw [hb]; rfl
    rcases hi with rfl | rfl
    · exact if_pos hb
    · exact if_pos hb
  · have hc := configFailure_eq_countsFailure hi
    refine ⟨fun h => exec_of_configFailure hr (hc.trans (countsFailure_of_orig h)),
      fun hmin hmax h => exec_of_configFailure hr (hc.trans (countsFailure_of_sum hmin hmax h)), fun hl t h => ?_⟩
    exact err_ne_config_of_configFailure_none (hi.imp_right And.left) hr (hc.trans (s.countsLegal_iff.1 hl)) h

/-! ### BUILDGEN and GENRD (R115, R116) -/

theorem exec_buildgen_of_legal {s : State} (hr : s.ready) (hc : s.CountsLegal) :
    exec .buildgen s = .next (succeed (s.withGenerator s.origCount s.recovCount)) := by
  refine (whenReady_of_ready hr _).trans ?_
  rw [s.countsLegal_iff.1 hc, afterChecks_none]

/-- Settles O41: nine bits hold the legal counts. -/
theorem buildgenCachesThePair : Obligations.BuildgenCachesThePair := by
  intro s hr hc
  obtain ⟨hk, hm⟩ := hc.toNat_setWidth
  exact ⟨_, exec_buildgen_of_legal hr hc, hk, hm, rfl⟩

section
variable {s : State} (hr : s.ready) {row col : Nat}
include hr

theorem exec_genrd_outside (h : s.genValid = false ∨ row ≥ s.genM.toNat ∨ col ≥ s.genK.toNat) :
    exec (.genrd row col) s = .next (fail .shapeGenRange s) :=
  (whenReady_of_ready hr _).trans (if_pos h)

theorem exec_genrd_inside (hg : s.genValid = true) (hrow : row < s.genM.toNat) (hcol : col < s.genK.toNat) :
    exec (.genrd row col) s = .next (succeed (s.withRes (genEntry s.genK.toNat row col))) := by
  refine (whenReady_of_ready hr _).trans (if_neg ?_)
  simp [hg, hrow, hcol]

end

theorem decode_genrd_word (r c : Byte) :
    decode (BitVec.ofNat 32 (0x21000000 + 256 * r.toNat + c.toNat)) = .command (.genrd r.toNat c.toNat) := by
  refine decode_ofNat_of_toNat_encode (by simpa [Instr.wellFormed] using ⟨r.isLt, c.isLt⟩) ?_
  rw [encode, BitVec.ofNat_toNat, BitVec.ofNat_toNat]
  exact toNat_wordAB 0x21#8 r c

/-- Settles O42, by whether the entry lies in the cached matrix; the invariants bound its dimensions. -/
theorem genrdReturnsCachedEntryOrFails : Obligations.GenrdReturnsCachedEntryOrFails := by
  refine ⟨decode_genrd_word, fun r c s hr => ⟨exec_genrd_outside hr, fun hg hrow hcol => ?_⟩⟩
  refine ⟨exec_genrd_inside hr hg hrow hcol, fun hinv => genEntry_ne_zero ?_ hcol⟩
  obtain ⟨-, -, hmax, hsum⟩ := hinv.genValid_dims hg
  omega

end Sys2Proof.Machine

/-! SUPPORT. What the elimination of R152 solves: a round keeps the solutions of the linear system, so the matrix it ends
with turns a right-hand side into the solution (R147, R149). -/

namespace Sys2Proof.Machine

/-! ### Sums -/

theorem xorSum_map_eq_zero {α : Type} {l : List α} {f : α → Byte} (h : ∀ x ∈ l, f x = 0#8) :
    xorSum (l.map f) = 0#8 := by
  induction l with
  | nil => rfl
  | cons x l ih =>
    rw [List.map_cons, xorSum_cons, h x List.mem_cons_self, ih fun y hy => h y (List.mem_cons_of_mem x hy),
      BitVec.xor_zero]

theorem map_eq_map_range {α β : Type} {l : List α} {f : α → β} {g : Nat → β}
    (h : ∀ (i : Nat) (hi : i < l.length), f l[i] = g i) : l.map f = (List.range l.length).map g :=
  List.ext_getElem (by simp) fun i hi _ => by
    rw [List.length_map] at hi
    simpa using h i hi

/-- A row of the unit matrix times a vector. -/
theorem xorSum_unit_gfMul {t r : Nat} (hr : r < t) {e : Nat → Byte} (he : ∀ j < t, e j = if j = r then 1#8 else 0#8)
    (v : Nat → Byte) : xorSum ((List.range t).map fun j => gfMul (e j) (v j)) = v r := by
  have hterm : ∀ j ∈ List.range t, gfMul (e j) (v j) = if j = r then v r else 0#8 := by
    intro j hj
    rw [he j (List.mem_range.1 hj)]
    by_cases hjr : j = r
    · rw [if_pos hjr, if_pos hjr, one_gfMul, hjr]
    · rw [if_neg hjr, if_neg hjr, zero_gfMul]
  rw [List.map_congr_left hterm, xorSum_range_ite, if_pos hr]

/-! ### Rows times a vector -/

theorem rowDot_eq_zero_of_vector {t : Nat} (A : GfMatrix) (r : Nat) {v : Nat → Byte} (h : ∀ j < t, v j = 0#8) :
    rowDot t A r v = 0#8 :=
  xorSum_map_eq_zero fun j hj => by rw [h j (List.mem_range.1 hj), gfMul_zero]

theorem rowDot_of_length_le (t : Nat) {A : GfMatrix} {r : Nat} (h : A.length ≤ r) (v : Nat → Byte) :
    rowDot t A r v = 0#8 :=
  xorSum_map_eq_zero fun j _ => by rw [entry_of_length_le h, zero_gfMul]

/-- Row `r` of a matrix that starts with the unit matrix takes its part of the vector out. -/
theorem rowDot_of_unitBefore {t : Nat} {A : GfMatrix} (hu : UnitBefore t A) {r : Nat} (hr : r < t) (v : Nat → Byte) :
    rowDot t A r v = v r :=
  xorSum_unit_gfMul hr (fun j hj => (hu r j hj).trans (if_congr eq_comm rfl rfl)) v

/-- The vector `x` of length `t` with `y` after it. -/
def joined (t : Nat) (x y : Nat → Byte) (j : Nat) : Byte := if j < t then x j else y (j - t)

theorem rowDot_joined (t u : Nat) (A : GfMatrix) (r : Nat) (x y : Nat → Byte) :
    rowDot (t + u) A r (joined t x y) =
      rowDot t A r x ^^^ xorSum ((List.range u).map fun l => gfMul (entry A r (t + l)) (y l)) := by
  rw [rowDot, List.range_add, List.map_append, xorSum_append, List.map_map]
  congr 2
  · refine List.map_congr_left fun j hj => ?_
    rw [joined, if_pos (List.mem_range.1 hj)]
  · refine List.map_congr_left fun l _ => ?_
    simp [joined]

/-! ### The elimination -/

theorem Round.rowDot_eq_zero {A B : GfMatrix} {c q t : Nat} (h : Round A B c q) {v : Nat → Byte}
    (hv : ∀ r, rowDot t B r v = 0#8) (r : Nat) : rowDot t A r v = 0#8 := by
  by_cases hz : ∃ j < t, v j ≠ 0#8
  · exact (h.inKernel ⟨hz, hv⟩).rows r
  · push Not at hz
    exact rowDot_eq_zero_of_vector A r hz

/-- What the rounds for the first `t` columns make of `A`, whose rows have `n` entries. -/
structure Eliminated (n t : Nat) (A B : GfMatrix) : Prop where
  width : HasWidth n B
  length : B.length = A.length
  unit : UnitBefore t B
  solves : ∀ v, (∀ r, rowDot n B r v = 0#8) → ∀ r, rowDot n A r v = 0#8

theorem eliminateColumns_some {n t : Nat} {A B : GfMatrix} {c m : Nat} (hn : HasWidth n A) (ht : c + m = t)
    (hl : A.length = t) (hu : UnitBefore c A) (h : eliminateColumns A (List.range' c m) = some B) :
    Eliminated n t A B := by
  induction m generalizing A c with
  | zero =>
    obtain rfl : A = B := Option.some.inj h
    obtain rfl : c = t := ht
    exact ⟨hn, rfl, hu, fun _ => id⟩
  | succ m ih =>
    rw [List.range'_succ, eliminateColumns] at h
    split at h
    · cases h
    · next C hC =>
      have hc : c < A.length := by omega
      obtain ⟨q, hp, rfl⟩ := eliminateColumn_some hc hC
      have hround := round_roundResult hn hc hp
      have hlen := length_roundResult A c q
      obtain ⟨hwidth, hlength, hunit, hsolves⟩ :=
        ih (hn.roundResult hc (findPivot_some hp).1) (by omega) (hlen.trans hl) (hround.unitBefore_succ hu) h
      exact ⟨hwidth, hlength.trans hlen, hunit, fun v hv => hround.rowDot_eq_zero (hsolves v hv)⟩

/-- Behind `M` the augmented matrix holds the unit matrix. -/
theorem entry_augment_add {M : GfMatrix} (h : HasWidth M.length M) {r l : Nat} (hr : r < M.length)
    (hl : l < M.length) : entry (augment M) r (M.length + l) = if l = r then 1#8 else 0#8 := by
  have hrow : (augment M).getD r [] = M[r] ++ identityRow M.length r := by simp [augment, hr]
  have hlen : M[r].length = M.length := h _ (List.getElem_mem hr)
  rw [entry, hrow, List.getD_append_right _ _ _ _ (by omega), hlen, Nat.add_sub_cancel_left]
  simp [identityRow, hl]

theorem entry_map_drop (A : GfMatrix) (t r l : Nat) : entry (A.map (·.drop t)) r l = entry A r (t + l) := by
  have hrow : (A.map (·.drop t)).getD r [] = (A.getD r []).drop t := by
    simpa using List.getD_map (l := A) (n := r) (d := []) (List.drop t)
  rw [entry, hrow, entry]
  simp [List.getD_eq_getElem?_getD]

section
variable {M W : GfMatrix} (hM : HasWidth M.length M) (hW : invertMatrix M = some W)
include hM hW

theorem exists_eliminated_of_invertMatrix :
    ∃ B, Eliminated (M.length + M.length) M.length (augment M) B ∧ W = B.map (·.drop M.length) := by
  unfold invertMatrix at hW
  split at hW
  · cases hW
  · next B hB =>
    rw [List.range_eq_range'] at hB
    exact ⟨B, eliminateColumns_some hM.augment (Nat.zero_add _) (length_augment M)
      (fun r j hj => absurd hj j.not_lt_zero) hB, (Option.some.inj hW).symm⟩

theorem length_of_invertMatrix : W.length = M.length := by
  obtain ⟨B, hB, rfl⟩ := exists_eliminated_of_invertMatrix hM hW
  rw [List.length_map, hB.length, length_augment]

theorem hasWidth_of_invertMatrix : HasWidth M.length W := by
  obtain ⟨B, hB, rfl⟩ := exists_eliminated_of_invertMatrix hM hW
  refine List.forall_mem_map.2 fun row hrow => ?_
  rw [List.length_drop, hB.width row hrow, Nat.add_sub_cancel]

/-- The inverse solves the system: `M` times (`W` times `y`) is `y` (R149). The vector (`W y`, `y`) is sent to 0 by the
matrix `[I | W]` the rounds end with, so also by the matrix `[M | I]` they begin with. -/
theorem rowDot_rowDot_invertMatrix (y : Nat → Byte) {r : Nat} (hr : r < M.length) :
    rowDot M.length M r (fun i => rowDot M.length W i y) = y r := by
  obtain ⟨B, hB, rfl⟩ := exists_eliminated_of_invertMatrix hM hW
  generalize hx : (fun i => rowDot M.length (B.map (·.drop M.length)) i y) = x
  have last : ∀ r, rowDot (M.length + M.length) B r (joined M.length x y) = 0#8 := by
    intro r
    by_cases hr : r < M.length
    · have hW : xorSum ((List.range M.length).map fun l => gfMul (entry B r (M.length + l)) (y l)) = x r := by
        rw [← hx]
        simp only [rowDot, entry_map_drop]
      rw [rowDot_joined, rowDot_of_unitBefore hB.unit hr, hW, BitVec.xor_self]
    · exact rowDot_of_length_le _ (by rw [hB.length, length_augment]; omega) _
  have first := hB.solves _ last r
  have hM' : rowDot M.length (augment M) r x = rowDot M.length M r x :=
    congrArg xorSum (List.map_congr_left fun j hj => by rw [entry_augment hM r (List.mem_range.1 hj)])
  have hI : xorSum ((List.range M.length).map fun l => gfMul (entry (augment M) r (M.length + l)) (y l)) = y r :=
    xorSum_unit_gfMul hr (fun l hl => entry_augment_add hM hr hl) y
  rw [rowDot_joined, hM', hI] at first
  exact BitVec.xor_eq_zero_iff.1 first

end

end Sys2Proof.Machine

/-! SUPPORT. What DECODE leaves in the slots (R148 to R151): the stored blocks read back, and the system they solve. -/

namespace Sys2Proof.Machine

/-! ### The slots of a table -/

theorem State.slotTag_of_getElem? {s : State} {p : Nat} {d : Descriptor} (h : s.descs[p]? = some d) :
    s.slotTag p = d.idx.toNat := by
  rw [State.slotTag, h]

/-- A sum over the positions, slot by slot: the correct slots and the erased ones (R142, R145). -/
theorem xorSum_range_eq_slots (k : Nat) (ds : List Descriptor) (f : Nat → Byte) :
    xorSum ((List.range ds.length).map f) =
      xorSum ((correctSlots k ds).map fun x => f x.2) ^^^ xorSum ((erasedSlots k ds).map fun x => f x.2) := by
  have hpos : List.range ds.length = ds.zipIdx.map Prod.snd := by rw [List.zipIdx_map_snd, List.range_eq_range']
  have herased : erasedSlots k ds = ds.zipIdx.filter fun x => !decide (x.1.idx.toNat < k) := by
    refine List.filter_congr fun x _ => ?_
    simp only [← decide_not, Nat.not_lt]
  rw [hpos, List.map_map, ← xorSum_append, ← List.map_append, herased]
  exact xorSum_perm ((List.filter_append_perm _ _).symm.map _)

/-! ### The solution (R148, R149) -/

theorem rightHandSide_eq_xor (m : Memory) (k : Nat) (ds : List Descriptor) (d : Descriptor) (b : Nat) :
    rightHandSide m k ds d b = bufferByte m d b ^^^
      xorSum ((correctSlots k ds).map fun x => gfMul (genEntry k (supplyRow k d) x.2) (bufferByte m x.1 b)) := rfl

/-- The right-hand sides at offset `b`, numbered as the erased slots are. -/
def rightHandSides (m : Memory) (k : Nat) (ds : List Descriptor) (b l : Nat) : Byte :=
  ((erasedSlots k ds).map fun x => rightHandSide m k ds x.1 b).getD l 0#8

theorem solvedByte_eq_rowDot {k : Nat} {ds : List Descriptor} {W : GfMatrix}
    (hW : HasWidth (erasedSlots k ds).length W) (m : Memory) (b : Nat) {n : Nat} (hn : n < W.length) :
    solvedByte m k ds W[n] b = rowDot (erasedSlots k ds).length W n (rightHandSides m k ds b) := by
  have hlen : W[n].length = (erasedSlots k ds).length := hW _ (List.getElem_mem hn)
  rw [solvedByte, rowDot]
  congr 1
  refine List.ext_getElem (by simp [hlen]) fun l hl hl' => ?_
  have hl' : l < (erasedSlots k ds).length := by simpa using hl'
  simp [entry, rightHandSides, hn, hlen, hl']

theorem hasWidth_submatrix (k : Nat) (ds : List Descriptor) : HasWidth (submatrix k ds).length (submatrix k ds) :=
  length_of_mem_submatrix k ds

theorem entry_submatrix (k : Nat) (ds : List Descriptor) {j i : Nat} (hj : j < (erasedSlots k ds).length)
    (hi : i < (erasedSlots k ds).length) :
    entry (submatrix k ds) j i = genEntry k (supplyRow k (erasedSlots k ds)[j].1) (erasedSlots k ds)[i].2 := by
  rw [submatrix_eq_generator, entry_generator k (by simpa using hj) (by simpa using hi), List.getElem_map,
    List.getElem_map]

/-- The solved bytes give every right-hand side back (R149). -/
theorem xorSum_genEntry_solvedByte {k : Nat} {ds : List Descriptor} {W : GfMatrix}
    (hW : invertMatrix (submatrix k ds) = some W) (m : Memory) (b : Nat) {d : Descriptor} {p : Nat}
    (hd : (d, p) ∈ erasedSlots k ds) {x : Nat → Byte}
    (hx : ∀ (i : Nat) (hi : i < (erasedSlots k ds).length) (hi' : i < W.length),
      x (erasedSlots k ds)[i].2 = solvedByte m k ds W[i] b) :
    xorSum ((erasedSlots k ds).map fun e => gfMul (genEntry k (supplyRow k d) e.2) (x e.2)) =
      rightHandSide m k ds d b := by
  obtain ⟨j, hj, hjd⟩ := List.getElem_of_mem hd
  have hlen := length_of_invertMatrix (hasWidth_submatrix k ds) hW
  have hwidth := hasWidth_of_invertMatrix (hasWidth_submatrix k ds) hW
  have hsolve := rowDot_rowDot_invertMatrix (hasWidth_submatrix k ds) hW (rightHandSides m k ds b) (r := j)
  rw [length_submatrix] at hlen hwidth hsolve
  have hrhs : rightHandSides m k ds b j = rightHandSide m k ds d b := by simp [rightHandSides, hj, hjd]
  refine Eq.trans (congrArg xorSum (map_eq_map_range fun i hi => ?_)) ((hsolve hj).trans hrhs)
  rw [entry_submatrix k ds hj hi, hjd, hx i hi (hlen ▸ hi), solvedByte_eq_rowDot hwidth]

/-! ### The memory DECODE leaves -/

section
variable {s : State} (hl : s.DecodeLegal) (hd : s.DecodeDuties)
include hl hd

/-- The buffer of an erased slot meets no other slot's buffer. -/
theorem erased_buffer_apart {p q : Nat} {d e : Descriptor} (hp : s.descs[p]? = some d) (hq : s.descs[q]? = some e)
    (he : s.erased d) (hpq : p ≠ q) :
    d.addr.toNat + s.blockBytes.toNat ≤ e.addr.toNat ∨ e.addr.toNat + s.blockBytes.toNat ≤ d.addr.toNat := by
  have hn : s.blockBytes.toNat ≠ 0 := fun h0 => hl.block (BitVec.eq_of_toNat_eq h0)
  have hap := hd.disjoint p q d e hp hq he hpq
  rw [Descriptor.range, Descriptor.range, (hl.slots p d hp).length, (hl.slots q e hq).length] at hap
  exact Range.le_or_le_of_apart hn hap

theorem decodeStores_apart (W : GfMatrix) :
    (decodeStores s.mem s.origCount.toNat s.descs W).Pairwise fun b c =>
      b.1 + s.blockBytes.toNat ≤ c.1 ∨ c.1 + s.blockBytes.toNat ≤ b.1 := by
  rw [decodeStores, List.pairwise_iff_getElem]
  intro i j hi hj hij
  rw [List.length_zipWith] at hi hj
  have hslot := fun (i : Nat) (hi : i < (erasedSlots s.origCount.toNat s.descs).length) =>
    (mem_erasedSlots _ _ _ _).1 (List.getElem_mem hi)
  obtain ⟨hp, he⟩ := hslot i (by omega)
  obtain ⟨hq, -⟩ := hslot j (by omega)
  simp only [List.getElem_zipWith]
  refine erased_buffer_apart hl hd hp hq he fun hpos => ?_
  have hinj := (erasedSlots_positions_nodup s.origCount.toNat s.descs).getElem_inj_iff
    (i := i) (j := j) (hi := by simp; omega) (hj := by simp; omega)
  rw [List.getElem_map, List.getElem_map] at hinj
  exact absurd (hinj.1 hpos) (by omega)

/-- The buffer of erased slot number `i` holds the solution of row `i` (R149). -/
theorem bufferByte_decodeMemory_erased {W : GfMatrix} {i b : Nat}
    (hi : i < (erasedSlots s.origCount.toNat s.descs).length) (hi' : i < W.length) (hb : b < s.blockBytes.toNat) :
    bufferByte (decodeMemory s W) (erasedSlots s.origCount.toNat s.descs)[i].1 b =
      solvedByte s.mem s.origCount.toNat s.descs W[i] b := by
  have hmem : (((erasedSlots s.origCount.toNat s.descs)[i].1.addr.toNat,
      solvedByte s.mem s.origCount.toNat s.descs W[i]) : Nat × (Nat → Byte)) ∈
      decodeStores s.mem s.origCount.toNat s.descs W := by
    refine List.mem_iff_getElem.2 ⟨i, by simp [decodeStores, hi, hi'], ?_⟩
    simp [decodeStores]
  exact Memory.read_storeBlocks_inside _ _ _ (decodeStores_apart hl hd W) _ hmem b hb

/-- DECODE stores nothing into a correct slot (R145). -/
theorem bufferByte_decodeMemory_correct (W : GfMatrix) {p b : Nat} {d : Descriptor} (hp : s.descs[p]? = some d)
    (hc : d.idx.toNat < s.origCount.toNat) (hb : b < s.blockBytes.toNat) :
    bufferByte (decodeMemory s W) d b = bufferByte s.mem d b := by
  refine Memory.read_storeBlocks_outside _ _ _ _ fun c hcs => ?_
  obtain ⟨q, e, w, hq, hk, -, rfl⟩ := exists_erased_of_mem_decodeStores hcs
  have hqp : q ≠ p := by
    rintro rfl
    rw [hp] at hq
    cases hq
    omega
  have := erased_buffer_apart hl hd hq hp hk hqp
  dsimp only
  omega

end

/-! ### The state DECODE leaves -/

theorem slotByte_decodeResult (s : State) (W : GfMatrix) {p : Nat} {d : Descriptor} (h : s.descs[p]? = some d) (b : Nat) :
    (decodeResult s W).slotByte p b = bufferByte (decodeMemory s W) d b := by
  have hget : (decodeResult s W).descs[p]? =
      some (if s.origCount.toNat ≤ d.idx.toNat then { d with idx := BitVec.ofNat 8 p } else d) := by
    refine (getElem?_retagged _ _ _).trans ?_
    rw [h, Option.map_some]
  rw [State.slotByte_of_getElem? hget]
  split <;> rfl

/-- After DECODE every tag is its position: a correct slot's tag was that before (R142, R151). -/
theorem getElem?_descs_decodeResult {s : State} (hl : s.DecodeLegal) (W : GfMatrix) {p : Nat} {d : Descriptor}
    (h : s.descs[p]? = some d) : (decodeResult s W).descs[p]? = some { d with idx := BitVec.ofNat 8 p } := by
  refine (getElem?_retagged _ _ _).trans ?_
  rw [h, Option.map_some]
  split
  · rfl
  · next hk =>
    rw [← (hl.slots p d h).placed (Nat.lt_of_not_le hk), BitVec.ofNat_toNat, BitVec.setWidth_eq]

section
variable {s : State} (hl : s.DecodeLegal) (hd : s.DecodeDuties)
include hl hd

theorem slotByte_decodeResult_correct (W : GfMatrix) {p b : Nat} {d : Descriptor} (hp : s.descs[p]? = some d)
    (hc : d.idx.toNat < s.origCount.toNat) (hb : b < s.blockBytes.toNat) :
    (decodeResult s W).slotByte p b = s.slotByte p b := by
  rw [slotByte_decodeResult s W hp, bufferByte_decodeMemory_correct hl hd W hp hc hb, State.slotByte_of_getElem? hp]

/-- Row ρ of the generator over all slots gives back what the erased slot held (R148, R149): the correct slots give the
part of the right-hand side that was added to it, the erased ones the right-hand side. -/
theorem slotByte_eq_xorSum_decodeResult {W : GfMatrix}
    (hW : invertMatrix (submatrix s.origCount.toNat s.descs) = some W) {p b : Nat} {d : Descriptor}
    (hp : s.descs[p]? = some d) (he : s.origCount.toNat ≤ d.idx.toNat) (hb : b < s.blockBytes.toNat) :
    s.slotByte p b = xorSum ((List.range s.origCount.toNat).map fun c =>
      gfMul (genEntry s.origCount.toNat (supplyRow s.origCount.toNat d) c) ((decodeResult s W).slotByte c b)) := by
  have herased : xorSum ((erasedSlots s.origCount.toNat s.descs).map fun e =>
      gfMul (genEntry s.origCount.toNat (supplyRow s.origCount.toNat d) e.2) ((decodeResult s W).slotByte e.2 b)) =
        rightHandSide s.mem s.origCount.toNat s.descs d b := by
    refine xorSum_genEntry_solvedByte hW s.mem b ((mem_erasedSlots _ _ _ _).2 ⟨hp, he⟩)
      (x := fun c => (decodeResult s W).slotByte c b) fun i hi hi' => ?_
    have hslot := ((mem_erasedSlots _ _ _ _).1 (List.getElem_mem hi)).1
    exact (slotByte_decodeResult s W hslot b).trans (bufferByte_decodeMemory_erased hl hd hi hi' hb)
  have hcorrect : ((correctSlots s.origCount.toNat s.descs).map fun e =>
      gfMul (genEntry s.origCount.toNat (supplyRow s.origCount.toNat d) e.2) ((decodeResult s W).slotByte e.2 b)) =
        (correctSlots s.origCount.toNat s.descs).map fun e =>
          gfMul (genEntry s.origCount.toNat (supplyRow s.origCount.toNat d) e.2) (bufferByte s.mem e.1 b) := by
    refine List.map_congr_left fun ⟨e, c⟩ hec => ?_
    obtain ⟨hc, hk⟩ := (mem_correctSlots _ _ _ _).1 hec
    rw [slotByte_decodeResult_correct hl hd W hc hk hb, State.slotByte_of_getElem? hc]
  have hsplit := xorSum_range_eq_slots s.origCount.toNat s.descs fun c =>
    gfMul (genEntry s.origCount.toNat (supplyRow s.origCount.toNat d) c) ((decodeResult s W).slotByte c b)
  rw [hl.count] at hsplit
  rw [hsplit, herased, hcorrect, rightHandSide_eq_xor, State.slotByte_of_getElem? hp, BitVec.xor_comm, BitVec.xor_assoc,
    BitVec.xor_self, BitVec.xor_zero]

end

/-- Settles O55: the submatrix has an inverse (R114), which solves the system. -/
theorem decodeSolvesForErasedBlocks : Obligations.DecodeSolvesForErasedBlocks := by
  intro s hr hl hd
  obtain ⟨W, hW⟩ := exists_invertMatrix_submatrix hl
  obtain ⟨hk, hm⟩ := hl.counts.toNat_setWidth
  have effect : Effect s .decode _ := .decode W hr.2 hl hd hW
  have hslot : ∀ p < s.origCount.toNat, ∃ d, s.descs[p]? = some d := fun p hp =>
    ⟨_, List.getElem?_eq_getElem (hl.count ▸ hp)⟩
  refine ⟨_, execDecode_of_legal hr hl hW hd, rfl, hk, hm, length_retagged _ _,
    fun p d => getElem?_descs_decodeResult hl W, fun p b hp hb ht => ?_, fun p b hp hb ht => ?_,
    fun x => effect.read_outside⟩
  · obtain ⟨d, hpd⟩ := hslot p hp
    rw [State.slotTag_of_getElem? hpd] at ht ⊢
    exact slotByte_eq_xorSum_decodeResult hl hd hW hpd ht hb
  · obtain ⟨d, hpd⟩ := hslot p hp
    rw [State.slotTag_of_getElem? hpd] at ht
    exact slotByte_decodeResult_correct hl hd W hpd ht hb

end Sys2Proof.Machine

/-! SUPPORT. The descriptor table and the shape checks of ENCODE (R126 to R128). -/

namespace Sys2Proof.Machine

/-! ### DESCCLR and DESCPUSH (R126, R127) -/

theorem exec_descclr_of_ready {s : State} (hr : s.ready) : exec .descclr s = .next (succeed (s.withDescs [])) :=
  whenReady_of_ready hr _

/-- Settles O43: DESCCLR has no check of its own. -/
theorem descclrEmptiesTheTable : Obligations.DescclrEmptiesTheTable :=
  ⟨decode_encode (i := .descclr) rfl, fun _ => exec_descclr_of_ready⟩

theorem passesTop_eq_true {a n : Word} (h : a.toNat + n.toNat > 2 ^ 32) : passesTop a n = true := decide_eq_true h

section
variable {s : State} (hr : s.ready) (tag : Byte)
include hr

/-- FULL is checked first, whatever the range (R127). -/
theorem exec_descpush_full (hfull : s.descs.length = 256) :
    exec (.descpush tag) s = .next (fail .shapeFull s) := by
  have hcount : descCount s = Config.descEntries := hfull
  refine (whenReady_of_ready hr _).trans ?_
  rw [if_pos hcount, afterChecks_some]

theorem exec_descpush_past_top (hroom : s.descs.length ≠ 256) (htop : s.a0.toNat + s.a1.toNat > 2 ^ 32) :
    exec (.descpush tag) s = .next (fail .shapeAddrRange s) := by
  have hcount : descCount s ≠ Config.descEntries := hroom
  refine (whenReady_of_ready hr _).trans ?_
  rw [if_neg hcount, if_pos (passesTop_eq_true htop), afterChecks_some]

end

/-- Settles O44, by whether the table is full and then by whether the buffer ends inside memory. -/
theorem descpushAppendsOrFails : Obligations.DescpushAppendsOrFails :=
  ⟨fun t => decode_ofNat_of_toNat_encode rfl (toNat_wordA 0x31#8 t),
    fun tag _ hr => ⟨exec_descpush_full hr tag, exec_descpush_past_top hr tag,
      fun hroom hin => exec_descpush_of_room hr hroom hin tag⟩⟩

/-! ### The shape checks of ENCODE (R128) -/

/-- A search over the numbered entries of a list stops at the first position where it finds something. -/
theorem findSome?_zipIdx_of_first {α β : Type} {f : α × Nat → Option β} {l : List α} {p : Nat} {a : α} {b : β}
    (ha : l[p]? = some a) (hf : f (a, p) = some b) (hbefore : ∀ q e, q < p → l[q]? = some e → f (e, q) = none) :
    l.zipIdx.findSome? f = some b := by
  obtain ⟨hp, rfl⟩ := List.getElem?_eq_some_iff.1 ha
  have hsplit : l.zipIdx = (l.take p).zipIdx ++ (l[p], p) :: (l.drop (p + 1)).zipIdx (p + 1) := by
    conv_lhs => rw [← List.take_append_drop p l, List.drop_eq_getElem_cons hp, List.zipIdx_append, List.zipIdx_cons]
    rw [List.length_take_of_le hp.le, Nat.zero_add]
  refine List.findSome?_eq_some_iff.2 ⟨_, _, _, hsplit, hf, ?_⟩
  rintro ⟨e, q⟩ hmem
  rw [List.mem_zipIdx_iff_getElem?, List.getElem?_take, Option.ite_none_right_eq_some] at hmem
  obtain ⟨hq, he⟩ := hmem
  exact hbefore q e hq he

theorem lengthFailure_of_first {b p : Nat} {ds : List Descriptor} {d : Descriptor} (hd : ds[p]? = some d)
    (hlen : d.len.toNat ≠ b) (hbefore : ∀ q e, q < p → ds[q]? = some e → e.len.toNat = b) :
    lengthFailure b ds = some (.shapeLength p) :=
  findSome?_zipIdx_of_first hd (if_pos hlen) fun q e hq he => if_neg (not_not_intro (hbefore q e hq he))

theorem encodeFailure_of_count {b k m : Nat} {ds : List Descriptor} (hp : paramsFailure b k m = none)
    (h : ds.length ≠ k + m) : encodeFailure b k m ds = some .shapeCount := by
  simp [encodeFailure, hp, h]

theorem encodeFailure_eq_lengthFailure {b k m : Nat} {ds : List Descriptor} (hp : paramsFailure b k m = none)
    (h : ds.length = k + m) : encodeFailure b k m ds = lengthFailure b ds := by
  simp [encodeFailure, hp, h]

theorem exec_encode_of_failure {s : State} {f : Failure} (hr : s.ready)
    (h : encodeFailure s.blockBytes.toNat s.origCount.toNat s.recovCount.toNat s.descs = some f) :
    exec .encode s = .next (fail f s) := by
  refine (whenReady_of_ready hr _).trans ?_
  rw [h, afterChecks_some]

theorem State.CountsLegal.paramsFailure_eq_none {s : State} (hc : s.CountsLegal) (hb : s.blockBytes ≠ 0#32) :
    paramsFailure s.blockBytes.toNat s.origCount.toNat s.recovCount.toNat = none :=
  (paramsFailure_eq_none_iff _ _ _).2 ⟨fun e => hb (BitVec.eq_of_toNat_eq e), s.countsLegal_iff.1 hc⟩

/-- Settles O46: the count is checked first, then the lengths from the lowest position on. -/
theorem encodeReportsShapeFailures : Obligations.EncodeReportsShapeFailures := by
  intro s hr hb hc
  have hp := hc.paramsFailure_eq_none hb
  refine ⟨fun hcount => exec_encode_of_failure hr (encodeFailure_of_count hp hcount),
    fun hcount p d hd hlen hbefore => ?_⟩
  have hfirst : lengthFailure s.blockBytes.toNat s.descs = some (.shapeLength p) :=
    lengthFailure_of_first hd (fun e => hlen (BitVec.eq_of_toNat_eq e)) fun q e hq he => by rw [hbefore q e hq he]
  exact exec_encode_of_failure hr ((encodeFailure_eq_lengthFailure hp hcount).trans hfirst)

end Sys2Proof.Machine

/-! SUPPORT. The elimination's result is the inverse on both sides (R147, R152), by Mathlib's matrices over the field. -/

namespace Sys2Proof.Machine

/-- The first `n` rows and columns of `A` as a matrix of Mathlib's. -/
def gfMatrix (n : Nat) (A : GfMatrix) : Matrix (Fin n) (Fin n) GF256 := Matrix.of fun i j => entry A i j

/-- `W` times `M` is the unit matrix, on the first `n` rows and columns. -/
def LeftInverse (n : Nat) (W M : GfMatrix) : Prop :=
  ∀ i j, i < n → j < n → rowDot n W i (fun l => entry M l j) = if i = j then 1#8 else 0#8

/-- The first `n` bytes of `v` as a vector over the field. -/
def gfVector (n : Nat) (v : Nat → Byte) : Fin n → GF256 := fun i => v i

theorem gfMatrix_mulVec (n : Nat) (A : GfMatrix) (v : Nat → Byte) (i : Fin n) :
    letI := GF256.field
    (gfMatrix n A).mulVec (gfVector n v) i = rowDot n A i v := by
  let _ := GF256.field
  exact (Fin.sum_univ_eq_sum_range (fun l => show GF256 from gfMul (entry A i l) (v l)) n).trans
    (GF256.sum_range_eq_xorSum n _)

theorem leftInverse_iff_gfMatrix_mul (n : Nat) (W M : GfMatrix) :
    letI := GF256.field
    LeftInverse n W M ↔ gfMatrix n W * gfMatrix n M = 1 := by
  let _ := GF256.field
  have hentry : ∀ i j : Fin n, (gfMatrix n W * gfMatrix n M) i j = rowDot n W i fun l => entry M l j :=
    fun i j => gfMatrix_mulVec n W (fun l => entry M l j) i
  have hone : ∀ i j : Fin n, (1 : Matrix (Fin n) (Fin n) GF256) i j = if i.val = j.val then 1#8 else 0#8 :=
    fun i j => Matrix.one_apply.trans (if_congr Fin.ext_iff rfl rfl)
  refine ⟨fun h => Matrix.ext fun i j => ?_, fun h i j hi hj => ?_⟩
  · rw [hentry, hone, h i j i.isLt j.isLt]
  · rw [← hentry ⟨i, hi⟩ ⟨j, hj⟩, h, hone]

/-- Over a field a left inverse of a square matrix is a right inverse. -/
theorem LeftInverse.symm {n : Nat} {W M : GfMatrix} (h : LeftInverse n W M) : LeftInverse n M W := by
  let _ := GF256.field
  exact (leftInverse_iff_gfMatrix_mul n M W).2 (mul_eq_one_comm.1 ((leftInverse_iff_gfMatrix_mul n W M).1 h))

/-- A matrix with a left inverse sends no vector but 0 to 0. -/
theorem LeftInverse.eq_zero_of_rowDot {n : Nat} {W M : GfMatrix} (h : LeftInverse n W M) {v : Nat → Byte}
    (hv : ∀ r < n, rowDot n M r v = 0#8) : ∀ i < n, v i = 0#8 := by
  let _ := GF256.field
  have hM : (gfMatrix n M).mulVec (gfVector n v) = 0 := funext fun r => (gfMatrix_mulVec n M v r).trans (hv r r.isLt)
  have hzero : gfVector n v = 0 := by
    rw [← Matrix.one_mulVec (gfVector n v), ← (leftInverse_iff_gfMatrix_mul n W M).1 h, ← Matrix.mulVec_mulVec, hM,
      Matrix.mulVec_zero]
  exact fun i hi => congrFun hzero ⟨i, hi⟩

/-- A row times a column of the unit matrix. -/
theorem rowDot_unit (t : Nat) (A : GfMatrix) (r : Nat) {j : Nat} (hj : j < t) :
    rowDot t A r (fun l => if l = j then 1#8 else 0#8) = entry A r j := by
  simp only [rowDot, gfMul_comm (entry A r _)]
  exact xorSum_unit_gfMul hj (fun _ _ => rfl) (entry A r)

/-- What the elimination returns solves `M x = y` for the columns `y` of the unit matrix, so it is a right inverse,
and with that a left inverse. -/
theorem leftInverse_invertMatrix {M W : GfMatrix} (hM : HasWidth M.length M) (hW : invertMatrix M = some W) :
    LeftInverse M.length W M := by
  refine LeftInverse.symm fun i j hi hj => ?_
  have hsolve := rowDot_rowDot_invertMatrix hM hW (fun l => if l = j then 1#8 else 0#8) hi
  simpa only [rowDot_unit M.length W _ hj] using hsolve

/-- Settles O51: the rows and their lengths are kept by the rounds, and the result is a left inverse. -/
theorem eliminationReturnsTheInverse : Obligations.EliminationReturnsTheInverse :=
  fun _ _ hM hW => ⟨length_of_invertMatrix hM hW, hasWidth_of_invertMatrix hM hW, leftInverse_invertMatrix hM hW⟩

/-- Settles O52: a matrix the elimination does not invert sends a vector other than 0 to 0, which none with a left inverse
does. -/
theorem eliminationFailsOnlyOnSingular : Obligations.EliminationFailsOnlyOnSingular := by
  rintro M hM hnone ⟨W, hW⟩
  obtain ⟨v, ⟨i, hi, hvi⟩, hrows⟩ := exists_inKernel_of_invertMatrix_none hM hnone
  have hleft : LeftInverse M.length W M := hW
  exact hvi (hleft.eq_zero_of_rowDot (fun r _ => hrows r) i hi)

end Sys2Proof.Machine

/-! SUPPORT. The shape checks of DECODE and its budget (R141 to R143). -/

namespace Sys2Proof.Machine

/-! ### The shape checks (R141, R142) -/

theorem decodeFailure_of_count {b k m : Nat} {ds : List Descriptor} (hp : paramsFailure b k m = none)
    (h : ds.length ≠ k) : decodeFailure b k m ds = some .shapeCount := by
  simp [decodeFailure, hp, h]

/-- The check stops at the first slot that fails. -/
theorem decodeFailure_of_first {b k m p : Nat} {ds : List Descriptor} {d : Descriptor} {f : Failure}
    (hp : paramsFailure b k m = none) (hcount : ds.length = k) (hd : ds[p]? = some d)
    (hf : slotFailure b k m ds d p = some f)
    (hbefore : ∀ q e, q < p → ds[q]? = some e → slotFailure b k m ds e q = none) : decodeFailure b k m ds = some f := by
  have hfirst := findSome?_zipIdx_of_first (f := fun x : Descriptor × Nat => slotFailure b k m ds x.1 x.2) hd hf hbefore
  rw [decodeFailure, hp]
  exact (if_neg (not_not_intro hcount)).trans hfirst

theorem exec_decode_of_failure {s : State} {f : Failure} (hr : s.ready)
    (h : decodeFailure s.blockBytes.toNat s.origCount.toNat s.recovCount.toNat s.descs = some f) :
    exec .decode s = .next (fail f s) := by
  refine (whenReady_of_ready hr _).trans ?_
  rw [h, afterChecks_some]

theorem mem_take_iff_exists_before {ds : List Descriptor} {p : Nat} {e : Descriptor} :
    e ∈ ds.take p ↔ ∃ q < p, ds[q]? = some e := by
  simp [List.mem_iff_getElem?, List.getElem?_take]

/-- A slot that R141 accepts and whose tag no slot before it has, passes the model's tests. -/
theorem State.SlotLegal.slotFailure_eq_none {s : State} {p : Nat} {d : Descriptor} (h : s.SlotLegal p d)
    (hbefore : ∀ q e, q < p → s.descs[q]? = some e → e.idx ≠ d.idx) :
    slotFailure s.blockBytes.toNat s.origCount.toNat s.recovCount.toNat s.descs d p = none := by
  refine (slotFailure_eq_none_iff _ _ _ _ _ _).2 ⟨by rw [h.length], h.tagRange, h.placed, fun e he => ?_⟩
  obtain ⟨q, hq, hqe⟩ := mem_take_iff_exists_before.1 he
  exact hbefore q e hq hqe

section
variable {b k m p : Nat} {ds : List Descriptor} {d : Descriptor}

theorem slotFailure_of_length (h : d.len.toNat ≠ b) : slotFailure b k m ds d p = some (.shapeLength p) := if_pos h

theorem slotFailure_of_tagRange (hlen : d.len.toNat = b) (h : d.idx.toNat ≥ k + m) :
    slotFailure b k m ds d p = some (.shapeTagRange p) := by
  simp [slotFailure, hlen, h]

theorem slotFailure_of_misplaced (hlen : d.len.toNat = b) (htag : d.idx.toNat < k) (h : d.idx.toNat ≠ p) :
    slotFailure b k m ds d p = some (.shapeMisplaced p) := by
  have hin : ¬ k + m ≤ d.idx.toNat := by omega
  simp [slotFailure, hlen, hin, htag, h]

theorem slotFailure_of_duplicate (hlen : d.len.toNat = b) (htag : d.idx.toNat < k + m)
    (hplaced : d.idx.toNat < k → d.idx.toNat = p) (h : ∃ e ∈ ds.take p, e.idx = d.idx) :
    slotFailure b k m ds d p = some (.shapeDuplicate p) := by
  have hin : ¬ k + m ≤ d.idx.toNat := by omega
  have hpl : ¬ (d.idx.toNat < k ∧ d.idx.toNat ≠ p) := fun hm => hm.2 (hplaced hm.1)
  have hdup : (ds.take p).any (fun e => decide (e.idx = d.idx)) = true := by simpa using h
  rw [slotFailure, if_neg (not_not_intro hlen), if_neg hin, if_neg hpl, if_pos hdup]

end

/-- Settles O48: the count is checked first; then the search stops at `p` and reports the first test that fails there. -/
theorem decodeReportsShapeFailures : Obligations.DecodeReportsShapeFailures := by
  intro s hr hb hc
  have hp := hc.paramsFailure_eq_none hb
  refine ⟨fun hcount => exec_decode_of_failure hr (decodeFailure_of_count hp hcount), fun hcount p d hd hbefore => ?_⟩
  have fails : ∀ f, slotFailure s.blockBytes.toNat s.origCount.toNat s.recovCount.toNat s.descs d p = some f →
      exec .decode s = .next (fail f s) := fun f hf =>
    exec_decode_of_failure hr (decodeFailure_of_first hp hcount hd hf fun q e hq he =>
      (hbefore q e hq he).1.slotFailure_eq_none (hbefore q e hq he).2)
  refine ⟨fun hlen => ?_, fun hlen htag => ?_, fun hlen htag hpos => ?_, ?_⟩
  · exact fails _ (slotFailure_of_length fun e => hlen (BitVec.eq_of_toNat_eq e))
  · exact fails _ (slotFailure_of_tagRange (by rw [hlen]) htag)
  · exact fails _ (slotFailure_of_misplaced (by rw [hlen]) htag hpos)
  · rintro hslot ⟨q, e, hq, he, htag⟩
    exact fails _ (slotFailure_of_duplicate (by rw [hslot.length]) hslot.tagRange hslot.placed
      ⟨e, mem_take_iff_exists_before.2 ⟨q, hq, he⟩, htag⟩)

/-! ### The budget (R143) -/

theorem State.DecodeLegal.nodup_tags {s : State} (h : s.DecodeLegal) : (s.descs.map (·.idx.toNat)).Nodup := by
  refine List.nodup_iff_injective_getElem.2 ?_
  rintro ⟨p, hp⟩ ⟨q, hq⟩ htag
  rw [List.length_map] at hp hq
  refine Fin.ext (h.distinct p q _ _ (List.getElem?_eq_getElem hp) (List.getElem?_eq_getElem hq) ?_)
  exact BitVec.eq_of_toNat_eq (by simpa using htag)

/-- The erased slots have distinct tags, all of them among the `m` recovery tags. -/
theorem State.DecodeLegal.erased_le_recovCount {s : State} (h : s.DecodeLegal) :
    (s.descs.filter fun d => decide (s.origCount.toNat ≤ d.idx.toNat)).length ≤ s.recovCount.toNat := by
  have hnodup := h.nodup_tags.sublist
    ((List.filter_sublist (l := s.descs) (p := fun d => decide (s.origCount.toNat ≤ d.idx.toNat))).map (·.idx.toNat))
  have hrange : (s.descs.filter fun d => decide (s.origCount.toNat ≤ d.idx.toNat)).map (·.idx.toNat) ⊆
      List.range' s.origCount.toNat s.recovCount.toNat := by
    refine List.forall_mem_map.2 fun d hd => ?_
    obtain ⟨hmem, herased⟩ := List.mem_filter.1 hd
    obtain ⟨p, hp⟩ := List.mem_iff_getElem?.1 hmem
    exact List.mem_range'_1.2 ⟨of_decide_eq_true herased, (h.slots p d hp).tagRange⟩
  simpa using (hnodup.subperm hrange).length_le

theorem exec_decode_of_err_zero {s t : State} (hr : s.ready) (h : exec .decode s = .next t) (he : t.err = 0x00#8) :
    s.DecodeLegal ∧ s.DecodeDuties ∧ ∃ W, t = decodeResult s W := by
  obtain ⟨u, hu, rfl⟩ := (exec_next h).succeeded_of_err_zero hr he
  cases hu with
  | decode W hi hl hd hW => exact ⟨hl, hd, W, rfl⟩

/-- Settles O49: only a table that passes the checks is decoded, and its checks keep the budget. -/
theorem decodeNeverExceedsTheBudget : Obligations.DecodeNeverExceedsTheBudget :=
  fun _ _ hr h he => (exec_decode_of_err_zero hr h he).1.erased_le_recovCount

end Sys2Proof.Machine

/-! SUPPORT. A second DECODE of the same table (R151, R155), and the round trip with ENCODE (R154). -/

namespace Sys2Proof.Machine

/-! ### The table DECODE leaves -/

section
variable {s : State} (hl : s.DecodeLegal) (W : GfMatrix)
include hl

/-- Every slot after DECODE is a slot from before, its tag now its position. -/
theorem exists_slot_of_decodeResult {p : Nat} {d : Descriptor} (h : (decodeResult s W).descs[p]? = some d) :
    ∃ e, s.descs[p]? = some e ∧ d = { e with idx := BitVec.ofNat 8 p } ∧ d.idx.toNat = p ∧ p < s.origCount.toNat := by
  obtain ⟨e, he, -⟩ := Option.map_eq_some_iff.1 ((getElem?_retagged _ _ _).symm.trans h)
  obtain rfl := Option.some.inj ((getElem?_descs_decodeResult hl W he).symm.trans h)
  have hp : p < s.origCount.toNat := hl.count ▸ (List.getElem?_eq_some_iff.1 he).1
  exact ⟨e, he, rfl, (BitVec.toNat_ofNat _ _).trans (Nat.mod_eq_of_lt (hp.trans_le hl.counts.orig_max)), hp⟩

theorem decodeResult_no_erasure : ∀ d ∈ (decodeResult s W).descs, ¬ (decodeResult s W).erased d := by
  intro d hd
  obtain ⟨p, hp⟩ := List.mem_iff_getElem?.1 hd
  obtain ⟨e, -, -, htag, hlt⟩ := exists_slot_of_decodeResult hl W hp
  exact Nat.not_le_of_lt (htag ▸ hlt)

theorem decodeResult_legal : (decodeResult s W).DecodeLegal where
  block := hl.block
  counts := ⟨hl.counts.orig_min, hl.counts.orig_max, hl.counts.sum⟩
  count := (length_retagged _ _).trans hl.count
  slots p d h := by
    obtain ⟨e, he, rfl, htag, hlt⟩ := exists_slot_of_decodeResult hl W h
    exact ⟨(hl.slots p e he).length, htag.trans_lt (Nat.lt_add_right _ hlt), fun _ => htag⟩
  distinct p q d e hp hq h := by
    obtain ⟨-, -, -, hp, -⟩ := exists_slot_of_decodeResult hl W hp
    obtain ⟨-, -, -, hq, -⟩ := exists_slot_of_decodeResult hl W hq
    rw [← hp, ← hq, h]

end

/-- The cache, ERR and ERRINFO already are what a DECODE without an erasure makes them. -/
theorem decodeResult_decodeResult_eq {s : State} (hl : s.DecodeLegal) (W : GfMatrix) :
    decodeResult (decodeResult s W) [] = decodeResult s W :=
  decodeResult_of_no_erasure (decodeResult_no_erasure hl W)

/-- Settles O56: the table a DECODE leaves is legal and has no erased slot. -/
theorem secondDecodeChangesNothing : Obligations.SecondDecodeChangesNothing := by
  intro s t hr h he
  obtain ⟨hl, hd, W, rfl⟩ := exec_decode_of_err_zero hr h he
  have hno := decodeResult_no_erasure hl W
  have hduties : (decodeResult s W).DecodeDuties :=
    ⟨(forall_retagged_iff (fun a n => s.platform.allows ⟨a.toNat, n.toNat⟩) _ _).2 hd.ordinary,
      fun p q d e hp _ herased => absurd herased (hno d (List.mem_of_getElem? hp))⟩
  have hexec := execDecode_of_legal (s := decodeResult s W) hr (decodeResult_legal hl W)
    (invertMatrix_of_no_erasure hno) hduties
  rwa [decodeResult_decodeResult_eq hl W] at hexec

/-! ### The round trip (R154) -/

/-- The bytes `z` of the erased positions, numbered as the erased slots are. -/
def erasedVector (k : Nat) (ds : List Descriptor) (z : Nat → Byte) (i : Nat) : Byte :=
  ((erasedSlots k ds).map fun e => z e.2).getD i 0#8

theorem erasedVector_of_lt {k : Nat} {ds : List Descriptor} (z : Nat → Byte) {i : Nat}
    (hi : i < (erasedSlots k ds).length) : erasedVector k ds z i = z (erasedSlots k ds)[i].2 := by
  simp [erasedVector, hi]

/-- The system of R148 has one solution: bytes that every erased slot's generator row sends to 0 are 0. -/
theorem eq_zero_of_erased_rows {k : Nat} {ds : List Descriptor} {W : GfMatrix}
    (hW : invertMatrix (submatrix k ds) = some W) {z : Nat → Byte}
    (h : ∀ d p, (d, p) ∈ erasedSlots k ds →
      xorSum ((erasedSlots k ds).map fun e => gfMul (genEntry k (supplyRow k d) e.2) (z e.2)) = 0#8)
    {d : Descriptor} {p : Nat} (hd : (d, p) ∈ erasedSlots k ds) : z p = 0#8 := by
  have hinv := leftInverse_invertMatrix (hasWidth_submatrix k ds) hW
  rw [length_submatrix] at hinv
  have hrows : ∀ j < (erasedSlots k ds).length,
      rowDot (erasedSlots k ds).length (submatrix k ds) j (erasedVector k ds z) = 0#8 := fun j hj => by
    refine Eq.trans (congrArg xorSum (map_eq_map_range fun i hi => ?_)).symm
      (h (erasedSlots k ds)[j].1 _ (List.getElem_mem hj))
    rw [erasedVector_of_lt z hi, entry_submatrix k ds hj hi]
  obtain ⟨i, hi, hid⟩ := List.getElem_of_mem hd
  have hzero := hinv.eq_zero_of_rowDot hrows i hi
  rwa [erasedVector_of_lt z hi, hid] at hzero

/-- What ENCODE leaves in recovery block `r` is row `r` of the generator over the originals (R128). -/
theorem slotByte_of_exec_encode {s t : State} (hr : s.ready) (h : exec .encode s = .next t) (he : t.err = 0x00#8)
    {r b : Nat} (hrow : r < s.recovCount.toNat) (hb : b < s.blockBytes.toNat) :
    t.slotByte (s.origCount.toNat + r) b = xorSum ((List.range s.origCount.toNat).map fun c =>
      gfMul (genEntry s.origCount.toNat r c) (s.slotByte c b)) := by
  obtain ⟨u, hu, rfl⟩ := (exec_next h).succeeded_of_err_zero hr he
  cases hu with
  | encode hi hl hd =>
    rw [← recoveryByte_eq_xorSum_slotByte (hl.count ▸ Nat.le_add_right _ _)]
    exact slotByte_encode hl hd hrow hb

/-- R149: the bytes `x` that agree with the correct slots, and whose recovery bytes the erased slots hold, are what DECODE
leaves in the slots. -/
theorem slotByte_decodeResult_eq {s : State} (hl : s.DecodeLegal) (hd : s.DecodeDuties) {W : GfMatrix}
    (hW : invertMatrix (submatrix s.origCount.toNat s.descs) = some W) {b : Nat} (hb : b < s.blockBytes.toNat)
    {x : Nat → Byte}
    (hcorrect : ∀ p d, s.descs[p]? = some d → d.idx.toNat < s.origCount.toNat → s.slotByte p b = x p)
    (herased : ∀ p d, s.descs[p]? = some d → s.origCount.toNat ≤ d.idx.toNat → s.slotByte p b =
      xorSum ((List.range s.origCount.toNat).map fun c =>
        gfMul (genEntry s.origCount.toNat (supplyRow s.origCount.toNat d) c) (x c)))
    {p : Nat} {d : Descriptor} (hp : s.descs[p]? = some d) : (decodeResult s W).slotByte p b = x p := by
  have hsame : ∀ q d, s.descs[q]? = some d → d.idx.toNat < s.origCount.toNat →
      (decodeResult s W).slotByte q b = x q := fun q d hq hc =>
    (slotByte_decodeResult_correct hl hd W hq hc hb).trans (hcorrect q d hq hc)
  by_cases hk : s.origCount.toNat ≤ d.idx.toNat
  · refine BitVec.xor_eq_zero_iff.1 (eq_zero_of_erased_rows hW (z := fun c => (decodeResult s W).slotByte c b ^^^ x c)
      (fun d q hdq => ?_) ((mem_erasedSlots _ _ _ _).2 ⟨hp, hk⟩))
    obtain ⟨hq, hkq⟩ := (mem_erasedSlots _ _ _ _).1 hdq
    have hdiff : xorSum ((List.range s.descs.length).map fun c =>
        gfMul (genEntry s.origCount.toNat (supplyRow s.origCount.toNat d) c)
          ((decodeResult s W).slotByte c b ^^^ x c)) = 0#8 := by
      simp only [gfMul_xor_right, xorSum_map_xor]
      rw [hl.count, ← slotByte_eq_xorSum_decodeResult hl hd hW hq hkq hb, ← herased q d hq hkq, BitVec.xor_self]
    rw [xorSum_range_eq_slots s.origCount.toNat, xorSum_map_eq_zero, BitVec.zero_xor] at hdiff
    · exact hdiff
    · rintro ⟨e, c⟩ hec
      obtain ⟨hc, hkc⟩ := (mem_correctSlots _ _ _ _).1 hec
      rw [hsame c e hc hkc, BitVec.xor_self, gfMul_zero]
  · exact hsame p d hp (Nat.lt_of_not_le hk)

/-- Settles O57: the originals agree with what DECODE finds, so they are what it leaves. -/
theorem decodeOfEncodeRestoresOriginals : Obligations.DecodeOfEncodeRestoresOriginals := by
  intro s t u hr h he hru hl hd hblock hk hm hslots
  obtain ⟨W, hW⟩ := exists_invertMatrix_submatrix hl
  have effect : Effect u .decode _ := .decode W hru.2 hl hd hW
  refine ⟨_, execDecode_of_legal hru hl hW hd, rfl, fun p b hp hb => ?_, fun x => effect.read_outside⟩
  have hlt : p < u.descs.length := by rwa [hl.count, hk]
  have hbefore : ∀ q d, u.descs[q]? = some d → u.slotByte q b =
      if d.idx.toNat < s.origCount.toNat then s.slotByte q b else t.slotByte d.idx.toNat b := fun q d hq => by
    have hlt := (List.getElem?_eq_some_iff.1 hq).1
    rw [hl.count, hk] at hlt
    rw [hslots q b hlt hb, State.slotTag_of_getElem? hq]
  refine slotByte_decodeResult_eq hl hd hW (hblock ▸ hb) (x := fun c => s.slotByte c b) (fun q d hq hc => ?_)
    (fun q d hq hkq => ?_) (List.getElem?_eq_getElem hlt)
  · rw [hbefore q d hq, if_pos (hk ▸ hc)]
  · have htag := (hl.slots q d hq).tagRange
    rw [hk] at hkq htag
    rw [hm] at htag
    have hrow := slotByte_of_exec_encode hr h he (r := d.idx.toNat - s.origCount.toNat) (by omega) hb
    rw [Nat.add_sub_cancel' hkq] at hrow
    rw [hbefore q d hq, if_neg (Nat.not_lt_of_le hkq), hrow, hk, supplyRow]

end Sys2Proof.Machine

/-! SUPPORT. What becomes of a write to CMD (R160, R166): the answers of a command cover the illegal words too. -/

namespace Sys2Proof.Machine

/-- A word that is no command is answered in ways open to every command: ignored, or failed (R66). -/
theorem CommandAnswer.of_rejectWord (i : Instr) (f : Failure) (s : State) : CommandAnswer i s (rejectWord f s) := by
  cases hf : s.fatal with
  | true =>
    rw [rejectWord_of_fatal hf]
    exact .ignored hf
  | false =>
    rw [rejectWord_of_not_fatal hf]
    exact .failed hf f

/-- The inversion of `issue`; for an illegal word any command serves as `i`. -/
theorem exists_commandAnswer_of_issue {w : Word} {s t : State} (h : issue w s = .next t) :
    ∃ i, CommandAnswer i s t := by
  obtain ⟨i, -, hx⟩ | ⟨-, rfl⟩ | ⟨-, rfl⟩ := issue_next h
  · exact ⟨i, exec_next hx⟩
  · exact ⟨.init, .of_rejectWord _ _ s⟩
  · exact ⟨.init, .of_rejectWord _ _ s⟩

/-- Settles O15: each answer of a command is one of the four outcomes, both fatal errors being the fourth. -/
theorem commandWritesHaveFourOutcomes : Obligations.CommandWritesHaveFourOutcomes := by
  intro w s t h
  obtain ⟨i, ht⟩ := exists_commandAnswer_of_issue h
  cases ht with
  | ignored hf => exact .inl ⟨hf, rfl⟩
  | succeeded hf hu => exact .inr (.inl ⟨hf, hu.fatal_eq.trans hf, rfl, rfl, rfl⟩)
  | failed hf f => exact .inr (.inr (.inl ⟨hf, f.code_mem, rfl⟩))
  | initFail hc hf hi => exact .inr (.inr (.inr ⟨hf, by simp [Fatality.code], rfl⟩))
  | internal hc hr hl hW => exact .inr (.inr (.inr ⟨hr.1, by simp [Fatality.code], rfl⟩))

/-- Settles O17: the failure recorded is NOTINIT, whose code is 0x06 and whose ERRINFO is 0. -/
theorem commandsBeforeInitFail : Obligations.CommandsBeforeInitFail :=
  fun _ _ hne hf hi => exec_of_not_init hf hi hne

end Sys2Proof.Machine
